-- ==== Sys2Proof/Word.lean ====
section
/-!
DEFINITION. The word types of the block, and the two data shapes that travel whole: a Frame and a Word Group.
Bit 0 of every word is its least significant bit (00_scope.md R10).
-/

namespace Sys2Proof

/-- The IEEE 754 binary32 pattern of one input sample (30_encoding.md R101). -/
abbrev Sample := BitVec 32

/-- One packed output word (30_encoding.md R97). -/
abbrev OutWord := BitVec 32

/-- An ACC_FMT value: the low W bits hold the pattern, W = 32 or 64 (00_scope.md R8, log 16). -/
abbrev Acc := BitVec 64

/-- A byte of a serialised stream (20_memory.md R63, R64). -/
abbrev Byte := BitVec 8

/-- The two channels; their codes are 0 for L and 1 for R (30_encoding.md R106). -/
inductive Channel where
  | left
  | right
deriving DecidableEq, Repr

/-- A pair (left, right) of sample patterns (00_scope.md R14, 20_memory.md R60). -/
structure Frame where
  left : Sample
  right : Sample
deriving DecidableEq, Repr

/-- Four words in emission order: L first half, R first half, L second half, R second half
(30_encoding.md R98). -/
structure WordGroup where
  w0 : OutWord
  w1 : OutWord
  w2 : OutWord
  w3 : OutWord
deriving DecidableEq, Repr

/-- The words of a group in emission order (30_encoding.md R98). -/
def WordGroup.words (g : WordGroup) : List OutWord := [g.w0, g.w1, g.w2, g.w3]

end Sys2Proof
end

