-- ==== Sys2Proof/Config.lean ====
section
/-!
DEFINITION. What an instance of the block fixes when it is built (00_scope.md R8), the canonical preset
(40_modulator.md R143) as ACC_FMT patterns, and the values the spec leaves open, as constants without a body.
-/

namespace Sys2Proof

/-- ACC_FMT: the number format of the accumulators and of all datapath arithmetic (00_scope.md R8, D1). -/
inductive AccFmt where
  | binary32
  | binary64
deriving DecidableEq, Repr

/-- W, the data width of the configuration port and of an ACC_FMT value (10_state.md R40). -/
def AccFmt.width : AccFmt → Nat
  | .binary32 => 32
  | .binary64 => 64

/-- A value of `q[ch]`: -1, 0 or +1 (10_state.md R22). How it is stored is not specified (U13). -/
inductive Quant where
  | minus
  | zero
  | plus
deriving DecidableEq, Repr, Inhabited

/-- IN_BYTE_ORDER of the byte-stream adapter (20_memory.md R64). -/
inductive ByteOrder where
  | little
  | big
deriving DecidableEq, Repr

/-- The build-time parameters of 00_scope.md R8. `seqw = none` is the unbounded counter. -/
structure Params where
  accFmt : AccFmt
  qReset : Quant
  nSlots : Nat
  batchCap : Nat
  nCompute : Nat
  inByteOrder : ByteOrder
  seqw : Option Nat
deriving DecidableEq, Repr

/-- The defaults of 00_scope.md R8. -/
def Params.default : Params where
  accFmt := .binary32
  qReset := .minus
  nSlots := 4
  batchCap := 4096
  nCompute := 1
  inByteOrder := .little
  seqw := none

/-- A sequence counter of `w` bits is wide enough to compare counters of a pool of `n` slots:
`w >= ceil(log2(2 * n))` (00_scope.md R8). -/
def Params.seqwOk (n : Nat) : Option Nat → Bool
  | none => true
  | some w => decide (2 * n ≤ 2 ^ w)

/-- The legal values of the build-time parameters (00_scope.md R8). -/
def Params.legal (p : Params) : Bool :=
  decide (1 ≤ p.nSlots) && decide (1 ≤ p.batchCap) && decide (1 ≤ p.nCompute) && Params.seqwOk p.nSlots p.seqw

/-! ### The canonical preset (10_state.md R40, 40_modulator.md R143) as patterns of each format -/

/-- 1.0, the value of C0 (10_state.md R42). -/
def presetOne : AccFmt → Acc
  | .binary32 => 0x3F800000
  | .binary64 => 0x3FF0000000000000

/-- 0.5: the reset value of GAIN and of C1 (10_state.md R41, R43). -/
def presetHalf : AccFmt → Acc
  | .binary32 => 0x3F000000
  | .binary64 => 0x3FE0000000000000

/-- 0.25: the reset value of C2 (10_state.md R43). -/
def presetQuarter : AccFmt → Acc
  | .binary32 => 0x3E800000
  | .binary64 => 0x3FD0000000000000

/-- 0.125: the reset value of C3 (10_state.md R43). -/
def presetEighth : AccFmt → Acc
  | .binary32 => 0x3E000000
  | .binary64 => 0x3FC0000000000000

/-- 0.0625: the reset value of C4 (10_state.md R43). -/
def presetSixteenth : AccFmt → Acc
  | .binary32 => 0x3D800000
  | .binary64 => 0x3FB0000000000000

/-- 128.0: the reset value of LIMIT (10_state.md R44). -/
def presetLimit : AccFmt → Acc
  | .binary32 => 0x43000000
  | .binary64 => 0x4060000000000000

/-- 65536.0: the largest legal LIMIT (10_state.md R40). -/
def limitMax : AccFmt → Acc
  | .binary32 => 0x47800000
  | .binary64 => 0x40F0000000000000

/-! ### Open values

After an ABORT the datapath registers, `dp_owner`, `proc_idx` and the contents of the slots have no specified
value (43_pipeline_coordinator.md R218, 93_implementation_defined.md U5, log 8), and a port output nobody may sample
has none either (U4, log 26). The first argument is the model's counter of such events, the second says which register. -/

/-- An accumulator after an ABORT (log 8). -/
opaque Config.freeAcc : Nat → Nat → Acc

/-- A 32-bit register after an ABORT (log 8). -/
opaque Config.freeWord : Nat → Nat → BitVec 32

/-- A quantizer feedback value after an ABORT (log 8). -/
opaque Config.freeQuant : Nat → Nat → Quant

/-- The step index after an ABORT (log 8). -/
opaque Config.freeStep : Nat → BitVec 6

/-- The datapath owner after an ABORT (log 8). -/
opaque Config.freeOwner : Nat → Option Nat

/-- A count after an ABORT (log 8). -/
opaque Config.freeNat : Nat → Nat → Nat

/-- The Frames readable in a slot after an ABORT (log 8). -/
opaque Config.freeFrames : Nat → Nat → List (Nat × Frame)

/-- The Word Groups readable in a slot after an ABORT (log 8). -/
opaque Config.freeGroups : Nat → Nat → List (Nat × WordGroup)

/-- `out_word` in a state that offers no word (log 26). -/
opaque Config.idleOutWord : Nat → BitVec 32

/-- `cfg_rdata` in a cycle in which no read beat is accepted (log 26). -/
opaque Config.idleCfgData : Nat → BitVec 64

end Sys2Proof
end

