-- ==== Sys2Proof/Syntax.lean ====
section
/-!
DEFINITION. The operations of the block, one constructor per row of spec/opcode_table.json (30_encoding.md R110).
ACC_FMT operands are carried in 64 bits (log 16).
-/

namespace Sys2Proof

/-- An operation of the block (00_scope.md R6, 30_encoding.md R110). -/
inductive Instr where
  /-- RESET, HOST (44_system.md R230). -/
  | reset
  /-- LOAD_CFG idx, data, HOST (44_system.md R233). -/
  | loadCfg (idx : BitVec 4) (data : BitVec 64)
  /-- READ_CSR idx, HOST (44_system.md R236). -/
  | readCsr (idx : BitVec 4)
  /-- PUSH_FRAME left, right, SRC with READER (43_pipeline_coordinator.md R196). -/
  | pushFrame (left right : Sample)
  /-- END_STREAM, SRC with READER (43_pipeline_coordinator.md R198). -/
  | endStream
  /-- POP_WORD, WRITER with SINK; WRITE_WORD is its name on the Writer's side (43_pipeline_coordinator.md R212). -/
  | popWord
  /-- POP_FAIL, SINK (43_pipeline_coordinator.md R213). -/
  | popFail
  /-- SANITIZE x, READER (43_pipeline_coordinator.md R197). -/
  | sanitize (x : Sample)
  /-- INTERP ch, COMPUTE (41_interpolator.md R152). -/
  | interp (ch : Channel)
  /-- SCALE ch, x, COMPUTE (40_modulator.md R126). -/
  | scale (ch : Channel) (x : Acc)
  /-- INTEGRATE ch, scaled, COMPUTE (40_modulator.md R128). -/
  | integrate (ch : Channel) (scaled : Acc)
  /-- PANIC_CHECK ch, COMPUTE (40_modulator.md R131). -/
  | panicCheck (ch : Channel)
  /-- CLAMP ch, COMPUTE (40_modulator.md R133). -/
  | clamp (ch : Channel)
  /-- QUANTIZE ch, COMPUTE (40_modulator.md R135). -/
  | quantize (ch : Channel)
  /-- PACK_BIT ch, b, COMPUTE (42_bit_packer.md R172). -/
  | packBit (ch : Channel) (b : Bool)
  /-- CLOSE_HALF, COMPUTE (42_bit_packer.md R174). -/
  | closeHalf
  /-- EMIT_GROUP, COMPUTE (42_bit_packer.md R176). -/
  | emitGroup
  /-- MODULATE ch, x, COMPUTE (40_modulator.md R137). -/
  | modulate (ch : Channel) (x : Acc)
  /-- STEP, COMPUTE (41_interpolator.md R156). -/
  | step
  /-- TRANSITION, COMPUTE (41_interpolator.md R158). -/
  | transition
  /-- CLOSE_BATCH, READER (43_pipeline_coordinator.md R199). -/
  | closeBatch
  /-- CLAIM k, COMPUTE[k] (43_pipeline_coordinator.md R203). -/
  | claim (k : Nat)
  /-- PROCESS_FRAME, COMPUTE[k] (43_pipeline_coordinator.md R205). -/
  | processFrame
  /-- PROCESS_DONE, COMPUTE[k] (43_pipeline_coordinator.md R206). -/
  | processDone
  /-- WRITE_DONE, WRITER (43_pipeline_coordinator.md R214). -/
  | writeDone
  /-- RELEASE, WRITER (43_pipeline_coordinator.md R215). -/
  | release
  /-- FINISH, WRITER (43_pipeline_coordinator.md R217). -/
  | finish
  /-- ABORT, WRITER, the second half of POP_FAIL (43_pipeline_coordinator.md R218). -/
  | abort
deriving DecidableEq, Repr

end Sys2Proof
end

