-- ==== Sys2Proof/WellFormed.lean ====
section
/-!
DEFINITION. When an operation's operands are values the block's instance can be given: an ACC_FMT operand fits in W bits
(10_state.md R40), and a Compute role exists (30_encoding.md R110, table row CLAIM) and fits the trace record (log 4, log 15).
-/

namespace Sys2Proof

/-- The value fits the W bits of ACC_FMT (10_state.md R40). -/
def Acc.fits (f : AccFmt) (v : Acc) : Bool := decide (v.toNat < 2 ^ f.width)

/-- The operand check of each operation; operations not listed take every operand of their type. -/
def Instr.wellFormed (p : Params) : Instr → Bool
  | .reset => true
  | .loadCfg _ data => Acc.fits p.accFmt data
  | .readCsr _ => true
  | .pushFrame _ _ => true
  | .endStream => true
  | .popWord => true
  | .popFail => true
  | .sanitize _ => true
  | .interp _ => true
  | .scale _ x => Acc.fits p.accFmt x
  | .integrate _ scaled => Acc.fits p.accFmt scaled
  | .panicCheck _ => true
  | .clamp _ => true
  | .quantize _ => true
  | .packBit _ _ => true
  | .closeHalf => true
  | .emitGroup => true
  | .modulate _ x => Acc.fits p.accFmt x
  | .step => true
  | .transition => true
  | .closeBatch => true
  | .claim k => decide (k < p.nCompute) && decide (k < 2 ^ 64)
  | .processFrame => true
  | .processDone => true
  | .writeDone => true
  | .release => true
  | .finish => true
  | .abort => true

end Sys2Proof
end

