-- ==== Sys2Proof/Decode.lean ====
section
/-!
DEFINITION. The port beats and trace records an operation arrives in, their decoder (total, rejecting by name) and their
encoder. Formats: the `rst` pin (30_encoding.md R91), CFG (R95), IN (R92), the OUT handshake pins (R97, R99), and the OPID
with its operands in a trace record, which travels on no port (R110, R116; layout: log 4).
-/

namespace Sys2Proof

/-- What one agent puts forward at one moment: a beat on a port, or a trace record of an internal operation (log 1).

`opid` layout (log 4): bits 4:0 OPID, bits 7:5 zero, bits 15:8 the small operand (channel or register index), bits 79:16
the large operand (ACC_FMT value, sample, Frame, bit or Compute index). -/
inductive Beat where
  /-- The `rst` pin (R91). -/
  | pin (rst : Bool)
  /-- A CFG beat in the low W+5 bits (R95). -/
  | cfg (bits : BitVec 69)
  /-- An IN beat (R92). -/
  | inp (bits : BitVec 65)
  /-- SINK's pins while a word is offered (R99, 43_pipeline_coordinator.md R211). -/
  | out (ready err : Bool)
  /-- A trace record (R110, R116; log 4). -/
  | opid (rec : BitVec 80)
deriving DecidableEq, Repr

/-- Why a beat or record is no operation. -/
inductive Reject where
  /-- The OPID names no operation (30_encoding.md R111). -/
  | reservedOpid
  /-- A bit that carries nothing is set. -/
  | strayBits
  /-- An operand field holds a value its operand cannot have. -/
  | badOperand
  /-- The port transfers nothing: `rst` is 0, or SINK makes the Writer wait (43_pipeline_coordinator.md R211). -/
  | noTransfer
deriving DecidableEq, Repr

/-! ### Operand fields -/

/-- Channel code: 0 = L, 1 = R (30_encoding.md R106). -/
def channelCode : Channel → BitVec 8
  | .left => 0
  | .right => 1

/-- Read a channel code (30_encoding.md R106). -/
def decodeChannel (a : BitVec 8) : Except Reject Channel :=
  if a = 0 then .ok .left else if a = 1 then .ok .right else .error .badOperand

/-- Read a register index, 4 bits (30_encoding.md R95). -/
def decodeIdx (a : BitVec 8) : Except Reject (BitVec 4) :=
  if a.extractLsb' 4 4 = 0 then .ok (a.extractLsb' 0 4) else .error .badOperand

/-- Read a 32-bit operand from the large field. -/
def decodeSample (b : BitVec 64) : Except Reject Sample :=
  if b.extractLsb' 32 32 = 0 then .ok (b.extractLsb' 0 32) else .error .badOperand

/-- Read a one-bit operand from the large field (30_encoding.md R103). -/
def decodeBit (b : BitVec 64) : Except Reject Bool :=
  if b = 0 then .ok false else if b = 1 then .ok true else .error .badOperand

/-- The value `v`, provided nothing stands where nothing may. -/
def whenClear (clear : Bool) (v : Except Reject Instr) : Except Reject Instr :=
  if clear then v else .error .strayBits

/-! ### The trace record (log 4) -/

/-- Decode a record's OPID with its small operand `a` and large operand `b` (30_encoding.md R110). -/
def decodeOpid (op : Nat) (a : BitVec 8) (b : BitVec 64) : Except Reject Instr :=
  match op with
  | 0 => whenClear (a == 0 && b == 0) (.ok .reset)
  | 1 => (decodeIdx a).map (fun idx => .loadCfg idx b)
  | 2 => whenClear (b == 0) ((decodeIdx a).map .readCsr)
  | 3 => whenClear (a == 0) (.ok (.pushFrame (b.extractLsb' 32 32) (b.extractLsb' 0 32)))
  | 4 => whenClear (a == 0 && b == 0) (.ok .endStream)
  | 5 => whenClear (a == 0 && b == 0) (.ok .popWord)
  | 6 => whenClear (a == 0 && b == 0) (.ok .popFail)
  | 8 => whenClear (a == 0) ((decodeSample b).map .sanitize)
  | 9 => whenClear (b == 0) ((decodeChannel a).map .interp)
  | 10 => (decodeChannel a).map (fun ch => .scale ch b)
  | 11 => (decodeChannel a).map (fun ch => .integrate ch b)
  | 12 => whenClear (b == 0) ((decodeChannel a).map .panicCheck)
  | 13 => whenClear (b == 0) ((decodeChannel a).map .clamp)
  | 14 => whenClear (b == 0) ((decodeChannel a).map .quantize)
  | 15 =>
    match decodeChannel a, decodeBit b with
    | .ok ch, .ok v => .ok (.packBit ch v)
    | .error e, _ => .error e
    | _, .error e => .error e
  | 16 => whenClear (a == 0 && b == 0) (.ok .closeHalf)
  | 17 => whenClear (a == 0 && b == 0) (.ok .emitGroup)
  | 18 => (decodeChannel a).map (fun ch => .modulate ch b)
  | 19 => whenClear (a == 0 && b == 0) (.ok .step)
  | 20 => whenClear (a == 0 && b == 0) (.ok .transition)
  | 24 => whenClear (a == 0 && b == 0) (.ok .closeBatch)
  | 25 => whenClear (a == 0) (.ok (.claim b.toNat))
  | 26 => whenClear (a == 0 && b == 0) (.ok .processFrame)
  | 27 => whenClear (a == 0 && b == 0) (.ok .processDone)
  | 28 => whenClear (a == 0 && b == 0) (.ok .writeDone)
  | 29 => whenClear (a == 0 && b == 0) (.ok .release)
  | 30 => whenClear (a == 0 && b == 0) (.ok .finish)
  | 31 => whenClear (a == 0 && b == 0) (.ok .abort)
  | _ => .error .reservedOpid

/-- Decode a whole record (log 4). -/
def decodeRecord (r : BitVec 80) : Except Reject Instr :=
  whenClear (r.extractLsb' 5 3 == 0)
    (decodeOpid (r.extractLsb' 0 5).toNat (r.extractLsb' 8 8) (r.extractLsb' 16 64))

/-! ### The ports -/

/-- Decode a CFG beat of the port's own width: `wr` above `idx` above W bits of data (30_encoding.md R95).
A read's data bits are ignored (U19). -/
def decodeCfg (f : AccFmt) (b : BitVec 69) : Except Reject Instr :=
  match f with
  | .binary32 =>
    whenClear (b.extractLsb' 37 32 == 0)
      (.ok (if b.getLsbD 36 then .loadCfg (b.extractLsb' 32 4) ((b.extractLsb' 0 32).setWidth 64)
        else .readCsr (b.extractLsb' 32 4)))
  | .binary64 =>
    .ok (if b.getLsbD 68 then .loadCfg (b.extractLsb' 64 4) (b.extractLsb' 0 64)
      else .readCsr (b.extractLsb' 64 4))

/-- Decode an IN beat: `eos`, `left`, `right` (30_encoding.md R92 to R94). -/
def decodeIn (b : BitVec 65) : Instr :=
  if b.getLsbD 64 then .endStream else .pushFrame (b.extractLsb' 32 32) (b.extractLsb' 0 32)

/-- The operation a beat carries, for an instance of the number format `f`. -/
def decode (f : AccFmt) : Beat → Except Reject Instr
  | .pin rst => if rst then .ok .reset else .error .noTransfer
  | .cfg bits => decodeCfg f bits
  | .inp bits => .ok (decodeIn bits)
  | .out ready err => if err then .ok .popFail else if ready then .ok .popWord else .error .noTransfer
  | .opid r => decodeRecord r

/-! ### The encoder -/

/-- The OPID of each operation (30_encoding.md R110). -/
def opidOf : Instr → BitVec 5
  | .reset => 0b00000
  | .loadCfg _ _ => 0b00001
  | .readCsr _ => 0b00010
  | .pushFrame _ _ => 0b00011
  | .endStream => 0b00100
  | .popWord => 0b00101
  | .popFail => 0b00110
  | .sanitize _ => 0b01000
  | .interp _ => 0b01001
  | .scale _ _ => 0b01010
  | .integrate _ _ => 0b01011
  | .panicCheck _ => 0b01100
  | .clamp _ => 0b01101
  | .quantize _ => 0b01110
  | .packBit _ _ => 0b01111
  | .closeHalf => 0b10000
  | .emitGroup => 0b10001
  | .modulate _ _ => 0b10010
  | .step => 0b10011
  | .transition => 0b10100
  | .closeBatch => 0b11000
  | .claim _ => 0b11001
  | .processFrame => 0b11010
  | .processDone => 0b11011
  | .writeDone => 0b11100
  | .release => 0b11101
  | .finish => 0b11110
  | .abort => 0b11111

/-- The small operand of the trace record (log 4). -/
def smallOperand : Instr → BitVec 8
  | .loadCfg idx _ => idx.setWidth 8
  | .readCsr idx => idx.setWidth 8
  | .interp ch => channelCode ch
  | .scale ch _ => channelCode ch
  | .integrate ch _ => channelCode ch
  | .panicCheck ch => channelCode ch
  | .clamp ch => channelCode ch
  | .quantize ch => channelCode ch
  | .packBit ch _ => channelCode ch
  | .modulate ch _ => channelCode ch
  | _ => 0

/-- The large operand of the trace record (log 4). -/
def largeOperand : Instr → BitVec 64
  | .loadCfg _ data => data
  | .pushFrame l r => l ++ r
  | .sanitize x => x.setWidth 64
  | .scale _ x => x
  | .integrate _ scaled => scaled
  | .packBit _ b => if b then 1 else 0
  | .modulate _ x => x
  | .claim k => BitVec.ofNat 64 k
  | _ => 0

/-- The trace record of an operation, port operations included (30_encoding.md R110, log 4). -/
def encodeRecord (i : Instr) : BitVec 80 := largeOperand i ++ smallOperand i ++ (0 : BitVec 3) ++ opidOf i

/-- A CFG beat (30_encoding.md R95). -/
def encodeCfg (f : AccFmt) (wr : Bool) (idx : BitVec 4) (data : BitVec 64) : BitVec 69 :=
  match f with
  | .binary32 => (BitVec.ofBool wr ++ idx ++ data.setWidth 32).setWidth 69
  | .binary64 => BitVec.ofBool wr ++ idx ++ data

/-- The beat an operation travels in: a port beat for a port transaction, its trace record for an internal operation. The
ignored bits of READ_CSR and END_STREAM are canonically zero (30_encoding.md R94, R95). -/
def encode (f : AccFmt) : Instr → Beat
  | .reset => .pin true
  | .loadCfg idx data => .cfg (encodeCfg f true idx data)
  | .readCsr idx => .cfg (encodeCfg f false idx 0)
  | .pushFrame l r => .inp ((0 : BitVec 1) ++ l ++ r)
  | .endStream => .inp ((1 : BitVec 1) ++ (0 : BitVec 64))
  | .popWord => .out true false
  | .popFail => .out false true
  | i => .opid (encodeRecord i)

/-! ### The words of spec/opcode_table.json -/

/-- The beat that the table's word `w` of `nbits` bits stands for (log 5): up to 8 bits, the `rst` pin (the word 1) or an
OPID with its operand fields 0; up to 32 bits, an output word, which SINK takes; up to 40 bits, a CFG beat of W = 32; above,
an IN beat. -/
def tableBeat (nbits w : Nat) : Beat :=
  if nbits ≤ 8 then (if w = 1 then .pin true else .opid (BitVec.ofNat 80 w))
  else if nbits ≤ 32 then .out true false
  else if nbits ≤ 40 then .cfg (BitVec.ofNat 69 w)
  else .inp (BitVec.ofNat 65 w)

/-- The operation the decoder reads from the table's word `w` of `nbits` bits (log 5). -/
def decodeTableWord (nbits w : Nat) : Option Instr :=
  match decode .binary32 (tableBeat nbits w) with
  | .ok i => some i
  | .error _ => none

end Sys2Proof
end

