-- ==== Sys2Proof/Machine/State.lean ====
section
/-!
DEFINITION. The state of the block as plain data (10_state.md R20), the reasons a step can stop, and the state RESET
leaves (10_state.md R55).
-/

namespace Sys2Proof.Machine

/-! ### The datapath -/

/-- The registers of one channel: five accumulators and the feedback value of its modulator, the previous Frame's sample
and the one in work, and the packer's shift register (10_state.md R21, R22, R24, R25, R26). -/
structure Lane where
  s0 : Acc
  s1 : Acc
  s2 : Acc
  s3 : Acc
  s4 : Acc
  q : Quant
  cur : Sample
  nxt : Sample
  sh : OutWord
deriving DecidableEq, Repr

/-- The datapath state DP, one copy (10_state.md R20 (a), R29). `inTransition` is the model's own (log 6): a transition is in
work, which PROCESS_FRAME starts by loading `nxt` and which ends when `nxt` becomes `cur` (10_state.md R25, R57). -/
structure Datapath where
  left : Lane
  right : Lane
  haveCur : Bool
  inTransition : Bool
  i : BitVec 6
  wg : WordGroup
deriving DecidableEq, Repr

/-- The configuration registers (10_state.md R40): idx 0, 1 to 4, 5 and 6. -/
structure CfgRegs where
  gain : Acc
  c1 : Acc
  c2 : Acc
  c3 : Acc
  c4 : Acc
  limit : Acc
  policy : BitVec 32
deriving DecidableEq, Repr

/-! ### The slot pool, the block's only memory -/

/-- A slot's state (10_state.md R36, 30_encoding.md R106). -/
inductive SlotState where
  | empty
  | filled
  | processed
  | emitted
deriving DecidableEq, Repr

/-- One slot (10_state.md R52). `frames` and `groups` list the elements that hold a value, by rising element index; an
element not listed holds none, and reading it faults (10_state.md R57, log 9). -/
structure Slot where
  state : SlotState
  nFrames : Nat
  frames : List (Nat × Frame)
  nGroups : Nat
  groups : List (Nat × WordGroup)
deriving DecidableEq, Repr

/-- A slot as RESET leaves it (10_state.md R55): Empty, both counts 0, no element holding a value. It is what a slot index
the pool does not list reads as. -/
def Slot.blank : Slot where
  state := .empty
  nFrames := 0
  frames := []
  nGroups := 0
  groups := []

/-- The slot pool (20_memory.md R62): slots by slot index, in canonical form (`Memory.wf`). -/
abbrev Memory := List (Nat × Slot)

/-! ### Lifecycle, events, results -/

/-- The lifecycle register PHASE (10_state.md R34). -/
inductive Phase where
  | idle
  | run
  | drain
  | done
  | aborted
deriving DecidableEq, Repr

/-- The events of 60_exceptions.md R250, with the information their operations raise them with. NUMERICAL_OVERLOAD is never
surfaced (R257): it stands on no wire, and `Machine.overloads` in Events.lean says which operations raise it. -/
inductive Event where
  | endOfStream
  | outputFailure (emitSeq emitIdx : Nat)
  | configError (idx : BitVec 4)
  /-- NUMERICAL_OVERLOAD. The spec gives it no information; that it carries the channel is the model's choice
  (DESIGN CHOICE, log 32). -/
  | numericalOverload (ch : Channel)
  | nonfiniteInput (ch : Option Channel) (x : Sample)
deriving DecidableEq, Repr

/-- The result wire of the operation run last (log 10). -/
inductive OpResult where
  | none
  /-- INTERP's x, SCALE's scaled. -/
  | acc (v : Acc)
  /-- The bit of QUANTIZE and MODULATE. -/
  | bit (b : Bool)
  /-- SANITIZE's y. -/
  | sample (y : Sample)
  /-- `cfg_rdata` of READ_CSR (30_encoding.md R91). -/
  | csr (v : BitVec 64)
  /-- The word POP_WORD delivers (30_encoding.md R97). -/
  | word (w : OutWord)
deriving DecidableEq, Repr

/-! ### Reasons a step stops -/

/-- The machine stops with a fault. Every one of them stands for something the spec says a model must not compute, so each
is safe: a claim may become unprovable, no false one provable. -/
inductive Fault where
  /-- A NaN or an infinity is an operand of the datapath arithmetic (40_modulator.md R125, U3). Raised by INTERP, SCALE,
  INTEGRATE, PANIC_CHECK, CLAMP, QUANTIZE and what is made of them. Safe. -/
  | nonFiniteOperand
  /-- `nxt` is read outside a transition (93_implementation_defined.md U7, 10_state.md R25, R57), whatever it holds. Raised by
  INTERP, STEP and TRANSITION put forward by themselves. Safe. -/
  | nxtOutsideTransition
  /-- An element of `frames` or `groups` that holds no value is read (10_state.md R57, U7). Raised by PROCESS_FRAME and
  POP_WORD. Safe. -/
  | slotDataUnwritten
  /-- EMIT_GROUP finds `n_groups` at BATCH_CAP: there is no element to write (42_bit_packer.md R176). Safe. -/
  | noGroupElement
deriving DecidableEq, Repr

/-- No meaning for what was put forward. Each is safe. -/
inductive Refusal where
  /-- An operation without a meaning in this model: none. Raised by nobody. Safe. -/
  | notModelled (mnemonic : String)
  /-- The OPID names no operation (30_encoding.md R111, U11). Raised by `step`. Safe. -/
  | reservedOpid
  /-- A beat or record with a bit set that carries nothing, or an operand field out of range (log 4). Raised by `step`.
  Safe. -/
  | badEncoding
  /-- CLAIM by a Compute role outside 0..N_COMPUTE-1 (30_encoding.md R110, log 15). Raised by CLAIM. Safe. -/
  | noSuchComputeRole
deriving DecidableEq, Repr

/-! ### State -/

/-- The state of the block (10_state.md R20), the build-time parameters it was built with (log 2), and the model's own
fields: the schedule (log 1), the two streams (log 11), the result and event wires (log 10), the counter of free values
(log 8). -/
structure State where
  par : Params
  dp : Datapath
  cfg : CfgRegs
  phase : Phase
  eosSeen : Bool
  outFailed : Bool
  nonfiniteSeen : Bool
  cfgFallback : Bool
  slots : Memory
  fillSeq : Nat
  procSeq : Nat
  emitSeq : Nat
  fillCnt : Nat
  procIdx : Nat
  emitIdx : Nat
  dpOwner : Option Nat
  nFramesIn : Nat
  nWordsOut : Nat
  inStream : List Frame
  outStream : List OutWord
  ret : OpResult
  raised : List Event
  freeCount : Nat
  script : List Beat
deriving DecidableEq, Repr

/-! ### Reset values (10_state.md R55) -/

/-- A channel after RESET. `nxt` is unspecified there; the model's value is +0.0 (log 6). -/
def Lane.reset (q : Quant) : Lane where
  s0 := 0
  s1 := 0
  s2 := 0
  s3 := 0
  s4 := 0
  q := q
  cur := 0
  nxt := 0
  sh := 0

/-- The datapath after RESET. -/
def Datapath.reset (q : Quant) : Datapath where
  left := Lane.reset q
  right := Lane.reset q
  haveCur := false
  inTransition := false
  i := 0
  wg := ⟨0, 0, 0, 0⟩

/-- The configuration registers after RESET: the canonical preset with GAIN = 0.5 (10_state.md R40). -/
def CfgRegs.reset (f : AccFmt) : CfgRegs where
  gain := presetHalf f
  c1 := presetHalf f
  c2 := presetQuarter f
  c3 := presetEighth f
  c4 := presetSixteenth f
  limit := presetLimit f
  policy := 0

/-- The state after RESET of an instance built with the parameters `p` (10_state.md R55), with nothing put forward by any
agent. -/
def State.resetOf (p : Params) : State where
  par := p
  dp := Datapath.reset p.qReset
  cfg := CfgRegs.reset p.accFmt
  phase := .idle
  eosSeen := false
  outFailed := false
  nonfiniteSeen := false
  cfgFallback := false
  slots := []
  fillSeq := 0
  procSeq := 0
  emitSeq := 0
  fillCnt := 0
  procIdx := 0
  emitIdx := 0
  dpOwner := none
  nFramesIn := 0
  nWordsOut := 0
  inStream := []
  outStream := []
  ret := .none
  raised := []
  freeCount := 0
  script := []

/-- The machine right after reset, built with the default parameters of 00_scope.md R8 (log 2). -/
def State.reset : State := State.resetOf Params.default

end Sys2Proof.Machine
end

