-- ==== Sys2Proof/Machine/Memory.lean ====
section
/-!
DEFINITION. The slot pool as a memory (20_memory.md R62): sparse lists by index in one canonical form, for the elements of a
slot and for the slots of the pool.
-/

namespace Sys2Proof.Machine

/-! ### A list of (index, value) pairs, indices strictly rising -/

/-- The value at index `k`, if the list holds one. -/
def cellGet {α : Type} (k : Nat) : List (Nat × α) → Option α
  | [] => none
  | (j, v) :: rest => if j = k then some v else if k < j then none else cellGet k rest

/-- Put `v` at index `k`, keeping the order. -/
def cellPut {α : Type} (k : Nat) (v : α) : List (Nat × α) → List (Nat × α)
  | [] => [(k, v)]
  | (j, w) :: rest =>
    if j = k then (k, v) :: rest
    else if k < j then (k, v) :: (j, w) :: rest
    else (j, w) :: cellPut k v rest

/-- Take the entry at index `k` out. -/
def cellDrop {α : Type} (k : Nat) : List (Nat × α) → List (Nat × α)
  | [] => []
  | (j, w) :: rest => if j = k then rest else if k < j then (j, w) :: rest else (j, w) :: cellDrop k rest

/-- Every index in the list is above `b`, and they rise strictly. -/
def cellsRiseFrom {α : Type} : Nat → List (Nat × α) → Bool
  | _, [] => true
  | b, (j, _) :: rest => decide (b ≤ j) && cellsRiseFrom (j + 1) rest

/-- The indices rise strictly. -/
def cellsRise {α : Type} (l : List (Nat × α)) : Bool := cellsRiseFrom 0 l

/-- The same cells in canonical form: below `cap` only, one entry an index, in rising order. -/
def cellsWithin {α : Type} (cap : Nat) : List (Nat × α) → List (Nat × α)
  | [] => []
  | (k, v) :: rest => if k < cap then cellPut k v (cellsWithin cap rest) else cellsWithin cap rest

/-! ### The pool -/

/-- Read slot `j`: a slot the pool does not list is as RESET leaves it (10_state.md R55). -/
def Memory.read (m : Memory) (j : Nat) : Slot :=
  match cellGet j m with
  | some v => v
  | none => Slot.blank

/-- Write slot `j`, keeping the canonical form. -/
def Memory.write (m : Memory) (j : Nat) (v : Slot) : Memory :=
  if v = Slot.blank then cellDrop j m else cellPut j v m

/-- The elements of a slot are in canonical form. -/
def Slot.wf (v : Slot) : Bool := cellsRise v.frames && cellsRise v.groups

/-- The canonical form of the pool: indices strictly rising, no entry equal to what an unlisted slot reads as, and every
slot's elements in canonical form. -/
def Memory.wf (m : Memory) : Bool := cellsRise m && m.all (fun e => decide (e.2 ≠ Slot.blank) && e.2.wf)

/-! ### Elements of a slot (43_pipeline_coordinator.md R228) -/

/-- `frames[n]`, if it holds a value. -/
def Slot.frame (v : Slot) (n : Nat) : Option Frame := cellGet n v.frames

/-- `frames[n] <- x`. -/
def Slot.putFrame (v : Slot) (n : Nat) (x : Frame) : Slot := { v with frames := cellPut n x v.frames }

/-- `groups[n]`, if it holds a value. -/
def Slot.group (v : Slot) (n : Nat) : Option WordGroup := cellGet n v.groups

/-- `groups[n] <- x`. -/
def Slot.putGroup (v : Slot) (n : Nat) (x : WordGroup) : Slot := { v with groups := cellPut n x v.groups }

end Sys2Proof.Machine
end

