-- ==== Sys2Proof/Machine/Float.lean ====
section
/-!
DEFINITION. The arithmetic of the datapath (00_scope.md R11, 40_modulator.md R121 to R125): IEEE 754 addition, subtraction,
multiplication and comparison in ACC_FMT, each exact on integers and rounded once, to nearest with ties to even, with gradual
underflow. Every finite value is an integer number of *units*, one unit being the smallest subnormal of the format. What the
spec says of IEEE 754 is its general knowledge (GK1, GK2; log 19).
-/

namespace Sys2Proof.Machine

/-! ### Formats (30_encoding.md R101) -/

/-- Fraction bits. -/
def fracBits : AccFmt → Nat
  | .binary32 => 23
  | .binary64 => 52

/-- Exponent bits. -/
def expBits : AccFmt → Nat
  | .binary32 => 8
  | .binary64 => 11

/-- The value 1.0 is 2 to this power units: bias - 1 + fraction bits. -/
def unitScale : AccFmt → Nat
  | .binary32 => 149
  | .binary64 => 1074

/-- The magnitude field (exponent and fraction together) of an infinity; every larger one is a NaN. -/
def infMag (f : AccFmt) : Nat := (2 ^ expBits f - 1) * 2 ^ fracBits f

/-- The sign bit, bit W-1. -/
def signOf (f : AccFmt) (v : Acc) : Bool := v.getLsbD (f.width - 1)

/-- The exponent and fraction fields as one number, bits W-2 to 0. -/
def magOf (f : AccFmt) (v : Acc) : Nat := v.toNat % 2 ^ (f.width - 1)

/-- A pattern from its sign and magnitude field. -/
def packSign (f : AccFmt) (sign : Bool) (mag : Nat) : Acc :=
  BitVec.ofNat 64 ((if sign then 2 ^ (f.width - 1) else 0) + mag)

/-- The exponent field is not all ones. -/
def isFinite (f : AccFmt) (v : Acc) : Bool := decide (magOf f v < infMag f)

/-- A NaN: exponent all ones, fraction not 0. -/
def isNaN (f : AccFmt) (v : Acc) : Bool := decide (infMag f < magOf f v)

/-- `isfinite32` of 00_scope.md R11. -/
def isFinite32 (x : Sample) : Bool := decide (x.extractLsb' 23 8 ≠ 0xFF)

/-! ### Exact values -/

/-- The units a magnitude field stands for: subnormals and the lowest binade as they are, then doubling every binade. -/
def unitsOfMag (f : AccFmt) (m : Nat) : Nat :=
  if m < 2 ^ fracBits f then m
  else (2 ^ fracBits f + m % 2 ^ fracBits f) * 2 ^ (m / 2 ^ fracBits f - 1)

/-- The absolute value in units. -/
def unitsOf (f : AccFmt) (v : Acc) : Nat := unitsOfMag f (magOf f v)

/-- The value in units, signed; the two zeros give 0. -/
def valueOf (f : AccFmt) (v : Acc) : Int := if signOf f v then -(unitsOf f v : Int) else (unitsOf f v : Int)

/-! ### Rounding (40_modulator.md R121) -/

/-- `n / 2^j` rounded to the nearest integer, ties to even. -/
def roundShift (n j : Nat) : Nat :=
  if 2 ^ j < 2 * (n % 2 ^ j) ∨ (2 * (n % 2 ^ j) = 2 ^ j ∧ n / 2 ^ j % 2 = 1) then n / 2 ^ j + 1 else n / 2 ^ j

/-- How many of the low bits of `n / 2^k` units lie below the last fraction bit. -/
def binadeOf (f : AccFmt) (n k : Nat) : Nat := Nat.log2 (n / 2 ^ k) - fracBits f

/-- The magnitude field nearest to `n / 2^k` units, ties to even; past the largest finite value, an infinity. -/
def roundMag (f : AccFmt) (n k : Nat) : Nat :=
  min (binadeOf f n k * 2 ^ fracBits f + roundShift n (k + binadeOf f n k)) (infMag f)

/-! ### Operations on finite patterns -/

/-- `-a`: the sign bit flipped. -/
def negAcc (f : AccFmt) (a : Acc) : Acc := packSign f (!signOf f a) (magOf f a)

/-- `fabs(a)`: the sign bit cleared (00_scope.md R11). -/
def absAcc (f : AccFmt) (a : Acc) : Acc := packSign f false (magOf f a)

/-- `fneg(LIMIT)`: the sign bit set (40_modulator.md R133). -/
def setSign (f : AccFmt) (a : Acc) : Acc := packSign f true (magOf f a)

/-- The sign of a sum: of the exact sum, or for an exact zero + unless both operands are negative
(40_modulator.md R125 (b)). -/
def sumSign (f : AccFmt) (a b : Acc) : Bool :=
  if valueOf f a + valueOf f b = 0 then signOf f a && signOf f b else decide (valueOf f a + valueOf f b < 0)

/-- The correctly rounded sum of two finite patterns. -/
def addAcc (f : AccFmt) (a b : Acc) : Acc :=
  packSign f (sumSign f a b) (roundMag f (valueOf f a + valueOf f b).natAbs 0)

/-- The correctly rounded product of two finite patterns. -/
def mulAcc (f : AccFmt) (a b : Acc) : Acc :=
  packSign f (signOf f a != signOf f b) (roundMag f (unitsOf f a * unitsOf f b) (unitScale f))

/-- The pattern of the rational `n / 2^j`, rounded (exact for every use in the spec: 30_encoding.md R102, 40_modulator.md
R131). -/
def ratioAcc (f : AccFmt) (n j : Nat) : Acc := packSign f false (roundMag f (n * 2 ^ unitScale f) j)

/-! ### The primitives of 00_scope.md R11, which fault on a NaN or an infinity (40_modulator.md R125 (a), U3) -/

/-- `v`, provided it is finite. -/
def needFinite (f : AccFmt) (v : Acc) : Except Fault Acc :=
  if isFinite f v then .ok v else .error .nonFiniteOperand

/-- `fadd(a, b)`. -/
def fadd (f : AccFmt) (a b : Acc) : Except Fault Acc :=
  if isFinite f a && isFinite f b then .ok (addAcc f a b) else .error .nonFiniteOperand

/-- `fsub(a, b)`. -/
def fsub (f : AccFmt) (a b : Acc) : Except Fault Acc :=
  if isFinite f a && isFinite f b then .ok (addAcc f a (negAcc f b)) else .error .nonFiniteOperand

/-- `fmul(a, b)`. -/
def fmul (f : AccFmt) (a b : Acc) : Except Fault Acc :=
  if isFinite f a && isFinite f b then .ok (mulAcc f a b) else .error .nonFiniteOperand

/-- `fgt(a, b)`: a quiet comparison, false when either operand is NaN (00_scope.md R11). -/
def fgt (f : AccFmt) (a b : Acc) : Bool := !isNaN f a && !isNaN f b && decide (valueOf f b < valueOf f a)

/-- `flt(a, b)`. -/
def flt (f : AccFmt) (a b : Acc) : Bool := !isNaN f a && !isNaN f b && decide (valueOf f a < valueOf f b)

/-- `fge(a, b)`. -/
def fge (f : AccFmt) (a b : Acc) : Bool := !isNaN f a && !isNaN f b && decide (valueOf f b ≤ valueOf f a)

/-! ### Conversions -/

/-- `cvt(x)`: a finite binary32 pattern in ACC_FMT, exactly (40_modulator.md R122). -/
def cvt (f : AccFmt) (x : Sample) : Acc :=
  match f with
  | .binary32 => x.setWidth 64
  | .binary64 =>
    packSign .binary64 (signOf .binary32 (x.setWidth 64))
      (roundMag .binary64 (unitsOf .binary32 (x.setWidth 64) * 2 ^ (unitScale .binary64 - unitScale .binary32)) 0)

/-- `cvtint(n)`: the ACC_FMT value equal to the integer n (40_modulator.md R131). -/
def cvtInt (f : AccFmt) (n : Nat) : Acc := ratioAcc f n 0

/-- The weight `w = i/64` (30_encoding.md R102). -/
def weight (f : AccFmt) (i : BitVec 6) : Acc := ratioAcc f i.toNat 6

/-- `q[ch]` as an ACC_FMT value: -1.0, +0.0 or +1.0 (10_state.md R22). -/
def quantAcc (f : AccFmt) : Quant → Acc
  | .minus => setSign f (presetOne f)
  | .zero => 0
  | .plus => presetOne f

end Sys2Proof.Machine
end

