-- ==== Sys2Proof/Machine/Operands.lean ====
section
/-!
DEFINITION. How operands are formed and selected: channels, halves and positions, slot indices, words of a group, fields of
POLICY, and the legal values of the configuration registers (30_encoding.md R102 to R105, 10_state.md R40 to R48).
-/

namespace Sys2Proof.Machine

/-! ### Channels (10_state.md R21) -/

/-- The registers of channel `ch`. -/
def Datapath.lane (dp : Datapath) : Channel → Lane
  | .left => dp.left
  | .right => dp.right

/-- Replace the registers of channel `ch`. -/
def Datapath.setLane (dp : Datapath) (ch : Channel) (l : Lane) : Datapath :=
  match ch with
  | .left => { dp with left := l }
  | .right => { dp with right := l }

/-- The five accumulators of a channel, s[ch][0] to s[ch][4]. -/
def Lane.accs (l : Lane) : List Acc := [l.s0, l.s1, l.s2, l.s3, l.s4]

/-! ### The step index (30_encoding.md R104) -/

/-- `h = i div 32 = i[5]`: false for half 0, true for half 1. -/
def halfOf (i : BitVec 6) : Bool := i.getLsbD 5

/-- `j = i mod 32 = i[4:0]`. -/
def posOf (i : BitVec 6) : BitVec 5 := i.extractLsb' 0 5

/-! ### Slots and words (30_encoding.md R105) -/

/-- The slot that holds Batch number `n` (20_memory.md R62). -/
def slotIndex (p : Params) (n : Nat) : Nat := n % p.nSlots

/-- Word `k mod 4` of a group. -/
def groupWord (g : WordGroup) (k : Nat) : OutWord :=
  match k % 4 with
  | 0 => g.w0
  | 1 => g.w1
  | 2 => g.w2
  | _ => g.w3

/-- A sequence counter as a counter of SEQW bits shows it (00_scope.md R8, U17, log 17). -/
def seqView (p : Params) (n : Nat) : Nat :=
  match p.seqw with
  | none => n
  | some w => n % 2 ^ w

/-! ### Configuration values (10_state.md R40, 44_system.md R233) -/

/-- CLAMP_POLICY, bits 1:0 of POLICY (10_state.md R45). -/
def clampPolicy (policy : BitVec 32) : BitVec 2 := policy.extractLsb' 0 2

/-- PANIC_MULT, bits 15:8 of POLICY (10_state.md R45). -/
def panicMult (policy : BitVec 32) : BitVec 8 := policy.extractLsb' 8 8

/-- The W bits of configuration data (10_state.md R40). -/
def dataBits (f : AccFmt) (data : BitVec 64) : Acc := BitVec.ofNat 64 (data.toNat % 2 ^ f.width)

/-- `legal_gain(v)`: finite and `fabs(v) <= 1.0`. -/
def legalGain (f : AccFmt) (v : Acc) : Bool := isFinite f v && fge f (presetOne f) (absAcc f v)

/-- `legal_coef(v)`: finite and `+0.0 <= v <= 1.0`; -0.0 is legal. -/
def legalCoef (f : AccFmt) (v : Acc) : Bool := isFinite f v && fge f v 0 && fge f (presetOne f) v

/-- `legal_limit(v)`: finite and `1.0 <= v <= 65536.0`. -/
def legalLimit (f : AccFmt) (v : Acc) : Bool := isFinite f v && fge f v (presetOne f) && fge f (limitMax f) v

/-- `legal_policy(d)`: `d[1:0]` = 0 and `d[15:8]` != 1 (30_encoding.md R113, R114). -/
def legalPolicy (d : BitVec 64) : Bool := d.extractLsb' 0 2 == 0 && d.extractLsb' 8 8 != 1

/-- POLICY with `d[15:8]` and `d[1:0]` in their fields, other bits 0 (44_system.md R233). -/
def policyBits (d : BitVec 64) : BitVec 32 :=
  (0 : BitVec 16) ++ d.extractLsb' 8 8 ++ (0 : BitVec 6) ++ d.extractLsb' 0 2

end Sys2Proof.Machine
end

