-- ==== Sys2Proof/Machine/Flags.lean ====
section
/-!
DEFINITION. The status flags as software sees them (10_state.md R34, R35, R46), the guards of the operations
(43_pipeline_coordinator.md R193), the port signals (R194, 44_system.md R233, R236), and the event codes (60_exceptions.md
R250). There are no arithmetic flags (10_state.md R35).
-/

namespace Sys2Proof.Machine

/-! ### Codes (30_encoding.md R106) -/

/-- The 3-bit code of PHASE (10_state.md R34); 5, 6 and 7 are never taken. -/
def Phase.code : Phase → BitVec 3
  | .idle => 0
  | .run => 1
  | .drain => 2
  | .done => 3
  | .aborted => 4

/-- The 2-bit code of a slot state (10_state.md R36). -/
def SlotState.code : SlotState → BitVec 2
  | .empty => 0
  | .filled => 1
  | .processed => 2
  | .emitted => 3

/-- The code of an event (60_exceptions.md R250); 0, 6 and 7 are none's. -/
def Event.code : Event → BitVec 3
  | .endOfStream => 1
  | .outputFailure _ _ => 2
  | .configError _ => 3
  | .numericalOverload _ => 4
  | .nonfiniteInput _ _ => 5

/-! ### STATUS and the register map (10_state.md R40, R46) -/

/-- The STATUS register (10_state.md R46). -/
def statusWord (s : State) : BitVec 32 :=
  (0 : BitVec 24) ++ BitVec.ofBool s.cfgFallback ++ BitVec.ofBool s.nonfiniteSeen ++ BitVec.ofBool s.outFailed ++
    BitVec.ofBool s.eosSeen ++ BitVec.ofBool s.dp.haveCur ++ s.phase.code

/-- `CSR[idx]` (10_state.md R40): W bits, the higher ones 0; idx 9 to 15 read 0. -/
def csrRead (s : State) (idx : BitVec 4) : BitVec 64 :=
  match idx.toNat with
  | 0 => s.cfg.gain
  | 1 => s.cfg.c1
  | 2 => s.cfg.c2
  | 3 => s.cfg.c3
  | 4 => s.cfg.c4
  | 5 => s.cfg.limit
  | 6 => s.cfg.policy.setWidth 64
  | 7 => (statusWord s).setWidth 64
  | 8 => presetOne s.par.accFmt
  | _ => 0

/-! ### The slots the three counters name (43_pipeline_coordinator.md R193) -/

/-- `Slot[jf]`, `jf = fill_seq mod N`. -/
def fillSlot (s : State) : Slot := s.slots.read (slotIndex s.par s.fillSeq)

/-- `Slot[jp]`, `jp = proc_seq mod N`. -/
def procSlot (s : State) : Slot := s.slots.read (slotIndex s.par s.procSeq)

/-- `Slot[je]`, `je = emit_seq mod N`. -/
def emitSlot (s : State) : Slot := s.slots.read (slotIndex s.par s.emitSeq)

/-! ### Guards (43_pipeline_coordinator.md R193) -/

/-- PHASE is RUN or DRAIN. -/
def live (s : State) : Bool := s.phase == .run || s.phase == .drain

/-- The guard of PUSH_FRAME and END_STREAM: `in_ready` (R194). -/
def canTake (s : State) : Bool :=
  (s.phase == .idle || s.phase == .run) && (fillSlot s).state == .empty && decide (s.fillCnt < s.par.batchCap)

/-- The guard of CLOSE_BATCH. -/
def canClose (s : State) : Bool := live s && decide (1 ≤ s.fillCnt)

/-- The Reader must close, not only may (R200). -/
def mustClose (s : State) : Bool := canClose s && (decide (s.fillCnt = s.par.batchCap) || s.eosSeen)

/-- The guard of CLAIM. -/
def canClaim (s : State) : Bool := live s && s.dpOwner == none && (procSlot s).state == .filled

/-- The guard of PROCESS_FRAME, for the Compute role that holds the datapath. -/
def canProcess (s : State) : Bool := live s && s.dpOwner != none && decide (s.procIdx < (procSlot s).nFrames)

/-- The guard of PROCESS_DONE, for the Compute role that holds the datapath. -/
def canDone (s : State) : Bool := live s && s.dpOwner != none && decide (s.procIdx = (procSlot s).nFrames)

/-- The guard of POP_WORD and POP_FAIL: `out_valid` (R194). -/
def canOffer (s : State) : Bool :=
  live s && (emitSlot s).state == .processed && decide (s.emitIdx < 4 * (emitSlot s).nGroups)

/-- The guard of WRITE_DONE. -/
def canWriteDone (s : State) : Bool :=
  live s && (emitSlot s).state == .processed && decide (s.emitIdx = 4 * (emitSlot s).nGroups)

/-- The guard of RELEASE. -/
def canRelease (s : State) : Bool := live s && (emitSlot s).state == .emitted

/-- The guard of FINISH. -/
def canFinish (s : State) : Bool := s.phase == .drain && decide (s.fillCnt = 0) && decide (s.emitSeq = s.fillSeq)

/-- PHASE is DONE or ABORTED, which only RESET leaves (60_exceptions.md R265). -/
def ended (s : State) : Bool := s.phase == .done || s.phase == .aborted

/-- The guard of SANITIZE: in DONE and ABORTED no operation of the coordinator is enabled (R193, R218, log 13). -/
def canSanitize (s : State) : Bool := !ended s

/-- The guard of LOAD_CFG (44_system.md R233). -/
def canLoad (s : State) : Bool := s.phase == .idle

/-- The condition under which an operation is enabled (43_pipeline_coordinator.md R193, 44_system.md R230, R233, R236). The
datapath operations have no guard (43_pipeline_coordinator.md R190); ABORT has that of POP_FAIL (log 14), SANITIZE that of the
phase (log 13). -/
def enabled (s : State) : Instr → Bool
  | .reset => true
  | .loadCfg _ _ => canLoad s
  | .readCsr _ => true
  | .pushFrame _ _ => canTake s
  | .endStream => canTake s
  | .popWord => canOffer s
  | .popFail => canOffer s
  | .sanitize _ => canSanitize s
  | .interp _ => true
  | .scale _ _ => true
  | .integrate _ _ => true
  | .panicCheck _ => true
  | .clamp _ => true
  | .quantize _ => true
  | .packBit _ _ => true
  | .closeHalf => true
  | .emitGroup => true
  | .modulate _ _ => true
  | .step => true
  | .transition => true
  | .closeBatch => canClose s
  | .claim _ => canClaim s
  | .processFrame => canProcess s
  | .processDone => canDone s
  | .writeDone => canWriteDone s
  | .release => canRelease s
  | .finish => canFinish s
  | .abort => canOffer s

/-! ### Port signals that depend on the state alone (43_pipeline_coordinator.md R194) -/

/-- `in_ready`; 0 while `rst` is 1 (44_system.md R230). -/
def inReady (rst : Bool) (s : State) : Bool := !rst && canTake s

/-- `out_valid`; 0 while `rst` is 1. -/
def outValid (rst : Bool) (s : State) : Bool := !rst && canOffer s

/-- `cfg_ready` for a beat whose `wr` bit is `wr` (44_system.md R233, R236); 0 while `rst` is 1. -/
def cfgReady (rst wr : Bool) (s : State) : Bool := !rst && (!wr || canLoad s)

/-- The word the Writer would offer: word `emit_idx mod 4` of `groups[emit_idx div 4]` (43_pipeline_coordinator.md R194). -/
def offeredWord (s : State) : Option OutWord :=
  ((emitSlot s).group (s.emitIdx / 4)).map (fun g => groupWord g s.emitIdx)

/-- `out_word`: the offered word while `out_valid` is 1, and any value otherwise (U4, log 26). -/
def outWord (rst : Bool) (s : State) : OutWord :=
  if outValid rst s then (offeredWord s).getD (Config.idleOutWord s.freeCount) else Config.idleOutWord s.freeCount

end Sys2Proof.Machine
end

