-- ==== Sys2Proof/Machine/Ops.lean ====
section
/-!
DEFINITION. The operations the meanings share: the modulator, interpolator and packer on the datapath registers
(40_modulator.md, 41_interpolator.md, 42_bit_packer.md), raising an event and entering OUTPUT_FAILURE (60_exceptions.md R250,
R262), and taking the next beat of the schedule (log 1).
-/

namespace Sys2Proof.Machine

/-! ### Outcomes -/

/-- A computation on the state as an outcome of a step. -/
def ofExcept (r : Except Fault State) : Host.Outcome State Fault Refusal :=
  match r with
  | .ok s => .next s
  | .error e => .fault e

/-- Do `op` `n` times, stopping at the first fault. -/
def repeatOp {α : Type} (op : α → Except Fault α) : Nat → α → Except Fault α
  | 0, a => .ok a
  | n + 1, a =>
    match op a with
    | .ok b => repeatOp op n b
    | .error e => .error e

/-! ### The modulator (40_modulator.md) -/

/-- SCALE: `fmul(x, GAIN)` (R126). -/
def scaleValue (f : AccFmt) (cfg : CfgRegs) (x : Acc) : Except Fault Acc := fmul f x cfg.gain

/-- One later stage of INTEGRATE: `fadd(s, fsub(prev, fmul(qv, c)))` (R123, R128). -/
def integrateStage (f : AccFmt) (s prev qv c : Acc) : Except Fault Acc := do
  let p ← fmul f qv c
  let d ← fsub f prev p
  fadd f s d

/-- INTEGRATE: the five accumulations in order, each on the value the one before has just been given (R123, R128). -/
def integrateLane (f : AccFmt) (cfg : CfgRegs) (l : Lane) (scaled : Acc) : Except Fault Lane := do
  let qv := quantAcc f l.q
  let d0 ← fsub f scaled qv
  let s0 ← fadd f l.s0 d0
  let s1 ← integrateStage f l.s1 s0 qv cfg.c1
  let s2 ← integrateStage f l.s2 s1 qv cfg.c2
  let s3 ← integrateStage f l.s3 s2 qv cfg.c3
  let s4 ← integrateStage f l.s4 s3 qv cfg.c4
  .ok { l with s0 := s0, s1 := s1, s2 := s2, s3 := s3, s4 := s4 }

/-- The five accumulators set to +0.0 (R131). -/
def zeroAccs (l : Lane) : Lane := { l with s0 := 0, s1 := 0, s2 := 0, s3 := 0, s4 := 0 }

/-- PANIC_CHECK: nothing while PANIC_MULT is 0; else zero the accumulators when `abs(s4)` is above `PANIC_MULT * LIMIT`
(R131). -/
def panicLane (f : AccFmt) (cfg : CfgRegs) (l : Lane) : Except Fault Lane :=
  if panicMult cfg.policy = 0 then .ok l
  else do
    let bound ← fmul f (cvtInt f (panicMult cfg.policy).toNat) cfg.limit
    let _ ← needFinite f bound
    let s4 ← needFinite f l.s4
    .ok (if fgt f (absAcc f s4) bound then zeroAccs l else l)

/-- One accumulator clamped to [-LIMIT, +LIMIT] (R133). -/
def clampAcc (f : AccFmt) (limit v : Acc) : Except Fault Acc :=
  if isFinite f v && isFinite f limit then
    .ok (if fgt f v limit then limit else if flt f v (setSign f limit) then setSign f limit else v)
  else .error .nonFiniteOperand

/-- CLAMP: all five accumulators (R133). -/
def clampLane (f : AccFmt) (cfg : CfgRegs) (l : Lane) : Except Fault Lane := do
  let s0 ← clampAcc f cfg.limit l.s0
  let s1 ← clampAcc f cfg.limit l.s1
  let s2 ← clampAcc f cfg.limit l.s2
  let s3 ← clampAcc f cfg.limit l.s3
  let s4 ← clampAcc f cfg.limit l.s4
  .ok { l with s0 := s0, s1 := s1, s2 := s2, s3 := s3, s4 := s4 }

/-- QUANTIZE: the sign of s4 as a bit and as the next feedback value (R135, 30_encoding.md R103). -/
def quantizeLane (f : AccFmt) (l : Lane) : Except Fault (Lane × Bool) := do
  let s4 ← needFinite f l.s4
  .ok ({ l with q := if fge f s4 0 then .plus else .minus }, fge f s4 0)

/-- MODULATE: SCALE, INTEGRATE, PANIC_CHECK, CLAMP, QUANTIZE (R137). -/
def modulateLane (f : AccFmt) (cfg : CfgRegs) (l : Lane) (x : Acc) : Except Fault (Lane × Bool) := do
  let scaled ← scaleValue f cfg x
  let l1 ← integrateLane f cfg l scaled
  let l2 ← panicLane f cfg l1
  let l3 ← clampLane f cfg l2
  quantizeLane f l3

/-! ### The interpolator (41_interpolator.md) -/

/-- A sample as an ACC_FMT value; a NaN or an infinity faults (40_modulator.md R122, R125). -/
def sampleValue (f : AccFmt) (x : Sample) : Except Fault Acc :=
  if isFinite32 x then .ok (cvt f x) else .error .nonFiniteOperand

/-- `cur*(1-w) + nxt*w` with `w = i/64`, three roundings (R152). -/
def interpValue (f : AccFmt) (i : BitVec 6) (cur nxt : Sample) : Except Fault Acc := do
  let a ← fsub f (presetOne f) (weight f i)
  let c ← sampleValue f cur
  let n ← sampleValue f nxt
  let p1 ← fmul f c a
  let p2 ← fmul f n (weight f i)
  fadd f p1 p2

/-- INTERP on channel `ch` (R152); outside a transition nothing may read `nxt` (10_state.md R25, R57, U7, log 6). -/
def interpLane (f : AccFmt) (dp : Datapath) (ch : Channel) : Except Fault Acc :=
  if dp.inTransition then interpValue f dp.i (dp.lane ch).cur (dp.lane ch).nxt else .error .nxtOutsideTransition

/-! ### The packer (42_bit_packer.md) -/

/-- PACK_BIT: shift left by one, the new bit at bit 0 (R172). -/
def packLane (l : Lane) (b : Bool) : Lane := { l with sh := l.sh.extractLsb' 0 31 ++ BitVec.ofBool b }

/-- CLOSE_HALF: both shift registers into the words of half `i div 32` (R174). -/
def closeHalfDp (dp : Datapath) : Datapath :=
  if halfOf dp.i then { dp with wg := { dp.wg with w2 := dp.left.sh, w3 := dp.right.sh } }
  else { dp with wg := { dp.wg with w0 := dp.left.sh, w1 := dp.right.sh } }

/-- The slot with one more Word Group (R176). -/
def Slot.appendGroup (v : Slot) (g : WordGroup) : Slot :=
  { v.putGroup v.nGroups g with nGroups := v.nGroups + 1 }

/-- EMIT_GROUP: append `wg` to the slot at `proc_seq` (R176). -/
def emitGroupOp (s : State) : Except Fault State :=
  if (procSlot s).nGroups < s.par.batchCap then
    .ok { s with slots := s.slots.write (slotIndex s.par s.procSeq) ((procSlot s).appendGroup s.dp.wg) }
  else .error .noGroupElement

/-! ### The step sequencer (41_interpolator.md) -/

/-- STEP up to and without EMIT_GROUP: interpolate, modulate and pack both channels, and close the half after steps 31 and
63 (R156). -/
def stepDatapath (f : AccFmt) (cfg : CfgRegs) (dp : Datapath) : Except Fault Datapath := do
  let xL ← interpLane f dp .left
  let xR ← interpLane f dp .right
  let (l, bL) ← modulateLane f cfg dp.left xL
  let (r, bR) ← modulateLane f cfg dp.right xR
  let packed := { dp with left := packLane l bL, right := packLane r bR }
  .ok (if posOf dp.i = 31 then closeHalfDp packed else packed)

/-- `i <- (i + 1) mod 64` (10_state.md R31). -/
def advanceStep (dp : Datapath) : Datapath := { dp with i := dp.i + 1 }

/-- EMIT_GROUP after the last step of a transition, nothing after the others (R156). -/
def emitAfterStep (i : BitVec 6) (s : State) : Except Fault State := if i = 63 then emitGroupOp s else .ok s

/-- STEP (R156). -/
def stepOp (s : State) : Except Fault State := do
  let dp ← stepDatapath s.par.accFmt s.cfg s.dp
  let s1 ← emitAfterStep s.dp.i { s with dp := dp }
  .ok { s1 with dp := advanceStep s1.dp }

/-- `cur[L] <- nxt[L] ; cur[R] <- nxt[R]`, which ends the transition (R158, 10_state.md R25). -/
def takeFrame (dp : Datapath) : Datapath :=
  { dp with
    left := { dp.left with cur := dp.left.nxt }
    right := { dp.right with cur := dp.right.nxt }
    inTransition := false }

/-- TRANSITION: 64 STEPs, then `nxt` becomes `cur` (R158). -/
def transitionOp (s : State) : Except Fault State := do
  let s1 ← repeatOp stepOp 64 s
  .ok { s1 with dp := takeFrame s1.dp }

/-- `(nxt[L], nxt[R]) <- Frame`, which starts a transition (43_pipeline_coordinator.md R205, 10_state.md R57). -/
def loadFrame (dp : Datapath) (x : Frame) : Datapath :=
  { dp with left := { dp.left with nxt := x.left }, right := { dp.right with nxt := x.right }, inTransition := true }

/-- The first Frame of the stream is only stored (41_interpolator.md R155). -/
def storeFirst (dp : Datapath) : Datapath := { takeFrame dp with haveCur := true }

/-- What PROCESS_FRAME does with the loaded Frame: a TRANSITION if there is a previous one, else it is only stored
(43_pipeline_coordinator.md R205, 41_interpolator.md R155). -/
def useFrame (s : State) : Except Fault State :=
  if s.dp.haveCur then transitionOp s else .ok { s with dp := storeFirst s.dp }

/-- PROCESS_FRAME without its guard: load the Frame at `proc_idx` of the claimed slot, use it, and count it
(43_pipeline_coordinator.md R205). -/
def processFrameOp (s : State) : Except Fault State :=
  match (procSlot s).frame s.procIdx with
  | none => .error .slotDataUnwritten
  | some x => do
    let s1 ← useFrame { s with dp := loadFrame s.dp x }
    .ok { s1 with procIdx := s1.procIdx + 1 }

/-! ### Configuration (44_system.md R233) -/

/-- The data is a legal value for register `idx`; indices 7 to 15 take anything and change nothing (30_encoding.md R112). -/
def cfgLegalAt (f : AccFmt) (idx : BitVec 4) (v : Acc) : Bool :=
  match idx.toNat with
  | 0 => legalGain f v
  | 1 => legalCoef f v
  | 2 => legalCoef f v
  | 3 => legalCoef f v
  | 4 => legalCoef f v
  | 5 => legalLimit f v
  | 6 => legalPolicy v
  | _ => true

/-- The registers with legal data written to `idx`. -/
def cfgStore (idx : BitVec 4) (v : Acc) (cfg : CfgRegs) : CfgRegs :=
  match idx.toNat with
  | 0 => { cfg with gain := v }
  | 1 => { cfg with c1 := v }
  | 2 => { cfg with c2 := v }
  | 3 => { cfg with c3 := v }
  | 4 => { cfg with c4 := v }
  | 5 => { cfg with limit := v }
  | 6 => { cfg with policy := policyBits v }
  | _ => cfg

/-- The registers with register `idx` at its reset value, which illegal data writes instead (10_state.md R48). -/
def cfgFallbackAt (f : AccFmt) (idx : BitVec 4) (cfg : CfgRegs) : CfgRegs :=
  match idx.toNat with
  | 0 => { cfg with gain := presetHalf f }
  | 1 => { cfg with c1 := presetHalf f }
  | 2 => { cfg with c2 := presetQuarter f }
  | 3 => { cfg with c3 := presetEighth f }
  | 4 => { cfg with c4 := presetSixteenth f }
  | 5 => { cfg with limit := presetLimit f }
  | 6 => { cfg with policy := 0 }
  | _ => cfg

/-! ### Sanitising (43_pipeline_coordinator.md R197) -/

/-- The sample SANITIZE passes on. -/
def sanitizeValue (x : Sample) : Sample := if isFinite32 x then x else 0

/-! ### Events (60_exceptions.md) -/

/-- `raise e`: the event stands on the event wire of this operation (R250, log 10). -/
def raiseEvent (e : Event) (s : State) : State := { s with raised := s.raised ++ [e] }

/-- The record SANITIZE makes of sample `x` of channel `ch`: nothing, or the sticky flag and NONFINITE_INPUT (R258, R264). -/
def noteSample (ch : Option Channel) (x : Sample) (s : State) : State :=
  if isFinite32 x then s else raiseEvent (.nonfiniteInput ch x) { s with nonfiniteSeen := true }

/-- The record a configuration error makes: the sticky flag and CONFIG_ERROR (R256, R264). -/
def noteConfigError (idx : BitVec 4) (s : State) : State :=
  raiseEvent (.configError idx) { s with cfgFallback := true }

/-- A channel whose registers have no specified value (43_pipeline_coordinator.md R218, U5, log 8). -/
def freeLane (t b : Nat) : Lane where
  s0 := Config.freeAcc t (b + 0)
  s1 := Config.freeAcc t (b + 1)
  s2 := Config.freeAcc t (b + 2)
  s3 := Config.freeAcc t (b + 3)
  s4 := Config.freeAcc t (b + 4)
  q := Config.freeQuant t b
  cur := Config.freeWord t (b + 0)
  nxt := Config.freeWord t (b + 1)
  sh := Config.freeWord t (b + 2)

/-- A datapath whose registers have no specified value, but for `have_cur` (U5, log 8). No transition is in work any more. -/
def freeDatapath (t : Nat) (dp : Datapath) : Datapath where
  left := freeLane t 0
  right := freeLane t 5
  haveCur := dp.haveCur
  inTransition := false
  i := Config.freeStep t
  wg := ⟨Config.freeWord t 10, Config.freeWord t 11, Config.freeWord t 12, Config.freeWord t 13⟩

/-- Slot `j` with contents that have no specified value; its `state` stays (U5, 10_state.md R56 (5), log 8). -/
def freeSlot (p : Params) (t j : Nat) (v : Slot) : Slot where
  state := v.state
  nFrames := Config.freeNat t (2 * j + 1) % (p.batchCap + 1)
  frames := cellsWithin p.batchCap (Config.freeFrames t j)
  nGroups := Config.freeNat t (2 * j + 2) % (p.batchCap + 1)
  groups := cellsWithin p.batchCap (Config.freeGroups t j)

/-- Slots 0 to `n - 1` of the pool with contents that have no specified value (U5, log 8). -/
def freeSlots (p : Params) (t : Nat) : Nat → Memory → Memory
  | 0, m => m
  | n + 1, m => (freeSlots p t n m).write n (freeSlot p t n ((freeSlots p t n m).read n))

/-- Entering OUTPUT_FAILURE, which is ABORT (43_pipeline_coordinator.md R218, 60_exceptions.md R262): `out_failed` and PHASE
are written; the sequence counters, `emit_idx`, `n_words_out` and the configuration keep their values; the datapath registers,
`dp_owner`, `proc_idx` and the slots' contents have no specified value from here on (U5, log 8). There is no handler and no
return (60_exceptions.md R265). -/
def enterOutputFailure (s : State) : State :=
  { s with
    outFailed := true
    phase := .aborted
    dp := freeDatapath s.freeCount s.dp
    dpOwner := (Config.freeOwner s.freeCount).map (fun k => k % s.par.nCompute)
    procIdx := Config.freeNat s.freeCount 0 % (s.par.batchCap + 1)
    slots := freeSlots s.par s.freeCount s.par.nSlots s.slots
    freeCount := s.freeCount + 1 }

/-! ### The schedule (log 1) -/

/-- The state an operation starts from: the wires of the operation before are gone (log 10). -/
def State.quiet (s : State) : State := { s with ret := .none, raised := [] }

/-- Take the next beat of the schedule, if there is one. -/
def fetchBeat (s : State) : Option (Beat × State) :=
  match s.script with
  | [] => none
  | b :: rest => some (b, { s.quiet with script := rest })

/-- Put a beat where the next step takes it. -/
def placeBeat (s : State) (b : Beat) : State := { s with script := b :: s.script }

end Sys2Proof.Machine
end

