-- ==== Sys2Proof/Machine/Compute.lean ====
section
/-!
DEFINITION. The meanings of the Compute role's operations CLAIM, PROCESS_FRAME and PROCESS_DONE
(43_pipeline_coordinator.md).
-/

namespace Sys2Proof.Machine

/-- CLAIM k (R203): an atomic test-and-set of `dp_owner`. A role outside 0..N_COMPUTE-1 does not exist (log 15). -/
def execClaim (k : Nat) (s : State) : Host.Outcome State Fault Refusal :=
  if k < s.par.nCompute then
    if canClaim s then .next { s with dpOwner := some k, procIdx := 0 } else .next s
  else .refused .noSuchComputeRole

/-- PROCESS_FRAME (R205), by the role that holds the datapath. -/
def execProcessFrame (s : State) : Host.Outcome State Fault Refusal :=
  if canProcess s then ofExcept (processFrameOp s) else .next s

/-- PROCESS_DONE (R206), by the role that holds the datapath. -/
def execProcessDone (s : State) : Host.Outcome State Fault Refusal :=
  if canDone s then
    .next { s with
      slots := s.slots.write (slotIndex s.par s.procSeq) { procSlot s with state := .processed }
      procSeq := s.procSeq + 1
      dpOwner := none }
  else .next s

end Sys2Proof.Machine
end

