-- ==== Sys2Proof/Machine/Interpolator.lean ====
section
/-!
DEFINITION. The meanings of INTERP, STEP and TRANSITION (41_interpolator.md). None has a guard
(43_pipeline_coordinator.md R190).
-/

namespace Sys2Proof.Machine

/-- INTERP ch (R152). -/
def execInterp (ch : Channel) (s : State) : Host.Outcome State Fault Refusal :=
  ofExcept ((interpLane s.par.accFmt s.dp ch).map (fun v => { s with ret := .acc v }))

/-- STEP (R156). -/
def execStep (s : State) : Host.Outcome State Fault Refusal := ofExcept (stepOp s)

/-- TRANSITION (R158). -/
def execTransition (s : State) : Host.Outcome State Fault Refusal := ofExcept (transitionOp s)

end Sys2Proof.Machine
end

