-- ==== Sys2Proof/Machine/Modulator.lean ====
section
/-!
DEFINITION. The meanings of the modulator's operations SCALE, INTEGRATE, PANIC_CHECK, CLAMP, QUANTIZE and MODULATE
(40_modulator.md). None has a guard (43_pipeline_coordinator.md R190).
-/

namespace Sys2Proof.Machine

/-- SCALE ch, x (R126): the wire `scaled[ch]`, the same for both channels, since there is one GAIN (10_state.md R23). -/
def execScale (_ch : Channel) (x : Acc) (s : State) : Host.Outcome State Fault Refusal :=
  ofExcept ((scaleValue s.par.accFmt s.cfg x).map (fun v => { s with ret := .acc v }))

/-- INTEGRATE ch, scaled (R128). -/
def execIntegrate (ch : Channel) (scaled : Acc) (s : State) : Host.Outcome State Fault Refusal :=
  ofExcept ((integrateLane s.par.accFmt s.cfg (s.dp.lane ch) scaled).map (fun l => { s with dp := s.dp.setLane ch l }))

/-- PANIC_CHECK ch (R131). -/
def execPanicCheck (ch : Channel) (s : State) : Host.Outcome State Fault Refusal :=
  ofExcept ((panicLane s.par.accFmt s.cfg (s.dp.lane ch)).map (fun l => { s with dp := s.dp.setLane ch l }))

/-- CLAMP ch (R133). -/
def execClamp (ch : Channel) (s : State) : Host.Outcome State Fault Refusal :=
  ofExcept ((clampLane s.par.accFmt s.cfg (s.dp.lane ch)).map (fun l => { s with dp := s.dp.setLane ch l }))

/-- QUANTIZE ch (R135). -/
def execQuantize (ch : Channel) (s : State) : Host.Outcome State Fault Refusal :=
  ofExcept ((quantizeLane s.par.accFmt (s.dp.lane ch)).map
    (fun r => { s with dp := s.dp.setLane ch r.1, ret := .bit r.2 }))

/-- MODULATE ch, x (R137). -/
def execModulate (ch : Channel) (x : Acc) (s : State) : Host.Outcome State Fault Refusal :=
  ofExcept ((modulateLane s.par.accFmt s.cfg (s.dp.lane ch) x).map
    (fun r => { s with dp := s.dp.setLane ch r.1, ret := .bit r.2 }))

end Sys2Proof.Machine
end

