-- ==== Sys2Proof/Machine/Packer.lean ====
section
/-!
DEFINITION. The meanings of the bit packer's operations PACK_BIT, CLOSE_HALF and EMIT_GROUP (42_bit_packer.md). None has a
guard (43_pipeline_coordinator.md R190).
-/

namespace Sys2Proof.Machine

/-- PACK_BIT ch, b (R172). -/
def execPackBit (ch : Channel) (b : Bool) (s : State) : Host.Outcome State Fault Refusal :=
  .next { s with dp := s.dp.setLane ch (packLane (s.dp.lane ch) b) }

/-- CLOSE_HALF (R174). -/
def execCloseHalf (s : State) : Host.Outcome State Fault Refusal := .next { s with dp := closeHalfDp s.dp }

/-- EMIT_GROUP (R176). -/
def execEmitGroup (s : State) : Host.Outcome State Fault Refusal := ofExcept (emitGroupOp s)

end Sys2Proof.Machine
end

