-- ==== Sys2Proof/Machine/Reader.lean ====
section
/-!
DEFINITION. The meanings of the Reader's operations PUSH_FRAME, END_STREAM, SANITIZE and CLOSE_BATCH
(43_pipeline_coordinator.md).
-/

namespace Sys2Proof.Machine

/-- PUSH_FRAME left, right (R196): sanitise both samples, left first, put the Frame in the slot being filled, count it, and
leave IDLE. While the input port is not ready, SRC waits. -/
def execPushFrame (left right : Sample) (s : State) : Host.Outcome State Fault Refusal :=
  if canTake s then
    .next (noteSample (some .right) right (noteSample (some .left) left
      { s with
        slots := s.slots.write (slotIndex s.par s.fillSeq)
          ((fillSlot s).putFrame s.fillCnt ⟨sanitizeValue left, sanitizeValue right⟩)
        fillCnt := s.fillCnt + 1
        nFramesIn := s.nFramesIn + 1
        inStream := s.inStream ++ [⟨left, right⟩]
        phase := if s.phase = .idle then .run else s.phase }))
  else .next s

/-- END_STREAM (R198, 60_exceptions.md R263). While the input port is not ready, SRC waits. -/
def execEndStream (s : State) : Host.Outcome State Fault Refusal :=
  if canTake s then .next (raiseEvent .endOfStream { s with eosSeen := true, phase := .drain }) else .next s

/-- SANITIZE x (R197): a NaN or an infinity becomes +0.0 and sets `nonfinite_seen`. As an operation of its own it belongs to
no channel (log 27). In DONE and ABORTED it is not enabled (R193, R218). -/
def execSanitize (x : Sample) (s : State) : Host.Outcome State Fault Refusal :=
  if canSanitize s then .next { noteSample none x s with ret := .sample (sanitizeValue x) } else .next s

/-- CLOSE_BATCH (R199): hand the Batch being filled over to Compute. -/
def execCloseBatch (s : State) : Host.Outcome State Fault Refusal :=
  if canClose s then
    .next { s with
      slots := s.slots.write (slotIndex s.par s.fillSeq)
        { fillSlot s with nFrames := s.fillCnt, nGroups := 0, state := .filled }
      fillSeq := s.fillSeq + 1
      fillCnt := 0 }
  else .next s

end Sys2Proof.Machine
end

