-- ==== Sys2Proof/Machine/System.lean ====
section
/-!
DEFINITION. The meanings of the system operations RESET, LOAD_CFG and READ_CSR (44_system.md).
-/

namespace Sys2Proof.Machine

/-- RESET (44_system.md R230): every piece of state takes its value of 10_state.md R55, in any phase. The parameters the
instance was built with stay, and so does what the agents put forward next (log 2, log 1). -/
def execReset (s : State) : Host.Outcome State Fault Refusal :=
  .next { State.resetOf s.par with script := s.script, freeCount := s.freeCount }

/-- LOAD_CFG idx, data (44_system.md R233): accepted in IDLE only; illegal data writes the register's reset value, sets
`cfg_fallback` and raises CONFIG_ERROR. -/
def execLoadCfg (idx : BitVec 4) (data : BitVec 64) (s : State) : Host.Outcome State Fault Refusal :=
  if canLoad s then
    if cfgLegalAt s.par.accFmt idx (dataBits s.par.accFmt data) then
      .next { s with cfg := cfgStore idx (dataBits s.par.accFmt data) s.cfg }
    else .next (noteConfigError idx { s with cfg := cfgFallbackAt s.par.accFmt idx s.cfg })
  else .next s

/-- READ_CSR idx (44_system.md R236): accepted in every phase; changes no state. -/
def execReadCsr (idx : BitVec 4) (s : State) : Host.Outcome State Fault Refusal :=
  .next { s with ret := .csr (csrRead s idx) }

end Sys2Proof.Machine
end

