-- ==== Sys2Proof/Machine/Writer.lean ====
section
/-!
DEFINITION. The meanings of the Writer's and SINK's operations POP_WORD, POP_FAIL, WRITE_DONE, RELEASE, FINISH and ABORT
(43_pipeline_coordinator.md).
-/

namespace Sys2Proof.Machine

/-- POP_WORD (R212): the offered word is appended to the output stream. -/
def execPopWord (s : State) : Host.Outcome State Fault Refusal :=
  if canOffer s then
    match offeredWord s with
    | some w =>
      .next { s with
        outStream := s.outStream ++ [w]
        emitIdx := s.emitIdx + 1
        nWordsOut := s.nWordsOut + 1
        ret := .word w }
    | none => .fault .slotDataUnwritten
  else .next s

/-- POP_FAIL (R213): OUTPUT_FAILURE with the position of the word that failed, then ABORT. Without an offered word `out_err`
is ignored (30_encoding.md R99). -/
def execPopFail (s : State) : Host.Outcome State Fault Refusal :=
  if canOffer s then .next (enterOutputFailure (raiseEvent (.outputFailure s.emitSeq s.emitIdx) s)) else .next s

/-- WRITE_DONE (R214). -/
def execWriteDone (s : State) : Host.Outcome State Fault Refusal :=
  if canWriteDone s then
    .next { s with slots := s.slots.write (slotIndex s.par s.emitSeq) { emitSlot s with state := .emitted } }
  else .next s

/-- RELEASE (R215): the slot's contents stay as they are, and dead. -/
def execRelease (s : State) : Host.Outcome State Fault Refusal :=
  if canRelease s then
    .next { s with
      slots := s.slots.write (slotIndex s.par s.emitSeq) { emitSlot s with state := .empty }
      emitSeq := s.emitSeq + 1
      emitIdx := 0 }
  else .next s

/-- FINISH (R217). -/
def execFinish (s : State) : Host.Outcome State Fault Refusal :=
  if canFinish s then .next { s with phase := .done } else .next s

/-- ABORT (R218), the second half of POP_FAIL and enabled with it (log 14). -/
def execAbort (s : State) : Host.Outcome State Fault Refusal :=
  if canOffer s then .next (enterOutputFailure s) else .next s

end Sys2Proof.Machine
end

