-- ==== Sys2Proof/Machine/Dispatch.lean ====
section
/-!
DEFINITION. One arm per operation of spec/opcode_table.json, in the table's order.
-/

namespace Sys2Proof.Machine

/-- The meaning of each operation. -/
def exec (i : Instr) (s : State) : Host.Outcome State Fault Refusal :=
  match i with
  | .reset => Sys2Proof.Machine.execReset s
  | .loadCfg idx data => Sys2Proof.Machine.execLoadCfg idx data s
  | .readCsr idx => Sys2Proof.Machine.execReadCsr idx s
  | .pushFrame left right => Sys2Proof.Machine.execPushFrame left right s
  | .endStream => Sys2Proof.Machine.execEndStream s
  | .popWord => Sys2Proof.Machine.execPopWord s
  | .popFail => Sys2Proof.Machine.execPopFail s
  | .sanitize x => Sys2Proof.Machine.execSanitize x s
  | .interp ch => Sys2Proof.Machine.execInterp ch s
  | .scale ch x => Sys2Proof.Machine.execScale ch x s
  | .integrate ch scaled => Sys2Proof.Machine.execIntegrate ch scaled s
  | .panicCheck ch => Sys2Proof.Machine.execPanicCheck ch s
  | .clamp ch => Sys2Proof.Machine.execClamp ch s
  | .quantize ch => Sys2Proof.Machine.execQuantize ch s
  | .packBit ch b => Sys2Proof.Machine.execPackBit ch b s
  | .closeHalf => Sys2Proof.Machine.execCloseHalf s
  | .emitGroup => Sys2Proof.Machine.execEmitGroup s
  | .modulate ch x => Sys2Proof.Machine.execModulate ch x s
  | .step => Sys2Proof.Machine.execStep s
  | .transition => Sys2Proof.Machine.execTransition s
  | .closeBatch => Sys2Proof.Machine.execCloseBatch s
  | .claim k => Sys2Proof.Machine.execClaim k s
  | .processFrame => Sys2Proof.Machine.execProcessFrame s
  | .processDone => Sys2Proof.Machine.execProcessDone s
  | .writeDone => Sys2Proof.Machine.execWriteDone s
  | .release => Sys2Proof.Machine.execRelease s
  | .finish => Sys2Proof.Machine.execFinish s
  | .abort => Sys2Proof.Machine.execAbort s

end Sys2Proof.Machine
end

