-- ==== Sys2Proof/Machine/Perform.lean ====
section
/-!
DEFINITION. What becomes of a beat: the operation it carries runs, and a beat that carries none transfers nothing or is
refused by name (30_encoding.md R96, R111).
-/

namespace Sys2Proof.Machine

/-- A beat that carries no operation. A port that transfers nothing changes no state (30_encoding.md R96,
43_pipeline_coordinator.md R211); a reserved OPID and a malformed record have no meaning (30_encoding.md R111, log 4). -/
def rejectBeat (r : Reject) (s : State) : Host.Outcome State Fault Refusal :=
  match r with
  | .noTransfer => .next s
  | .reservedOpid => .refused .reservedOpid
  | .strayBits => .refused .badEncoding
  | .badOperand => .refused .badEncoding

/-- Run the operation a beat carries, for an instance of the state's number format. -/
def perform (b : Beat) (s : State) : Host.Outcome State Fault Refusal :=
  match decode s.par.accFmt b with
  | .ok i => exec i s
  | .error r => rejectBeat r s

/-- Run the operations of a list of beats in order, stopping at the first fault or refusal. -/
def performAll : List Beat → State → Host.Outcome State Fault Refusal
  | [], s => .next s
  | b :: rest, s =>
    match perform b s with
    | .next s' => performAll rest s'
    | .fault r => .fault r
    | .refused r => .refused r

end Sys2Proof.Machine
end

