-- ==== Sys2Proof/Machine/Step.lean ====
section
/-!
DEFINITION. One step: the agent the schedule names next takes its operation (00_scope.md R13, log 1).
-/

namespace Sys2Proof.Machine

/-- One step. With nothing put forward no agent acts and nothing changes but the wires (log 1, log 10). -/
def step (s : State) : Host.Outcome State Fault Refusal :=
  match fetchBeat s with
  | none => .next s.quiet
  | some (b, s') => perform b s'

/-- `s` with the beat of the table's word `w` of `nbits` bits as the next one of the schedule (log 1, log 5). -/
def State.withFetchWord (s : State) (nbits w : Nat) : State := placeBeat s (tableBeat nbits w)

end Sys2Proof.Machine
end

