-- ==== Sys2Proof/Machine/Events.lean ====
section
/-!
DEFINITION. NUMERICAL_OVERLOAD, the event that is never surfaced (60_exceptions.md R250 code 4, R257): no wire carries it and
no state records it, so it is a function of an operation and the state it starts from.
-/

namespace Sys2Proof.Machine

/-- PANIC_CHECK fires: the threshold is enabled and `abs(s4)` is above it (40_modulator.md R131). -/
def panicFires (f : AccFmt) (cfg : CfgRegs) (l : Lane) : Bool :=
  panicMult cfg.policy != 0 &&
    fgt f (absAcc f l.s4) (mulAcc f (cvtInt f (panicMult cfg.policy).toNat) cfg.limit)

/-- CLAMP changes some accumulator (40_modulator.md R133). -/
def clampActs (f : AccFmt) (cfg : CfgRegs) (l : Lane) : Bool :=
  l.accs.any (fun v => fgt f v cfg.limit || flt f v (setSign f cfg.limit))

/-- NUMERICAL_OVERLOAD of channel `ch`, if `b`: one event for each CLAMP or PANIC_CHECK that acts, however many accumulators it
changes (DESIGN CHOICE, log 32). -/
def overloadIf (b : Bool) (ch : Channel) : List Event := if b then [.numericalOverload ch] else []

/-- What PANIC_CHECK and then CLAMP raise on a channel that INTEGRATE has updated (40_modulator.md R137). -/
def protectOverloads (f : AccFmt) (cfg : CfgRegs) (ch : Channel) (l : Lane) : List Event :=
  overloadIf (panicFires f cfg l) ch ++
    match panicLane f cfg l with
    | .ok l1 => overloadIf (clampActs f cfg l1) ch
    | .error _ => []

/-- What MODULATE raises (40_modulator.md R137). -/
def modulateOverloads (f : AccFmt) (cfg : CfgRegs) (ch : Channel) (l : Lane) (x : Acc) : List Event :=
  match (do integrateLane f cfg l (← scaleValue f cfg x)) with
  | .ok l1 => protectOverloads f cfg ch l1
  | .error _ => []

/-- What the MODULATE of one channel raises inside a STEP (41_interpolator.md R156). -/
def laneOverloads (f : AccFmt) (cfg : CfgRegs) (dp : Datapath) (ch : Channel) : List Event :=
  match interpLane f dp ch with
  | .ok x => modulateOverloads f cfg ch (dp.lane ch) x
  | .error _ => []

/-- What STEP raises, left first (41_interpolator.md R156). -/
def stepOverloads (s : State) : List Event :=
  laneOverloads s.par.accFmt s.cfg s.dp .left ++ laneOverloads s.par.accFmt s.cfg s.dp .right

/-- What `n` STEPs in a row raise (41_interpolator.md R158). -/
def stepsOverloads : Nat → State → List Event
  | 0, _ => []
  | n + 1, s =>
    stepOverloads s ++
      match stepOp s with
      | .ok s1 => stepsOverloads n s1
      | .error _ => []

/-- What PROCESS_FRAME raises: what its TRANSITION does, and nothing for the first Frame (43_pipeline_coordinator.md R205). -/
def frameOverloads (s : State) : List Event :=
  match (procSlot s).frame s.procIdx with
  | some x => if s.dp.haveCur then stepsOverloads 64 { s with dp := loadFrame s.dp x } else []
  | none => []

/-- What an operation raises of NUMERICAL_OVERLOAD, in the order it raises it: CLAMP when it changes a value, PANIC_CHECK when
it fires, alone or inside a composite (60_exceptions.md R250, R257); in DONE and ABORTED nothing is raised (R265). Where the operation
ends in a fault, the spec gives no result, and the events that log 32 says are given all the same (DESIGN CHOICE, log 32). -/
def overloads (s : State) (i : Instr) : List Event :=
  if ended s then []
  else
    match i with
    | .panicCheck ch => overloadIf (panicFires s.par.accFmt s.cfg (s.dp.lane ch)) ch
    | .clamp ch => overloadIf (clampActs s.par.accFmt s.cfg (s.dp.lane ch)) ch
    | .modulate ch x => modulateOverloads s.par.accFmt s.cfg ch (s.dp.lane ch) x
    | .step => stepOverloads s
    | .transition => stepsOverloads 64 s
    | .processFrame => if canProcess s then frameOverloads s else []
    | .reset => []
    | .loadCfg _ _ => []
    | .readCsr _ => []
    | .pushFrame _ _ => []
    | .endStream => []
    | .popWord => []
    | .popFail => []
    | .sanitize _ => []
    | .interp _ => []
    | .scale _ _ => []
    | .integrate _ _ => []
    | .quantize _ => []
    | .packBit _ _ => []
    | .closeHalf => []
    | .emitGroup => []
    | .closeBatch => []
    | .claim _ => []
    | .processDone => []
    | .writeDone => []
    | .release => []
    | .finish => []
    | .abort => []

/-- Every event of 60_exceptions.md R250 that an operation raises from a state whose wires are clear: those it puts on the
event wire, and NUMERICAL_OVERLOAD, which it does not. -/
def eventsOf (s : State) (i : Instr) : List Event :=
  overloads s i ++
    match exec i s.quiet with
    | .next t => t.raised
    | .fault _ => []
    | .refused _ => []

end Sys2Proof.Machine
end

