-- ==== Sys2Proof/Machine/Ports.lean ====
section
/-!
DEFINITION. The ports as one clock cycle sees them (30_encoding.md R91, R96): what the block shows on its outputs, which
offered beats transfer, and the interleaving of the transfers of one cycle (60_exceptions.md R261, log 23).
-/

namespace Sys2Proof.Machine

/-- The input pins of one cycle (30_encoding.md R91). -/
structure PinsIn where
  rst : Bool
  cfgValid : Bool
  cfgBeat : BitVec 69
  inValid : Bool
  inBeat : BitVec 65
  outReady : Bool
  outErr : Bool
deriving DecidableEq, Repr

/-- The output pins of one cycle (30_encoding.md R91). -/
structure PinsOut where
  cfgReady : Bool
  cfgRdata : BitVec 64
  inReady : Bool
  outValid : Bool
  outWord : OutWord
  status : BitVec 32
deriving DecidableEq, Repr

/-- The `wr` bit of a CFG beat (30_encoding.md R95). -/
def wrBit (f : AccFmt) (b : BitVec 69) : Bool := b.getLsbD (f.width + 4)

/-- The `idx` field of a CFG beat (30_encoding.md R95). -/
def idxField (f : AccFmt) (b : BitVec 69) : BitVec 4 := b.extractLsb' f.width 4

/-- What the output pins show (43_pipeline_coordinator.md R194, 44_system.md R230, R236, 30_encoding.md R118); outputs nobody
may sample have any value (U4, log 26). -/
def pinsOut (p : PinsIn) (s : State) : PinsOut where
  cfgReady := cfgReady p.rst (wrBit s.par.accFmt p.cfgBeat) s
  cfgRdata :=
    if p.cfgValid && cfgReady p.rst (wrBit s.par.accFmt p.cfgBeat) s && !wrBit s.par.accFmt p.cfgBeat
    then csrRead s (idxField s.par.accFmt p.cfgBeat) else Config.idleCfgData s.freeCount
  inReady := inReady p.rst s
  outValid := outValid p.rst s
  outWord := outWord p.rst s
  status := statusWord s

/-- The CFG beat that transfers, if one does (30_encoding.md R96). -/
def cfgTransfer (p : PinsIn) (s : State) : List Beat :=
  if p.cfgValid && cfgReady p.rst (wrBit s.par.accFmt p.cfgBeat) s then [.cfg p.cfgBeat] else []

/-- The IN beat that transfers, if one does. -/
def inTransfer (p : PinsIn) (s : State) : List Beat :=
  if p.inValid && inReady p.rst s then [.inp p.inBeat] else []

/-- The OUT transfer: `out_err` overrides `out_ready` (30_encoding.md R99). -/
def outTransfer (p : PinsIn) (s : State) : List Beat :=
  if outValid p.rst s && (p.outReady || p.outErr) then [.out p.outReady p.outErr] else []

/-- The transfers of one cycle, in the order the model interleaves them: RESET alone, else configuration, input, output. The
output comes last, so that ABORT wins over END_STREAM (60_exceptions.md R261, log 23). -/
def transfers (p : PinsIn) (s : State) : List Beat :=
  if p.rst then [.pin true] else cfgTransfer p s ++ inTransfer p s ++ outTransfer p s

/-- One clock cycle of all ports together. A beat that does not transfer leaves no trace, so the next cycle's pins may withdraw or
change it, which 70_reset_and_hazards.md R284 forbids to SRC and gives no behaviour (DESIGN CHOICE, log 33). -/
def cycle (p : PinsIn) (s : State) : Host.Outcome State Fault Refusal := performAll (transfers p s) s

end Sys2Proof.Machine
end

