-- ==== Sys2Proof/Machine/Streams.lean ====
section
/-!
DEFINITION. The byte views of the two streams: the adapter that may feed the input port (20_memory.md R64, R67,
30_encoding.md R100), which is outside the block (log 30), and the serialisation of the output words (20_memory.md R63,
42_bit_packer.md R178, R181).
-/

namespace Sys2Proof.Machine

/-- A sample from its four bytes in stream order: byte k is bits 8k+7:8k (little) or 31-8k:24-8k (big) (20_memory.md R64). -/
def sampleOfBytes (o : ByteOrder) (b0 b1 b2 b3 : Byte) : Sample :=
  match o with
  | .little => b3 ++ b2 ++ b1 ++ b0
  | .big => b0 ++ b1 ++ b2 ++ b3

/-- The four bytes of a sample in stream order, the inverse of `sampleOfBytes`. -/
def bytesOfSample (o : ByteOrder) (x : Sample) : List Byte :=
  match o with
  | .little => [x.extractLsb' 0 8, x.extractLsb' 8 8, x.extractLsb' 16 8, x.extractLsb' 24 8]
  | .big => [x.extractLsb' 24 8, x.extractLsb' 16 8, x.extractLsb' 8 8, x.extractLsb' 0 8]

/-- The Frames of a byte stream in the instance's IN_BYTE_ORDER (00_scope.md R8): every complete group of 8 bytes; a residue of
1 to 7 bytes is dropped (20_memory.md R64, R67). -/
def framesOfBytes (p : Params) : List Byte → List Frame
  | b0 :: b1 :: b2 :: b3 :: b4 :: b5 :: b6 :: b7 :: rest =>
    ⟨sampleOfBytes p.inByteOrder b0 b1 b2 b3, sampleOfBytes p.inByteOrder b4 b5 b6 b7⟩ :: framesOfBytes p rest
  | _ => []

/-- The IN beats the adapter offers for a stream that has ended: one PUSH_FRAME a Frame, then one END_STREAM
(30_encoding.md R100). -/
def adapterBeats (p : Params) (bytes : List Byte) : List Beat :=
  (framesOfBytes p bytes).map (fun x => encode p.accFmt (.pushFrame x.left x.right)) ++ [encode p.accFmt .endStream]

/-- The block with the adapter in front of it and a byte stream to come: the schedule goes on with the adapter's beats
(log 1, log 30). -/
def State.offerBytes (s : State) (bytes : List Byte) : State := { s with script := s.script ++ adapterBeats s.par bytes }

/-- A word as bytes, most significant first (20_memory.md R63). -/
def wordBytes (w : OutWord) : List Byte :=
  [w.extractLsb' 24 8, w.extractLsb' 16 8, w.extractLsb' 8 8, w.extractLsb' 0 8]

/-- A word sequence as a byte stream (20_memory.md R63). -/
def streamBytes (ws : List OutWord) : List Byte := ws.flatMap wordBytes

/-- The byte of a group's 16 that holds channel `ch`'s bit of step `t` (42_bit_packer.md R181). -/
def groupByteIndex (ch : Channel) (t : Nat) : Nat :=
  8 * (t / 32) + (t % 32) / 8 + (match ch with | .left => 0 | .right => 4)

/-- Channel `ch`'s bit of step `t` out of the 16 bytes of a group (42_bit_packer.md R181). -/
def groupBit (bytes : List Byte) (ch : Channel) (t : Nat) : Option Bool :=
  (bytes[groupByteIndex ch t]?).map (fun b => b.getLsbD (7 - t % 8))

end Sys2Proof.Machine
end

