-- ==== Sys2Proof/Machine/Trace.lean ====
section
/-!
DEFINITION. The pseudo-operations of the trace notation (30_encoding.md R117) as lists of operations, and running a list.
-/

namespace Sys2Proof.Machine

/-- `SILENCE n`: n times `PUSH 0.0, 0.0`. -/
def silence (n : Nat) : List Instr := List.replicate n (.pushFrame 0 0)

/-- `POPGROUP`: four POP in a row. -/
def popGroup : List Instr := List.replicate 4 .popWord

/-- Run operations in order, stopping at the first fault or refusal. -/
def execAll : List Instr → State → Host.Outcome State Fault Refusal
  | [], s => .next s
  | i :: rest, s =>
    match exec i s with
    | .next s' => execAll rest s'
    | .fault r => .fault r
    | .refused r => .refused r

/-! ### DRAINALL: END, then POP until PHASE = DONE -/

/-- What moves a stream to its end, one operation of each kind, in the order in which `drainNext` looks for an enabled one: SRC's
END, the roles' own operations, and SINK's POP. -/
def drainOps : List Instr :=
  [.endStream, .closeBatch, .claim 0, .processFrame, .processDone, .writeDone, .release, .popWord, .finish]

/-- The operation DRAINALL takes next: none once PHASE is DONE. END waits like any operation while it is not enabled. -/
def drainNext (s : State) : Option Instr := if s.phase = .done then none else drainOps.find? (enabled s)

/-- The operations of DRAINALL from `s` on, at most `n` of them. -/
def drainOpsFrom : Nat → State → List Instr
  | 0, _ => []
  | n + 1, s =>
    match drainNext s with
    | none => []
    | some i =>
      i ::
        match exec i s with
        | .next s' => drainOpsFrom n s'
        | .fault _ => []
        | .refused _ => []

/-- More operations than a drain can take: five a Batch, and one PROCESS_FRAME and four POP a Frame of it, for the Batches
between `emit_seq` and `fill_seq` and the one being filled; then END and FINISH. -/
def drainBound (s : State) : Nat := (s.fillSeq - s.emitSeq + 1) * (5 + 5 * s.par.batchCap) + 2

/-- `DRAINALL` from `s`: END, then POP until PHASE = DONE, with the roles' own operations that this takes in between (R117,
log 31). -/
def drainAll (s : State) : List Instr := drainOpsFrom (drainBound s) s

/-- An operation of SRC or SINK, which a trace of the data ports shows (R116). -/
def onDataPorts : Instr → Bool
  | .pushFrame _ _ => true
  | .endStream => true
  | .popWord => true
  | .popFail => true
  | _ => false

/-- `DRAINALL` as the data ports show it: END and POPs. -/
def drainAllOnPorts (s : State) : List Instr := (drainAll s).filter onDataPorts

end Sys2Proof.Machine
end

