-- ==== Sys2Proof/Machine/Wires.lean ====
section
/-!
DEFINITION. The values MODULATE computes on its way, as the rules of 40_modulator.md R126, R128 and R131 name them, whether or
not they are finite: R138 says that on a legal configuration and a bounded channel every one of them is.
-/

namespace Sys2Proof.Machine

/-- `fsub(prev, fmul(qv, c))`: what one later stage of INTEGRATE adds to its accumulator (R123, R128). -/
def stageDiff (f : AccFmt) (prev qv c : Acc) : Acc := addAcc f prev (negAcc f (mulAcc f qv c))

/-- The channel with the five sums of INTEGRATE, each made from the one before (R128). -/
def integrated (f : AccFmt) (cfg : CfgRegs) (l : Lane) (scaled : Acc) : Lane :=
  let qv := quantAcc f l.q
  let s0 := addAcc f l.s0 (addAcc f scaled (negAcc f qv))
  let s1 := addAcc f l.s1 (stageDiff f s0 qv cfg.c1)
  let s2 := addAcc f l.s2 (stageDiff f s1 qv cfg.c2)
  let s3 := addAcc f l.s3 (stageDiff f s2 qv cfg.c3)
  let s4 := addAcc f l.s4 (stageDiff f s3 qv cfg.c4)
  { l with s0 := s0, s1 := s1, s2 := s2, s3 := s3, s4 := s4 }

/-- The product and the difference of one later stage of INTEGRATE. -/
def stageWires (f : AccFmt) (prev qv c : Acc) : List Acc := [mulAcc f qv c, stageDiff f prev qv c]

/-- Everything INTEGRATE computes: `qv`, the differences and products of its stages, and its five sums (R128). -/
def integrateWires (f : AccFmt) (cfg : CfgRegs) (l : Lane) (scaled : Acc) : List Acc :=
  let qv := quantAcc f l.q
  let r := integrated f cfg l scaled
  [qv, addAcc f scaled (negAcc f qv)] ++ stageWires f r.s0 qv cfg.c1 ++ stageWires f r.s1 qv cfg.c2 ++
    stageWires f r.s2 qv cfg.c3 ++ stageWires f r.s3 qv cfg.c4 ++ r.accs

/-- What PANIC_CHECK computes: `cvtint(PANIC_MULT)` and `PANIC_MULT * LIMIT` (R131). -/
def panicWires (f : AccFmt) (cfg : CfgRegs) : List Acc :=
  let n := cvtInt f (panicMult cfg.policy).toNat
  [n, mulAcc f n cfg.limit]

/-- Every intermediate of MODULATE ch, x: `scaled`, what INTEGRATE computes from it, and what PANIC_CHECK computes (R138). What
CLAMP and QUANTIZE write are results of MODULATE and no intermediates. -/
def modulateWires (f : AccFmt) (cfg : CfgRegs) (l : Lane) (x : Acc) : List Acc :=
  let scaled := mulAcc f x cfg.gain
  scaled :: (integrateWires f cfg l scaled ++ panicWires f cfg)

end Sys2Proof.Machine
end

