-- ==== Sys2Proof/Safety.lean ====
section
/-!
DEFINITION. The terms statements are made in: which operations the agents of the reference model take, what a legal
configuration and a bounded datapath are (10_state.md R40, R56), the order of the coordinator's counters and slots (R33, R56),
the reference function Golden (43_pipeline_coordinator.md R220), and the runs of the machine.
-/

namespace Sys2Proof.Machine

/-! ### Agents (00_scope.md R13, 30_encoding.md R110) -/

/-- The agents. The Compute role's index is in `dp_owner`, not in the operation, but for CLAIM. -/
inductive Agent where
  | host
  | src
  | reader
  | compute
  | writer
  | sink
deriving DecidableEq, Repr

/-- Who takes an operation; SRC's two beats are accepted by READER and POP_WORD is delivered by WRITER, so their state changes
are those roles' (30_encoding.md R110). -/
def agentOf : Instr → Agent
  | .reset => .host
  | .loadCfg _ _ => .host
  | .readCsr _ => .host
  | .pushFrame _ _ => .reader
  | .endStream => .reader
  | .popWord => .writer
  | .popFail => .sink
  | .sanitize _ => .reader
  | .interp _ => .compute
  | .scale _ _ => .compute
  | .integrate _ _ => .compute
  | .panicCheck _ => .compute
  | .clamp _ => .compute
  | .quantize _ => .compute
  | .packBit _ _ => .compute
  | .closeHalf => .compute
  | .emitGroup => .compute
  | .modulate _ _ => .compute
  | .step => .compute
  | .transition => .compute
  | .closeBatch => .reader
  | .claim _ => .compute
  | .processFrame => .compute
  | .processDone => .compute
  | .writeDone => .writer
  | .release => .writer
  | .finish => .writer
  | .abort => .writer

/-- The operations of R193 and 44_system.md: those the agents of the reference model take as steps of their own. The datapath
micro-operations and composites, SANITIZE and ABORT only ever run inside one of these (43_pipeline_coordinator.md R190, R205,
R213; log 13). -/
def agentOp : Instr → Bool
  | .reset => true
  | .loadCfg _ _ => true
  | .readCsr _ => true
  | .pushFrame _ _ => true
  | .endStream => true
  | .popWord => true
  | .popFail => true
  | .closeBatch => true
  | .claim _ => true
  | .processFrame => true
  | .processDone => true
  | .writeDone => true
  | .release => true
  | .finish => true
  | _ => false

/-- The operations of 43_pipeline_coordinator.md, every one of which has a guard (R190). -/
def coordinatorOp : Instr → Bool
  | .pushFrame _ _ => true
  | .endStream => true
  | .popWord => true
  | .popFail => true
  | .sanitize _ => true
  | .closeBatch => true
  | .claim _ => true
  | .processFrame => true
  | .processDone => true
  | .writeDone => true
  | .release => true
  | .finish => true
  | .abort => true
  | .reset => false
  | .loadCfg _ _ => false
  | .readCsr _ => false
  | .interp _ => false
  | .scale _ _ => false
  | .integrate _ _ => false
  | .panicCheck _ => false
  | .clamp _ => false
  | .quantize _ => false
  | .packBit _ _ => false
  | .closeHalf => false
  | .emitGroup => false
  | .modulate _ _ => false
  | .step => false
  | .transition => false

/-! ### Legal configuration, bounded datapath (10_state.md R40, R56; 40_modulator.md R138) -/

/-- Every configuration register holds W bits (10_state.md R40). -/
def CfgRegs.fits (f : AccFmt) (c : CfgRegs) : Bool :=
  Acc.fits f c.gain && Acc.fits f c.c1 && Acc.fits f c.c2 && Acc.fits f c.c3 && Acc.fits f c.c4 && Acc.fits f c.limit

/-- Every configuration register holds a legal value (10_state.md R40, R45). -/
def CfgRegs.legal (f : AccFmt) (c : CfgRegs) : Bool :=
  c.fits f &&
  legalGain f c.gain && legalCoef f c.c1 && legalCoef f c.c2 && legalCoef f c.c3 && legalCoef f c.c4 &&
    legalLimit f c.limit && legalPolicy (c.policy.setWidth 64) && policyBits (c.policy.setWidth 64) == c.policy

/-- A finite value within [-LIMIT, +LIMIT] (10_state.md R56 (1), (3)). -/
def withinLimit (f : AccFmt) (limit v : Acc) : Bool := isFinite f v && fge f limit (absAcc f v)

/-- All five accumulators of a channel are finite and within [-LIMIT, +LIMIT] (10_state.md R56). -/
def Lane.bounded (f : AccFmt) (limit : Acc) (l : Lane) : Bool := l.accs.all (withinLimit f limit)

/-- What 40_modulator.md R138 asks for on entry to MODULATE: a legal configuration, every accumulator finite and within
[-LIMIT, +LIMIT], and a finite operand. -/
def modulateReady (f : AccFmt) (cfg : CfgRegs) (l : Lane) (x : Acc) : Bool :=
  cfg.legal f && l.bounded f cfg.limit && isFinite f x

/-- Finite through (40_modulator.md R138): every intermediate of MODULATE is finite, and so is every accumulator it leaves. -/
def modulateFinite (f : AccFmt) (cfg : CfgRegs) (l : Lane) (x : Acc) : Bool :=
  (modulateWires f cfg l x).all (isFinite f) &&
    match modulateLane f cfg l x with
    | .ok r => r.1.accs.all (isFinite f)
    | .error _ => false

/-- Both samples a channel interpolates between are finite. -/
def Lane.samplesFinite (l : Lane) : Bool := isFinite32 l.cur && isFinite32 l.nxt

/-- What the datapath operations need to run: a legal configuration, bounded accumulators, finite samples
(40_modulator.md R138, 41_interpolator.md R154). -/
def datapathReady (s : State) : Bool :=
  s.cfg.legal s.par.accFmt && s.dp.left.bounded s.par.accFmt s.cfg.limit && s.dp.right.bounded s.par.accFmt s.cfg.limit &&
    s.dp.left.samplesFinite && s.dp.right.samplesFinite

/-! ### The coordinator's order (10_state.md R33, R56 (4), (5)) -/

/-- The state of the slot that Batch number `n` lives in. -/
def slotStateAt (s : State) (n : Nat) : SlotState := (s.slots.read (slotIndex s.par n)).state

/-- The order the coordinator keeps: the counters in order and within one turn of the ring, every slot in the state its
Batch's number calls for, the cursors within what they count, the pool in canonical form, and each phase with the counters it
implies. After an ABORT `dp_owner`, `proc_idx` and the slots' counts have no specified value (log 8). -/
structure CoordInv (s : State) : Prop where
  params : s.par.legal = true
  poolWf : s.slots.wf = true
  poolRange : ∀ e ∈ s.slots, e.1 < s.par.nSlots
  emitLeProc : s.emitSeq ≤ s.procSeq
  procLeFill : s.procSeq ≤ s.fillSeq
  fillInRing : s.fillSeq ≤ s.emitSeq + s.par.nSlots
  fillCntCap : s.fillCnt ≤ s.par.batchCap
  fillHasSlot : 0 < s.fillCnt → s.fillSeq < s.emitSeq + s.par.nSlots
  filledSlots : ∀ n, s.procSeq ≤ n → n < s.fillSeq → slotStateAt s n = .filled
  processedSlots : ∀ n, s.emitSeq < n → n < s.procSeq → slotStateAt s n = .processed
  emittingSlot : s.emitSeq < s.procSeq → slotStateAt s s.emitSeq = .processed ∨ slotStateAt s s.emitSeq = .emitted
  emptySlots : ∀ n, s.fillSeq ≤ n → n < s.emitSeq + s.par.nSlots → slotStateAt s n = .empty
  ownerHasBatch : s.phase ≠ .aborted → ∀ k, s.dpOwner = some k → k < s.par.nCompute ∧ s.procSeq < s.fillSeq
  procCursor : s.phase ≠ .aborted → s.dpOwner ≠ none → s.procIdx ≤ (s.slots.read (slotIndex s.par s.procSeq)).nFrames
  emitCursor : s.phase ≠ .aborted → s.emitSeq < s.procSeq →
    s.emitIdx ≤ 4 * (s.slots.read (slotIndex s.par s.emitSeq)).nGroups
  emitStart : s.emitSeq = s.procSeq → s.emitIdx = 0
  idleFresh : s.phase = .idle → s.fillSeq = 0 ∧ s.fillCnt = 0
  doneEmpty : s.phase = .done → s.fillCnt = 0 ∧ s.emitSeq = s.fillSeq

/-! ### The reference function (43_pipeline_coordinator.md R220) -/

/-- One STEP of the reference function. -/
def goldenStep (f : AccFmt) (cfg : CfgRegs) (dp : Datapath) : Except Fault Datapath :=
  (stepDatapath f cfg dp).map advanceStep

/-- One TRANSITION of the reference function. -/
def goldenTransition (f : AccFmt) (cfg : CfgRegs) (dp : Datapath) : Except Fault Datapath :=
  (repeatOp (goldenStep f cfg) 64 dp).map takeFrame

/-- One Frame of the reference function: the datapath after it, and the words it appends. -/
def goldenFrame (f : AccFmt) (cfg : CfgRegs) (dp : Datapath) (x : Frame) : Except Fault (Datapath × List OutWord) :=
  let loaded := loadFrame dp ⟨sanitizeValue x.left, sanitizeValue x.right⟩
  if dp.haveCur then (goldenTransition f cfg loaded).map (fun d => (d, d.wg.words)) else .ok (storeFirst loaded, [])

/-- The reference function from a datapath state on. -/
def goldenFrom (f : AccFmt) (cfg : CfgRegs) : Datapath → List Frame → Except Fault (List OutWord)
  | _, [] => .ok []
  | dp, x :: rest =>
    match goldenFrame f cfg dp x with
    | .error e => .error e
    | .ok r =>
      match goldenFrom f cfg r.1 rest with
      | .error e => .error e
      | .ok ws => .ok (r.2 ++ ws)

/-- `Golden(cfg, F)` (43_pipeline_coordinator.md R220). -/
def golden (p : Params) (cfg : CfgRegs) (frames : List Frame) : Except Fault (List OutWord) :=
  goldenFrom p.accFmt cfg (Datapath.reset p.qReset) frames

/-! ### Runs -/

/-- A beat that carries an operation of the agents, or none at all (log 13). -/
def agentBeat (f : AccFmt) (b : Beat) : Bool :=
  match decode f b with
  | .ok i => agentOp i
  | .error _ => true

/-- The states of the runs of the reference model: from the state RESET leaves, for any legal parameters and any schedule of
the agents' operations (00_scope.md R13, 70_reset_and_hazards.md R295). A schedule in which SRC withdraws or changes a beat that
was not taken is among them, the untaken beat having no effect (DESIGN CHOICE, log 33). -/
inductive AgentRun : State → Prop where
  | start (p : Params) (schedule : List Beat) : p.legal = true → schedule.all (agentBeat p.accFmt) = true →
      AgentRun { State.resetOf p with script := schedule }
  | next {s s' : State} : AgentRun s → step s = .next s' → AgentRun s'

end Sys2Proof.Machine
end

