-- ==== Sys2Proof/Certificates/Slice0/Obligations.lean ====
section
/-!
DEFINITION. The statements for the provers. Each docstring names the rules of spec/ it formalises; the values a statement
speaks of are exact integers, in units of the smallest subnormal of the format (Machine/Float.lean), so that 1.0 is
`2 ^ unitScale f`.
-/

section Statements

open Sys2Proof Sys2Proof.Machine

/-! ### Reset and the system operations -/

/-- 10_state.md R55: the state RESET leaves, for every set of build-time parameters. -/
def Obligations.ResetValues : Prop :=
  ∀ p : Params,
    let s := State.resetOf p
    let f := p.accFmt
    let one : Int := 2 ^ unitScale f
    (∀ ch, (s.dp.lane ch).accs = [0, 0, 0, 0, 0] ∧ (s.dp.lane ch).q = p.qReset ∧ (s.dp.lane ch).cur = 0 ∧
      (s.dp.lane ch).sh = 0) ∧
    Params.default.qReset = .minus ∧
    s.dp.haveCur = false ∧ s.dp.i = 0 ∧ s.dp.wg.words = [0, 0, 0, 0] ∧
    2 * valueOf f s.cfg.gain = one ∧ 2 * valueOf f s.cfg.c1 = one ∧ 4 * valueOf f s.cfg.c2 = one ∧
    8 * valueOf f s.cfg.c3 = one ∧ 16 * valueOf f s.cfg.c4 = one ∧ valueOf f s.cfg.limit = 128 * one ∧ s.cfg.policy = 0 ∧
    s.phase = .idle ∧ s.eosSeen = false ∧ s.outFailed = false ∧ s.nonfiniteSeen = false ∧ s.cfgFallback = false ∧
    (∀ j, (s.slots.read j).state = .empty ∧ (s.slots.read j).nFrames = 0 ∧ (s.slots.read j).nGroups = 0) ∧
    s.fillSeq = 0 ∧ s.procSeq = 0 ∧ s.emitSeq = 0 ∧ s.fillCnt = 0 ∧ s.procIdx = 0 ∧ s.emitIdx = 0 ∧
    s.dpOwner = none ∧ s.nFramesIn = 0 ∧ s.nWordsOut = 0

/-- 44_system.md R230: RESET acts in every state and leaves the reset state of the same instance; while `rst` is 1 no port is
ready and nothing but RESET happens. The model's choices in it, and not the spec's: what the agents put forward next and the
counter of free values stay (log 21), `nxt`, which 10_state.md R55 leaves unspecified, is +0.0 and no transition is in work
(log 6). -/
def Obligations.ResetRuns : Prop :=
  ∀ s : State,
    exec .reset s = .next { State.resetOf s.par with script := s.script, freeCount := s.freeCount } ∧
    (∀ p : PinsIn, p.rst = true →
      (pinsOut p s).inReady = false ∧ (pinsOut p s).outValid = false ∧ (pinsOut p s).cfgReady = false ∧
        cycle p s = exec .reset s)

/-- 44_system.md R233: LOAD_CFG writes a legal value, replaces an illegal one by the register's reset value with `cfg_fallback`
and CONFIG_ERROR, leaves indices 7 to 15 alone, and is accepted in IDLE and only there. -/
def Obligations.LoadCfgResult : Prop :=
  ∀ (s : State) (idx : BitVec 4) (data : BitVec 64),
    let f := s.par.accFmt
    let one : Int := 2 ^ unitScale f
    let v : Acc := BitVec.ofNat 64 (data.toNat % 2 ^ f.width)
    let put (c : CfgRegs) : State := { s with cfg := c }
    let fall (c : CfgRegs) : State :=
      { s with cfg := c, cfgFallback := true, raised := s.raised ++ [.configError idx] }
    let coef : Prop := isFinite f v = true ∧ 0 ≤ valueOf f v ∧ valueOf f v ≤ one
    let go : State → Prop := fun t => exec (.loadCfg idx data) s = .next t
    (cfgReady false true s = true ↔ s.phase = .idle) ∧
    (s.phase ≠ .idle → go s) ∧
    (s.phase = .idle →
      (idx = 0 →
        (isFinite f v = true ∧ |valueOf f v| ≤ one → go (put { s.cfg with gain := v })) ∧
        (¬(isFinite f v = true ∧ |valueOf f v| ≤ one) → go (fall { s.cfg with gain := presetHalf f }))) ∧
      (idx = 1 → (coef → go (put { s.cfg with c1 := v })) ∧ (¬coef → go (fall { s.cfg with c1 := presetHalf f }))) ∧
      (idx = 2 → (coef → go (put { s.cfg with c2 := v })) ∧ (¬coef → go (fall { s.cfg with c2 := presetQuarter f }))) ∧
      (idx = 3 → (coef → go (put { s.cfg with c3 := v })) ∧ (¬coef → go (fall { s.cfg with c3 := presetEighth f }))) ∧
      (idx = 4 → (coef → go (put { s.cfg with c4 := v })) ∧ (¬coef → go (fall { s.cfg with c4 := presetSixteenth f }))) ∧
      (idx = 5 →
        (isFinite f v = true ∧ one ≤ valueOf f v ∧ valueOf f v ≤ 65536 * one → go (put { s.cfg with limit := v })) ∧
        (¬(isFinite f v = true ∧ one ≤ valueOf f v ∧ valueOf f v ≤ 65536 * one) →
          go (fall { s.cfg with limit := presetLimit f }))) ∧
      (idx = 6 →
        (v.extractLsb' 0 2 = 0 ∧ v.extractLsb' 8 8 ≠ 1 →
          go (put { s.cfg with policy := (0 : BitVec 16) ++ v.extractLsb' 8 8 ++ (0 : BitVec 8) })) ∧
        (¬(v.extractLsb' 0 2 = 0 ∧ v.extractLsb' 8 8 ≠ 1) → go (fall { s.cfg with policy := 0 }))) ∧
      (7 ≤ idx.toNat → go s))

/-- 44_system.md R236, 10_state.md R46, 30_encoding.md R118: READ_CSR answers in every phase with the register of 10_state.md
R40 and changes no state; the fields of STATUS; the `status` port shows what READ_CSR 7 gives. -/
def Obligations.ReadCsrResult : Prop :=
  ∀ (s : State) (idx : BitVec 4) (p : PinsIn),
    let w := (pinsOut p s).status
    cfgReady false false s = true ∧
    (∃ v, exec (.readCsr idx) s = .next { s with ret := .csr v } ∧
      (idx = 0 → v = s.cfg.gain) ∧ (idx = 1 → v = s.cfg.c1) ∧ (idx = 2 → v = s.cfg.c2) ∧ (idx = 3 → v = s.cfg.c3) ∧
      (idx = 4 → v = s.cfg.c4) ∧ (idx = 5 → v = s.cfg.limit) ∧ (idx = 6 → v = (0 : BitVec 32) ++ s.cfg.policy) ∧
      (idx = 7 → v = (0 : BitVec 32) ++ w) ∧
      (idx = 8 → isFinite s.par.accFmt v = true ∧ valueOf s.par.accFmt v = 2 ^ unitScale s.par.accFmt) ∧
      (9 ≤ idx.toNat → v = 0)) ∧
    w.extractLsb' 0 3 = (match s.phase with | .idle => 0 | .run => 1 | .drain => 2 | .done => 3 | .aborted => 4) ∧
    w.getLsbD 3 = s.dp.haveCur ∧ w.getLsbD 4 = s.eosSeen ∧ w.getLsbD 5 = s.outFailed ∧ w.getLsbD 6 = s.nonfiniteSeen ∧
    w.getLsbD 7 = s.cfgFallback ∧ w.extractLsb' 8 24 = 0

/-! ### The Reader -/

/-- 43_pipeline_coordinator.md R196, R197: PUSH_FRAME stores both samples sanitised in the slot being filled, counts the Frame
and locks the configuration; a NaN or an infinity is replaced by +0.0 and recorded, left first. -/
def Obligations.PushFrameResult : Prop :=
  ∀ (s : State) (l r : Sample),
    let j := s.fillSeq % s.par.nSlots
    let clean (x : Sample) : Sample := if x.extractLsb' 23 8 = 0xFF then 0 else x
    let note (ch : Channel) (x : Sample) : List Event :=
      if x.extractLsb' 23 8 = 0xFF then [.nonfiniteInput (some ch) x] else []
    s.slots.wf = true → (s.phase = .idle ∨ s.phase = .run) → (s.slots.read j).state = .empty → s.fillCnt < s.par.batchCap →
    ∃ t, exec (.pushFrame l r) s = .next t ∧
      t = { s with
        slots := t.slots
        fillCnt := s.fillCnt + 1
        nFramesIn := s.nFramesIn + 1
        inStream := s.inStream ++ [⟨l, r⟩]
        phase := .run
        nonfiniteSeen := s.nonfiniteSeen || l.extractLsb' 23 8 == 0xFF || r.extractLsb' 23 8 == 0xFF
        raised := s.raised ++ note .left l ++ note .right r } ∧
      cfgReady false true t = false ∧
      (t.slots.read j).frame s.fillCnt = some ⟨clean l, clean r⟩ ∧
      (∀ n, n ≠ s.fillCnt → (t.slots.read j).frame n = (s.slots.read j).frame n) ∧
      (t.slots.read j).state = .empty ∧ (t.slots.read j).nFrames = (s.slots.read j).nFrames ∧
      (t.slots.read j).nGroups = (s.slots.read j).nGroups ∧ (t.slots.read j).groups = (s.slots.read j).groups ∧
      ∀ k, k ≠ j → t.slots.read k = s.slots.read k

/-- 43_pipeline_coordinator.md R197: SANITIZE passes a finite pattern bit for bit, and replaces any other by +0.0 with
`nonfinite_seen` and NONFINITE_INPUT; in DONE and ABORTED it does nothing (R193, R218). Which channel the event names outside
PUSH_FRAME is open (log 27). -/
def Obligations.SanitizeResult : Prop :=
  ∀ (s : State) (x : Sample),
    let gone : Prop := s.phase = .done ∨ s.phase = .aborted
    (gone → exec (.sanitize x) s = .next s) ∧
    (¬gone → x.extractLsb' 23 8 ≠ 0xFF → exec (.sanitize x) s = .next { s with ret := .sample x }) ∧
    (¬gone → x.extractLsb' 23 8 = 0xFF → ∃ ch, exec (.sanitize x) s =
      .next { s with ret := .sample 0, nonfiniteSeen := true, raised := s.raised ++ [.nonfiniteInput ch x] })

/-- 43_pipeline_coordinator.md R198, 60_exceptions.md R263: END_STREAM sets `eos_seen`, enters DRAIN and raises END_OF_STREAM,
from IDLE too; after it no Frame is accepted, and a Batch with a Frame in it must be closed. -/
def Obligations.EndStreamResult : Prop :=
  ∀ s : State,
    (s.phase = .idle ∨ s.phase = .run) → (s.slots.read (s.fillSeq % s.par.nSlots)).state = .empty →
    s.fillCnt < s.par.batchCap →
    ∃ t, exec .endStream s = .next t ∧
      t = { s with eosSeen := true, phase := .drain, raised := s.raised ++ [.endOfStream] } ∧ inReady false t = false ∧
      (1 ≤ s.fillCnt → mustClose t = true)

/-- 43_pipeline_coordinator.md R199: CLOSE_BATCH hands the slot being filled over with its Frame count, which is at least 1, and
under the coordinator's order at most BATCH_CAP; with no Frame in it there is nothing to close. -/
def Obligations.CloseBatchResult : Prop :=
  ∀ s : State,
    let j := s.fillSeq % s.par.nSlots
    (s.fillCnt = 0 → exec .closeBatch s = .next s) ∧
    (s.slots.wf = true → (s.phase = .run ∨ s.phase = .drain) → 1 ≤ s.fillCnt →
      ∃ t, exec .closeBatch s = .next t ∧ t = { s with slots := t.slots, fillSeq := s.fillSeq + 1, fillCnt := 0 } ∧
        t.slots.read j = { s.slots.read j with state := .filled, nFrames := s.fillCnt, nGroups := 0 } ∧
        1 ≤ (t.slots.read j).nFrames ∧ (CoordInv s → (t.slots.read j).nFrames ≤ s.par.batchCap) ∧
        ∀ k, k ≠ j → t.slots.read k = s.slots.read k)

/-! ### Compute -/

/-- 43_pipeline_coordinator.md R203: CLAIM takes the datapath for role `k` when it is free and the Batch at `proc_seq` is
Filled, and otherwise waits. The refusal of a role that does not exist is the model's choice (log 15). -/
def Obligations.ClaimResult : Prop :=
  ∀ (s : State) (k : Nat),
    let g : Prop := (s.phase = .run ∨ s.phase = .drain) ∧ s.dpOwner = none ∧
      (s.slots.read (s.procSeq % s.par.nSlots)).state = .filled
    (k < s.par.nCompute → g → exec (.claim k) s = .next { s with dpOwner := some k, procIdx := 0 }) ∧
    (k < s.par.nCompute → ¬g → exec (.claim k) s = .next s) ∧
    (s.par.nCompute ≤ k → exec (.claim k) s = .refused .noSuchComputeRole)

/-- 41_interpolator.md R155: the first Frame of a stream is only stored: no STEP runs, no modulator is called, nothing is
emitted. That the model's own bit `inTransition` is clear afterwards is the model's choice (log 6). -/
def Obligations.FirstFrameStored : Prop :=
  ∀ (s : State) (x : Frame),
    let v := s.slots.read (s.procSeq % s.par.nSlots)
    (s.phase = .run ∨ s.phase = .drain) → s.dpOwner ≠ none → s.procIdx < v.nFrames → v.frame s.procIdx = some x →
    s.dp.haveCur = false →
    exec .processFrame s = .next { s with
      dp := { s.dp with
        left := { s.dp.left with cur := x.left, nxt := x.left }
        right := { s.dp.right with cur := x.right, nxt := x.right }
        haveCur := true
        inTransition := false }
      procIdx := s.procIdx + 1 }

/-- 43_pipeline_coordinator.md R205: every later Frame is loaded into `nxt` and runs one TRANSITION, which completes on a legal
configuration, a bounded datapath and finite samples, appends exactly one Word Group to the claimed slot, and leaves the Frame
in `cur`. That the model's own bit `inTransition` is clear afterwards is the model's choice (log 6). -/
def Obligations.LaterFrameRuns : Prop :=
  ∀ (s : State) (x : Frame),
    let f := s.par.accFmt
    let j := s.procSeq % s.par.nSlots
    let v := s.slots.read j
    s.slots.wf = true → (s.phase = .run ∨ s.phase = .drain) → s.dpOwner ≠ none → s.procIdx < v.nFrames →
    v.frame s.procIdx = some x → s.dp.haveCur = true → s.dp.i = 0 → v.nGroups < s.par.batchCap →
    s.cfg.legal f = true → s.dp.left.bounded f s.cfg.limit = true → s.dp.right.bounded f s.cfg.limit = true →
    isFinite32 s.dp.left.cur = true → isFinite32 s.dp.right.cur = true →
    isFinite32 x.left = true → isFinite32 x.right = true →
    ∃ t u, exec .processFrame s = .next t ∧
      exec .transition { s with
        dp := { s.dp with
          left := { s.dp.left with nxt := x.left }
          right := { s.dp.right with nxt := x.right }
          inTransition := true } } = .next u ∧
      t = { u with procIdx := s.procIdx + 1 } ∧
      t = { s with dp := t.dp, slots := t.slots, procIdx := s.procIdx + 1 } ∧
      t.dp.haveCur = true ∧ t.dp.i = 0 ∧ t.dp.inTransition = false ∧ t.dp.left.cur = x.left ∧ t.dp.right.cur = x.right ∧
      t.dp.left.bounded f s.cfg.limit = true ∧ t.dp.right.bounded f s.cfg.limit = true ∧
      (t.slots.read j).nGroups = v.nGroups + 1 ∧ (t.slots.read j).group v.nGroups = some t.dp.wg ∧
      (∀ n, n ≠ v.nGroups → (t.slots.read j).group n = v.group n) ∧
      (t.slots.read j).state = v.state ∧ (t.slots.read j).nFrames = v.nFrames ∧ (t.slots.read j).frames = v.frames ∧
      ∀ k, k ≠ j → t.slots.read k = s.slots.read k

/-- 43_pipeline_coordinator.md R206: PROCESS_DONE hands the slot to the Writer and gives the datapath back. -/
def Obligations.ProcessDoneResult : Prop :=
  ∀ s : State,
    let j := s.procSeq % s.par.nSlots
    s.slots.wf = true → (s.phase = .run ∨ s.phase = .drain) → s.dpOwner ≠ none → s.procIdx = (s.slots.read j).nFrames →
    ∃ t, exec .processDone s = .next t ∧ t = { s with slots := t.slots, procSeq := s.procSeq + 1, dpOwner := none } ∧
      t.slots.read j = { s.slots.read j with state := .processed } ∧ ∀ k, k ≠ j → t.slots.read k = s.slots.read k

/-! ### The Writer and SINK -/

/-- 43_pipeline_coordinator.md R212 and R194: the offered word is word `emit_idx mod 4` of group `emit_idx div 4`; POP_WORD
appends it to the output stream and counts it. -/
def Obligations.PopWordResult : Prop :=
  ∀ (s : State) (g : WordGroup) (w : OutWord),
    let v := s.slots.read (s.emitSeq % s.par.nSlots)
    (s.phase = .run ∨ s.phase = .drain) → v.state = .processed → s.emitIdx < 4 * v.nGroups →
    v.group (s.emitIdx / 4) = some g → g.words[s.emitIdx % 4]? = some w →
    outValid false s = true ∧ outWord false s = w ∧
    exec .popWord s = .next { s with
      outStream := s.outStream ++ [w]
      emitIdx := s.emitIdx + 1
      nWordsOut := s.nWordsOut + 1
      ret := .word w }

/-- 43_pipeline_coordinator.md R213, R218 and 60_exceptions.md R262: POP_FAIL and ABORT enter ABORTED with `out_failed`, and
change nothing else that still has a specified value; POP_FAIL raises OUTPUT_FAILURE with the position of the failed word; from
there on no operation of the coordinator is enabled, and of the agents' operations only RESET and READ_CSR.
Nothing is said of the datapath registers, `dp_owner`, `proc_idx` and the slots (93_implementation_defined.md U5, log 8). -/
def Obligations.AbortResult : Prop :=
  ∀ (s : State) (i : Instr), i = .popFail ∨ i = .abort →
    let v := s.slots.read (s.emitSeq % s.par.nSlots)
    (s.phase = .run ∨ s.phase = .drain) → v.state = .processed → s.emitIdx < 4 * v.nGroups →
    ∃ t, exec i s = .next t ∧
      t = { s with
        outFailed := true
        phase := .aborted
        raised := s.raised ++ (if i = .popFail then [.outputFailure s.emitSeq s.emitIdx] else [])
        dp := t.dp
        dpOwner := t.dpOwner
        procIdx := t.procIdx
        slots := t.slots
        freeCount := t.freeCount } ∧
      t.dp.haveCur = s.dp.haveCur ∧ inReady false t = false ∧ outValid false t = false ∧
      (∀ k, coordinatorOp k = true → enabled t k = false) ∧
      ∀ k, agentOp k = true → enabled t k = true → k = .reset ∨ ∃ idx, k = .readCsr idx

/-- 43_pipeline_coordinator.md R214, R215: WRITE_DONE, when every word of the Batch is delivered, and RELEASE, which recycles
the slot and leaves its contents. -/
def Obligations.BatchIsRecycled : Prop :=
  ∀ s : State,
    let j := s.emitSeq % s.par.nSlots
    s.slots.wf = true → (s.phase = .run ∨ s.phase = .drain) →
    ((s.slots.read j).state = .processed → s.emitIdx = 4 * (s.slots.read j).nGroups →
      ∃ t, exec .writeDone s = .next t ∧ t = { s with slots := t.slots } ∧
        t.slots.read j = { s.slots.read j with state := .emitted } ∧ ∀ k, k ≠ j → t.slots.read k = s.slots.read k) ∧
    ((s.slots.read j).state = .emitted →
      ∃ t, exec .release s = .next t ∧ t = { s with slots := t.slots, emitSeq := s.emitSeq + 1, emitIdx := 0 } ∧
        t.slots.read j = { s.slots.read j with state := .empty } ∧ ∀ k, k ≠ j → t.slots.read k = s.slots.read k)

/-- 43_pipeline_coordinator.md R217 and R226: FINISH runs when every Batch is written, and then every slot is Empty and
`dp_owner` is none. -/
def Obligations.FinishResult : Prop :=
  ∀ s : State, s.phase = .drain → s.fillCnt = 0 → s.emitSeq = s.fillSeq →
    exec .finish s = .next { s with phase := .done } ∧
    (CoordInv s → (∀ j, j < s.par.nSlots → (s.slots.read j).state = .empty) ∧ s.dpOwner = none ∧ s.procSeq = s.fillSeq)

/-- 43_pipeline_coordinator.md R193: the condition that enables each operation, row by row; in DONE and ABORTED none
of the coordinator's is enabled; an operation that is not enabled changes nothing. -/
def Obligations.GuardTable : Prop :=
  ∀ s : State,
    let live : Prop := s.phase = .run ∨ s.phase = .drain
    let jf := s.slots.read (s.fillSeq % s.par.nSlots)
    let jp := s.slots.read (s.procSeq % s.par.nSlots)
    let je := s.slots.read (s.emitSeq % s.par.nSlots)
    let take : Prop := (s.phase = .idle ∨ s.phase = .run) ∧ jf.state = .empty ∧ s.fillCnt < s.par.batchCap
    let offer : Prop := live ∧ je.state = .processed ∧ s.emitIdx < 4 * je.nGroups
    (∀ l r, enabled s (.pushFrame l r) = true ↔ take) ∧ (enabled s .endStream = true ↔ take) ∧
    (enabled s .closeBatch = true ↔ live ∧ 1 ≤ s.fillCnt) ∧
    (mustClose s = true ↔ (live ∧ 1 ≤ s.fillCnt) ∧ (s.fillCnt = s.par.batchCap ∨ s.eosSeen = true)) ∧
    (∀ k, enabled s (.claim k) = true ↔ live ∧ s.dpOwner = none ∧ jp.state = .filled) ∧
    (enabled s .processFrame = true ↔ live ∧ s.dpOwner ≠ none ∧ s.procIdx < jp.nFrames) ∧
    (enabled s .processDone = true ↔ live ∧ s.dpOwner ≠ none ∧ s.procIdx = jp.nFrames) ∧
    (enabled s .popWord = true ↔ offer) ∧ (enabled s .popFail = true ↔ offer) ∧
    (enabled s .writeDone = true ↔ live ∧ je.state = .processed ∧ s.emitIdx = 4 * je.nGroups) ∧
    (enabled s .release = true ↔ live ∧ je.state = .emitted) ∧
    (enabled s .finish = true ↔ s.phase = .drain ∧ s.fillCnt = 0 ∧ s.emitSeq = s.fillSeq) ∧
    (s.phase = .done ∨ s.phase = .aborted → ∀ i, coordinatorOp i = true → enabled s i = false) ∧
    (∀ i, enabled s i = false → (∀ k, i = .claim k → k < s.par.nCompute) → exec i s = .next s)

/-! ### The modulator -/

/-- 40_modulator.md R126: SCALE is one product with GAIN, on a wire; with a legal GAIN it is no larger than its operand. -/
def Obligations.ScaleResult : Prop :=
  ∀ (s : State) (ch : Channel) (x : Acc),
    let f := s.par.accFmt
    isFinite f x = true → legalGain f s.cfg.gain = true →
    exec (.scale ch x) s = .next { s with ret := .acc (mulAcc f x s.cfg.gain) } ∧
    isFinite f (mulAcc f x s.cfg.gain) = true ∧ |valueOf f (mulAcc f x s.cfg.gain)| ≤ |valueOf f x|

/-- 40_modulator.md R128 and R123: INTEGRATE updates the five accumulators in order, each from the value its predecessor has
just been given, one rounding an operation, with no clamp between; on a bounded channel and a finite operand every result is
finite. -/
def Obligations.IntegrateResult : Prop :=
  ∀ (s : State) (ch : Channel) (scaled : Acc),
    let f := s.par.accFmt
    let l := s.dp.lane ch
    let sub (a b : Acc) : Acc := addAcc f a (negAcc f b)
    let qv : Acc := match l.q with | .minus => setSign f (presetOne f) | .zero => 0 | .plus => presetOne f
    let s0 := addAcc f l.s0 (sub scaled qv)
    let s1 := addAcc f l.s1 (sub s0 (mulAcc f qv s.cfg.c1))
    let s2 := addAcc f l.s2 (sub s1 (mulAcc f qv s.cfg.c2))
    let s3 := addAcc f l.s3 (sub s2 (mulAcc f qv s.cfg.c3))
    let s4 := addAcc f l.s4 (sub s3 (mulAcc f qv s.cfg.c4))
    s.cfg.legal f = true → l.bounded f s.cfg.limit = true → isFinite f scaled = true →
    exec (.integrate ch scaled) s =
      .next { s with dp := s.dp.setLane ch { l with s0 := s0, s1 := s1, s2 := s2, s3 := s3, s4 := s4 } } ∧
    ∀ v ∈ [s0, s1, s2, s3, s4], isFinite f v = true

/-- 40_modulator.md R131: with PANIC_MULT = 0 PANIC_CHECK does nothing; else it zeroes the channel's accumulators exactly when
|s4| is above PANIC_MULT * LIMIT, a product of the exact integer PANIC_MULT rounded once. -/
def Obligations.PanicCheckResult : Prop :=
  ∀ (s : State) (ch : Channel),
    let f := s.par.accFmt
    let l := s.dp.lane ch
    let m := s.cfg.policy.extractLsb' 8 8
    let n := cvtInt f m.toNat
    let bound := mulAcc f n s.cfg.limit
    (m = 0 → exec (.panicCheck ch) s = .next s) ∧
    (m ≠ 0 → legalLimit f s.cfg.limit = true → isFinite f l.s4 = true →
      valueOf f n = m.toNat * 2 ^ unitScale f ∧ isFinite f bound = true ∧
      (valueOf f bound < |valueOf f l.s4| → exec (.panicCheck ch) s =
        .next { s with dp := s.dp.setLane ch { l with s0 := 0, s1 := 0, s2 := 0, s3 := 0, s4 := 0 } }) ∧
      (|valueOf f l.s4| ≤ valueOf f bound → exec (.panicCheck ch) s = .next s))

/-- 40_modulator.md R133: CLAMP makes each of the five accumulators the nearest value within [-LIMIT, +LIMIT], bounds
included, leaves a pattern inside the interval as it is, and writes nothing else. -/
def Obligations.ClampResult : Prop :=
  ∀ (s : State) (ch : Channel),
    let f := s.par.accFmt
    let l := s.dp.lane ch
    let hi := s.cfg.limit
    let one (a b : Acc) : Prop :=
      (valueOf f hi < valueOf f a → b = hi) ∧ (valueOf f a < -valueOf f hi → b = setSign f hi) ∧
      (-valueOf f hi ≤ valueOf f a ∧ valueOf f a ≤ valueOf f hi → b = a)
    legalLimit f hi = true → (∀ v ∈ l.accs, isFinite f v = true) →
    ∃ l', exec (.clamp ch) s = .next { s with dp := s.dp.setLane ch l' } ∧
      l' = { l with s0 := l'.s0, s1 := l'.s1, s2 := l'.s2, s3 := l'.s3, s4 := l'.s4 } ∧
      one l.s0 l'.s0 ∧ one l.s1 l'.s1 ∧ one l.s2 l'.s2 ∧ one l.s3 l'.s3 ∧ one l.s4 l'.s4 ∧
      l'.bounded f hi = true

/-- 40_modulator.md R135: QUANTIZE answers 1 exactly when s4 is not negative, both zeros included, and the feedback value
follows the bit. -/
def Obligations.QuantizeResult : Prop :=
  ∀ (s : State) (ch : Channel),
    let f := s.par.accFmt
    let l := s.dp.lane ch
    isFinite f l.s4 = true →
    (0 ≤ valueOf f l.s4 →
      exec (.quantize ch) s = .next { s with dp := s.dp.setLane ch { l with q := .plus }, ret := .bit true }) ∧
    (valueOf f l.s4 < 0 →
      exec (.quantize ch) s = .next { s with dp := s.dp.setLane ch { l with q := .minus }, ret := .bit false })

/-- 40_modulator.md R138 and R139: MODULATE runs on every finite operand of a legal, bounded channel, with every intermediate
finite, and leaves every accumulator finite and within [-LIMIT, +LIMIT] and the feedback value equal to the bit; it writes
nothing else. -/
def Obligations.ModulateBounded : Prop :=
  ∀ (s : State) (ch : Channel) (x : Acc),
    let f := s.par.accFmt
    s.cfg.legal f = true → (s.dp.lane ch).bounded f s.cfg.limit = true → isFinite f x = true →
    modulateFinite f s.cfg (s.dp.lane ch) x = true ∧
    ∃ l b, exec (.modulate ch x) s = .next { s with dp := s.dp.setLane ch l, ret := .bit b } ∧
      l.bounded f s.cfg.limit = true ∧ l.q = (if b then .plus else .minus) ∧ l.cur = (s.dp.lane ch).cur ∧
      l.nxt = (s.dp.lane ch).nxt ∧ l.sh = (s.dp.lane ch).sh

/-- 40_modulator.md R137: MODULATE is SCALE, INTEGRATE, PANIC_CHECK, CLAMP, QUANTIZE, in this order. -/
def Obligations.ModulateIsItsParts : Prop :=
  ∀ (s t : State) (ch : Channel) (x : Acc),
    exec (.modulate ch x) s = .next t ↔
      ∃ v a b c d, exec (.scale ch x) s = .next a ∧ a.ret = .acc v ∧ exec (.integrate ch v) a = .next b ∧
        exec (.panicCheck ch) b = .next c ∧ exec (.clamp ch) c = .next d ∧ exec (.quantize ch) d = .next t

/-- 40_modulator.md R125 (a) and 10_state.md R57, 93_implementation_defined.md U7: a NaN or an infinity as an operand, a read
of `nxt` outside a transition, and a read of a slot element that holds no value, is a fault and not a value. -/
def Obligations.StopsOfTheDatapath : Prop :=
  ∀ (s : State) (ch : Channel) (x : Acc),
    let f := s.par.accFmt
    (isFinite f x = false → exec (.scale ch x) s = .fault .nonFiniteOperand ∧
      exec (.integrate ch x) s = .fault .nonFiniteOperand ∧ exec (.modulate ch x) s = .fault .nonFiniteOperand) ∧
    (isFinite f (s.dp.lane ch).s4 = false → exec (.quantize ch) s = .fault .nonFiniteOperand ∧
      exec (.clamp ch) s = .fault .nonFiniteOperand ∧
      (s.cfg.policy.extractLsb' 8 8 ≠ 0 → exec (.panicCheck ch) s = .fault .nonFiniteOperand)) ∧
    (s.dp.inTransition = false → exec (.interp ch) s = .fault .nxtOutsideTransition ∧ exec .step s = .fault .nxtOutsideTransition ∧
      exec .transition s = .fault .nxtOutsideTransition) ∧
    (s.dp.inTransition = true → isFinite32 (s.dp.lane ch).nxt = false → exec (.interp ch) s = .fault .nonFiniteOperand) ∧
    (enabled s .processFrame = true → (s.slots.read (s.procSeq % s.par.nSlots)).frame s.procIdx = none →
      exec .processFrame s = .fault .slotDataUnwritten) ∧
    (enabled s .popWord = true → (s.slots.read (s.emitSeq % s.par.nSlots)).group (s.emitIdx / 4) = none →
      exec .popWord s = .fault .slotDataUnwritten) ∧
    (s.par.batchCap ≤ (s.slots.read (s.procSeq % s.par.nSlots)).nGroups → exec .emitGroup s = .fault .noGroupElement)

/-! ### The interpolator and the step sequencer -/

/-- 41_interpolator.md R152, R154 and R151, 40_modulator.md R122: INTERP is `cur*(1-w) + nxt*w` with the exact weights i/64 and
(64-i)/64 and exactly converted samples, three roundings; on finite samples it runs and its result is finite. That it needs the
model's own bit `inTransition` set is the model's choice (log 6). -/
def Obligations.InterpResult : Prop :=
  ∀ (s : State) (ch : Channel),
    let f := s.par.accFmt
    let l := s.dp.lane ch
    let i := s.dp.i.toNat
    let c := cvt f l.cur
    let n := cvt f l.nxt
    let w := weight f s.dp.i
    let a := addAcc f (presetOne f) (negAcc f w)
    s.dp.inTransition = true → isFinite32 l.cur = true → isFinite32 l.nxt = true →
    exec (.interp ch) s = .next { s with ret := .acc (addAcc f (mulAcc f c a) (mulAcc f n w)) } ∧
      isFinite f (addAcc f (mulAcc f c a) (mulAcc f n w)) = true ∧
      valueOf f c = valueOf .binary32 (l.cur.setWidth 64) * 2 ^ (unitScale f - unitScale .binary32) ∧
      valueOf f n = valueOf .binary32 (l.nxt.setWidth 64) * 2 ^ (unitScale f - unitScale .binary32) ∧
      signOf f c = l.cur.getLsbD 31 ∧ signOf f n = l.nxt.getLsbD 31 ∧
      64 * valueOf f w = i * 2 ^ unitScale f ∧ 64 * valueOf f a = (64 - i) * 2 ^ unitScale f

/-- 41_interpolator.md R153: at step 0 the interpolated value is `cur`, with the one exception of the sign of a zero. That it
needs the model's own bit `inTransition` set is the model's choice (log 6). -/
def Obligations.InterpAtStepZero : Prop :=
  ∀ (s : State) (ch : Channel),
    let f := s.par.accFmt
    let l := s.dp.lane ch
    s.dp.inTransition = true → isFinite32 l.cur = true → isFinite32 l.nxt = true → s.dp.i = 0 →
    ∃ x, exec (.interp ch) s = .next { s with ret := .acc x } ∧
      (x = cvt f l.cur ∨ (l.cur = 0x80000000 ∧ l.nxt.getLsbD 31 = false ∧ x = 0))

/-- 42_bit_packer.md R172: PACK_BIT shifts the channel's register up by one and puts the bit at bit 0. -/
def Obligations.PackBitResult : Prop :=
  ∀ (s : State) (ch : Channel) (b : Bool),
    ∃ w : OutWord, exec (.packBit ch b) s = .next { s with dp := s.dp.setLane ch { s.dp.lane ch with sh := w } } ∧
      w.getLsbD 0 = b ∧ ∀ k, k < 31 → w.getLsbD (k + 1) = (s.dp.lane ch).sh.getLsbD k

/-- 30_encoding.md R97: of the 32 bits of a half, the one of position `j` stands in bit `31 - j`, whatever the register held
before. -/
def Obligations.HalfIsMsbFirst : Prop :=
  ∀ (s : State) (ch : Channel) (bits : List Bool), bits.length = 32 →
    ∃ w : OutWord, execAll (bits.map (.packBit ch)) s =
        .next { s with dp := s.dp.setLane ch { s.dp.lane ch with sh := w } } ∧
      ∀ j, j < 32 → bits[j]? = some (w.getLsbD (31 - j))

/-- 42_bit_packer.md R174: CLOSE_HALF copies both shift registers into the two words of half `i div 32`, left before right. -/
def Obligations.CloseHalfResult : Prop :=
  ∀ s : State,
    (s.dp.i.toNat < 32 → exec .closeHalf s =
      .next { s with dp := { s.dp with wg := { s.dp.wg with w0 := s.dp.left.sh, w1 := s.dp.right.sh } } }) ∧
    (32 ≤ s.dp.i.toNat → exec .closeHalf s =
      .next { s with dp := { s.dp with wg := { s.dp.wg with w2 := s.dp.left.sh, w3 := s.dp.right.sh } } })

/-- 42_bit_packer.md R176: EMIT_GROUP appends the four words to the slot at `proc_seq` and to no other. -/
def Obligations.EmitGroupResult : Prop :=
  ∀ s : State,
    let j := s.procSeq % s.par.nSlots
    let v := s.slots.read j
    s.slots.wf = true → v.nGroups < s.par.batchCap →
    ∃ t, exec .emitGroup s = .next t ∧ t = { s with slots := t.slots } ∧
      (t.slots.read j).group v.nGroups = some s.dp.wg ∧ (t.slots.read j).nGroups = v.nGroups + 1 ∧
      (∀ n, n ≠ v.nGroups → (t.slots.read j).group n = v.group n) ∧
      (t.slots.read j).state = v.state ∧ (t.slots.read j).nFrames = v.nFrames ∧ (t.slots.read j).frames = v.frames ∧
      ∀ k, k ≠ j → t.slots.read k = s.slots.read k

/-- 41_interpolator.md R156: STEP is INTERP, MODULATE and PACK_BIT of both channels, CLOSE_HALF after steps 31 and 63,
EMIT_GROUP after step 63, and the step index one on, from 63 to 0. -/
def Obligations.StepIsItsParts : Prop :=
  ∀ s t : State, exec .step s = .next t →
    ∃ xL xR bL bR a b c d e g,
      exec (.interp .left) s = .next { s with ret := .acc xL } ∧ exec (.interp .right) s = .next { s with ret := .acc xR } ∧
      exec (.modulate .left xL) s = .next a ∧ a.ret = .bit bL ∧
      exec (.modulate .right xR) a = .next b ∧ b.ret = .bit bR ∧
      exec (.packBit .left bL) b = .next c ∧ exec (.packBit .right bR) c = .next d ∧
      (if s.dp.i.toNat % 32 = 31 then exec .closeHalf d = .next e else e = d) ∧
      (if s.dp.i.toNat = 63 then exec .emitGroup e = .next g else g = e) ∧
      t = { g with dp := t.dp, ret := s.ret } ∧
      t.dp = { g.dp with i := t.dp.i } ∧ t.dp.i.toNat = (s.dp.i.toNat + 1) % 64

/-- 41_interpolator.md R156 with 40_modulator.md R138 and 41_interpolator.md R154: STEP completes on a legal configuration, a
bounded datapath and finite samples, if after step 63 there is an element for the group, and keeps all of these. That it needs
the model's own bit `inTransition` set, and keeps it, is the model's choice (log 6). -/
def Obligations.StepCompletes : Prop :=
  ∀ s : State, datapathReady s = true → s.dp.inTransition = true →
    (s.dp.i = 63 → (s.slots.read (s.procSeq % s.par.nSlots)).nGroups < s.par.batchCap) →
    ∃ t, exec .step s = .next t ∧ t = { s with dp := t.dp, slots := t.slots } ∧ datapathReady t = true ∧
      t.dp.inTransition = true ∧ t.dp.haveCur = s.dp.haveCur ∧ t.dp.i = s.dp.i + 1 ∧
      (∀ ch, (t.dp.lane ch).cur = (s.dp.lane ch).cur ∧ (t.dp.lane ch).nxt = (s.dp.lane ch).nxt ∧
        (t.dp.lane ch).q ≠ .zero ∧
        (t.dp.lane ch).sh = (s.dp.lane ch).sh.extractLsb' 0 31 ++ BitVec.ofBool ((t.dp.lane ch).q == .plus)) ∧
      (s.dp.i ≠ 63 → t.slots = s.slots)

/-- 41_interpolator.md R158: TRANSITION is 64 STEPs and then `cur` takes `nxt`. R158 gives `have_cur` = 1 and `i` = 0 as a
precondition; that TRANSITION does the same from any other state is the model's choice (log 25), and so is that it clears the model's own bit
`inTransition` (log 6). -/
def Obligations.TransitionIsSteps : Prop :=
  ∀ s t : State, exec .transition s = .next t ↔
    ∃ u, execAll (List.replicate 64 .step) s = .next u ∧
      t = { u with dp := { u.dp with
        left := { u.dp.left with cur := u.dp.left.nxt }
        right := { u.dp.right with cur := u.dp.right.nxt }
        inTransition := false } }

/-- 41_interpolator.md R158: from `i` = 0, TRANSITION completes on a legal configuration, a bounded datapath and finite
samples; `i` is 0 again, exactly one Word Group has been appended to the slot at `proc_seq`, and `cur` holds `nxt`. The datapath
stays bounded and finite by 40_modulator.md R138, R139 and 41_interpolator.md R154. The model's choices: what happens with
`have_cur` = 0, which the precondition of R158 leaves out (log 25), and its own bit `inTransition`, set before and clear
after (log 6). -/
def Obligations.TransitionCompletes : Prop :=
  ∀ s : State,
    let j := s.procSeq % s.par.nSlots
    let v := s.slots.read j
    s.slots.wf = true → datapathReady s = true → s.dp.inTransition = true → s.dp.i = 0 → v.nGroups < s.par.batchCap →
    ∃ t, exec .transition s = .next t ∧ t = { s with dp := t.dp, slots := t.slots } ∧ datapathReady t = true ∧
      t.dp.i = 0 ∧ t.dp.haveCur = s.dp.haveCur ∧ t.dp.inTransition = false ∧
      (∀ ch, (t.dp.lane ch).cur = (s.dp.lane ch).nxt ∧ (t.dp.lane ch).nxt = (s.dp.lane ch).nxt) ∧
      t.dp.wg.w2 = t.dp.left.sh ∧ t.dp.wg.w3 = t.dp.right.sh ∧
      (t.slots.read j).group v.nGroups = some t.dp.wg ∧ (t.slots.read j).nGroups = v.nGroups + 1 ∧
      (∀ n, n ≠ v.nGroups → (t.slots.read j).group n = v.group n) ∧
      (t.slots.read j).state = v.state ∧ (t.slots.read j).nFrames = v.nFrames ∧ (t.slots.read j).frames = v.frames ∧
      ∀ k, k ≠ j → t.slots.read k = s.slots.read k

/-! ### Encodings -/

/-- 30_encoding.md R92 to R95, R99, R110: every well-formed operation is read back from the beat it travels in, with every
operand, in both number formats. -/
def Obligations.DecodeEncode : Prop :=
  ∀ (p : Params) (i : Instr), i.wellFormed p = true → decode p.accFmt (encode p.accFmt i) = .ok i

/-- 30_encoding.md R110 with the model's record layout (log 4): a trace record and the operation it names determine each
other. -/
def Obligations.RecordRoundTrip : Prop :=
  (∀ i : Instr, (∀ k, i = .claim k → k < 2 ^ 64) → decodeRecord (encodeRecord i) = .ok i) ∧
  (∀ (r : BitVec 80) (i : Instr), decodeRecord r = .ok i → encodeRecord i = r)

/-- 30_encoding.md R111: a record with the OPID 00111 or 10101 to 10111 names no operation: the decoder refuses it, and so
does a step that meets it. -/
def Obligations.ReservedOpidsRefused : Prop :=
  ∀ (r : BitVec 80) (s : State) (rest : List Beat),
    (r.extractLsb' 0 5).toNat ∈ [0b00111, 0b10101, 0b10110, 0b10111] → r.extractLsb' 5 3 = 0 →
    decodeRecord r = .error .reservedOpid ∧
    (s.script = .opid r :: rest → step s = .refused .reservedOpid)

/-- 30_encoding.md R91 to R95, R97, R99, R110: words written out from the spec's encodings are read as the operations they
stand for. -/
def Obligations.SampleWordsDecode : Prop :=
  decode .binary32 (.pin true) = .ok .reset ∧
  decode .binary32 (.cfg 0x103E800000) = .ok (.loadCfg 0 0x3E800000) ∧
  decode .binary32 (.cfg 0x0700000000) = .ok (.readCsr 7) ∧
  decode .binary64 (.cfg 0x153FE0000000000000) = .ok (.loadCfg 5 0x3FE0000000000000) ∧
  decode .binary32 (.inp 0x03F800000BF800000) = .ok (.pushFrame 0x3F800000 0xBF800000) ∧
  decode .binary32 (.inp 0x1DEADBEEF00000001) = .ok .endStream ∧
  decode .binary32 (.out true false) = .ok .popWord ∧
  decode .binary32 (.out true true) = .ok .popFail ∧
  decode .binary32 (.opid 0b01001) = .ok (.interp .left) ∧
  decode .binary32 (.opid 0x3F000000_01_12) = .ok (.modulate .right 0x3F000000) ∧
  decode .binary32 (.opid 0b10011) = .ok .step ∧
  decode .binary32 (.opid 0x01_01_0F) = .ok (.packBit .right true) ∧
  decode .binary32 (.opid 0x03_00_19) = .ok (.claim 3) ∧
  decode .binary32 (.opid 0b11111) = .ok .abort

/-- 00_scope.md R13 (log 1): a step takes the next beat of the schedule and runs the operation the decoder reads from it, on
the state with that beat taken and the wires of the operation before cleared (log 10); with nothing put forward it only clears
the wires, and a port that transfers nothing changes nothing else. -/
def Obligations.StepRunsTheDecoded : Prop :=
  ∀ s : State,
    let q (rest : List Beat) : State := { s with ret := .none, raised := [], script := rest }
    (∀ b rest i, s.script = b :: rest → decode s.par.accFmt b = .ok i → step s = exec i (q rest)) ∧
    (∀ b rest, s.script = b :: rest → decode s.par.accFmt b = .error .noTransfer → step s = .next (q rest)) ∧
    (s.script = [] → step s = .next (q []))

/-! ### Invariants and rules of the whole machine -/

/-- 10_state.md R55, R56: the reset state of every legal instance has the coordinator's order, a legal configuration, and a
datapath that is bounded and finite. That `nxt` is finite there is the model's choice, +0.0, where R55 leaves it unspecified
(log 6). -/
def Obligations.InvariantsAtReset : Prop :=
  ∀ p : Params, p.legal = true →
    CoordInv (State.resetOf p) ∧ (State.resetOf p).cfg.legal p.accFmt = true ∧ datapathReady (State.resetOf p) = true

/-- 10_state.md R33, R56 (4), (5): every step keeps the coordinator's order, whatever is put forward. -/
def Obligations.CoordInvKept : Prop := ∀ s t : State, CoordInv s → step s = .next t → CoordInv t

/-- 10_state.md R56 (5): under the coordinator's order every slot holds exactly one Batch number of the current turn of the
ring, and its state says where in the pipeline that Batch is. -/
def Obligations.SlotStateNamesItsStage : Prop :=
  ∀ (s : State) (j : Nat), CoordInv s → j < s.par.nSlots →
    ∃ n, s.emitSeq ≤ n ∧ n < s.emitSeq + s.par.nSlots ∧ n % s.par.nSlots = j ∧
      (∀ m, s.emitSeq ≤ m → m < s.emitSeq + s.par.nSlots → m % s.par.nSlots = j → m = n) ∧
      ((s.slots.read j).state = .filled ↔ s.procSeq ≤ n ∧ n < s.fillSeq) ∧
      ((s.slots.read j).state = .processed ∨ (s.slots.read j).state = .emitted ↔ n < s.procSeq) ∧
      ((s.slots.read j).state = .empty ↔ s.fillSeq ≤ n)

/-- 10_state.md R47: outside IDLE no operation but RESET writes a configuration register or returns to IDLE, and no
configuration write is accepted. -/
def Obligations.ConfigLocked : Prop :=
  ∀ (s t : State) (i : Instr), s.phase ≠ .idle → i ≠ .reset → exec i s = .next t →
    t.cfg = s.cfg ∧ t.phase ≠ .idle ∧ cfgReady false true s = false

/-- 10_state.md R40, R48: a legal configuration stays legal, whatever is written. -/
def Obligations.ConfigStaysLegal : Prop :=
  ∀ s t : State, s.cfg.legal s.par.accFmt = true → step s = .next t → t.par = s.par ∧ t.cfg.legal t.par.accFmt = true

/-- 44_system.md R237: the operations that change PHASE, the changes they make, and the operations of the agents that are
possible in each phase. -/
def Obligations.PhaseMoves : Prop :=
  (∀ (s t : State) (i : Instr), exec i s = .next t →
    t.phase = s.phase ∨ (i = .reset ∧ t.phase = .idle) ∨
    ((∃ l r, i = .pushFrame l r) ∧ s.phase = .idle ∧ t.phase = .run) ∨
    (i = .endStream ∧ (s.phase = .idle ∨ s.phase = .run) ∧ t.phase = .drain) ∨
    (i = .finish ∧ s.phase = .drain ∧ t.phase = .done) ∨
    ((i = .popFail ∨ i = .abort) ∧ (s.phase = .run ∨ s.phase = .drain) ∧ t.phase = .aborted)) ∧
  (∀ (s : State) (i : Instr), agentOp i = true → enabled s i = true → i ≠ .reset → (∀ idx, i ≠ .readCsr idx) →
    s.phase ≠ .done ∧ s.phase ≠ .aborted ∧
    (s.phase = .idle → (∃ idx data, i = .loadCfg idx data) ∨ (∃ l r, i = .pushFrame l r) ∨ i = .endStream) ∧
    (s.phase = .run → ∀ idx data, i ≠ .loadCfg idx data) ∧
    (s.phase = .drain → (∀ idx data, i ≠ .loadCfg idx data) ∧ (∀ l r, i ≠ .pushFrame l r) ∧ i ≠ .endStream))

/-- 10_state.md R35: the flags are set only by the operations named for them, and cleared only by RESET. -/
def Obligations.FlagsAreSticky : Prop :=
  ∀ (s t : State) (i : Instr), exec i s = .next t → i ≠ .reset →
    (s.eosSeen = true → t.eosSeen = true) ∧ (s.outFailed = true → t.outFailed = true) ∧
    (s.nonfiniteSeen = true → t.nonfiniteSeen = true) ∧ (s.cfgFallback = true → t.cfgFallback = true) ∧
    (s.dp.haveCur = true → t.dp.haveCur = true) ∧
    (t.eosSeen ≠ s.eosSeen → i = .endStream) ∧ (t.outFailed ≠ s.outFailed → i = .popFail ∨ i = .abort) ∧
    (t.nonfiniteSeen ≠ s.nonfiniteSeen → (∃ l r, i = .pushFrame l r) ∨ ∃ x, i = .sanitize x) ∧
    (t.cfgFallback ≠ s.cfgFallback → ∃ idx data, i = .loadCfg idx data) ∧
    (t.dp.haveCur ≠ s.dp.haveCur → i = .processFrame)

/-- 10_state.md R33, R38: the sequence counters and the ghost counters only ever rise by one, each by its own operation, until
RESET. -/
def Obligations.CountersRiseByOne : Prop :=
  ∀ (s t : State) (i : Instr), exec i s = .next t → i ≠ .reset →
    (t.fillSeq = s.fillSeq ∨ (i = .closeBatch ∧ t.fillSeq = s.fillSeq + 1)) ∧
    (t.procSeq = s.procSeq ∨ (i = .processDone ∧ t.procSeq = s.procSeq + 1)) ∧
    (t.emitSeq = s.emitSeq ∨ (i = .release ∧ t.emitSeq = s.emitSeq + 1)) ∧
    ((t.nFramesIn = s.nFramesIn ∧ t.inStream = s.inStream) ∨
      ∃ l r, i = .pushFrame l r ∧ t.nFramesIn = s.nFramesIn + 1 ∧ t.inStream = s.inStream ++ [⟨l, r⟩]) ∧
    ((t.nWordsOut = s.nWordsOut ∧ t.outStream = s.outStream) ∨
      ∃ w, i = .popWord ∧ t.nWordsOut = s.nWordsOut + 1 ∧ t.outStream = s.outStream ++ [w])

/-- 43_pipeline_coordinator.md R192: a slot's state goes Empty, Filled, Processed, Emitted, Empty by the four operations named,
and no operation skips a state or goes backwards. -/
def Obligations.SlotLifeCycle : Prop :=
  ∀ (s t : State) (i : Instr) (j : Nat), CoordInv s → exec i s = .next t → i ≠ .reset →
    let a := (s.slots.read j).state
    let b := (t.slots.read j).state
    b = a ∨ (i = .closeBatch ∧ a = .empty ∧ b = .filled) ∨ (i = .processDone ∧ a = .filled ∧ b = .processed) ∨
      (i = .writeDone ∧ a = .processed ∧ b = .emitted) ∨ (i = .release ∧ a = .emitted ∧ b = .empty)

/-- 60_exceptions.md R270, 10_state.md R28: each role writes its own slot, counters and registers and nothing of the others'.
RESET, and ABORT with its unspecified values, apart. -/
def Obligations.RolesWriteTheirOwn : Prop :=
  ∀ (s t : State) (i : Instr), s.slots.wf = true → exec i s = .next t → i ≠ .reset → i ≠ .popFail → i ≠ .abort →
    (agentOf i ≠ .reader → t.fillSeq = s.fillSeq ∧ t.fillCnt = s.fillCnt ∧ t.eosSeen = s.eosSeen ∧
      t.nonfiniteSeen = s.nonfiniteSeen) ∧
    (agentOf i ≠ .compute → t.dp = s.dp ∧ t.procSeq = s.procSeq ∧ t.procIdx = s.procIdx ∧ t.dpOwner = s.dpOwner) ∧
    (agentOf i ≠ .writer → t.emitSeq = s.emitSeq ∧ t.emitIdx = s.emitIdx ∧ t.outStream = s.outStream) ∧
    (agentOf i ≠ .host → t.cfg = s.cfg ∧ t.cfgFallback = s.cfgFallback) ∧
    (∀ j, t.slots.read j ≠ s.slots.read j →
      (agentOf i = .reader ∧ j = s.fillSeq % s.par.nSlots) ∨ (agentOf i = .compute ∧ j = s.procSeq % s.par.nSlots) ∨
        (agentOf i = .writer ∧ j = s.emitSeq % s.par.nSlots))

/-- 10_state.md R21, 40_modulator.md R141: what a STEP or a TRANSITION makes of one channel's registers and words does not
depend on the other channel's. -/
def Obligations.ChannelsAreIndependent : Prop :=
  ∀ (s t t' : State) (other : Lane) (i : Instr), i = .step ∨ i = .transition → exec i s = .next t →
    (exec i { s with dp := { s.dp with right := other } } = .next t' →
      t'.dp.left = t.dp.left ∧ t'.dp.wg.w0 = t.dp.wg.w0 ∧ t'.dp.wg.w2 = t.dp.wg.w2) ∧
    (exec i { s with dp := { s.dp with left := other } } = .next t' →
      t'.dp.right = t.dp.right ∧ t'.dp.wg.w1 = t.dp.wg.w1 ∧ t'.dp.wg.w3 = t.dp.wg.w3)

/-- 43_pipeline_coordinator.md R219: in DRAIN the pipeline never stands still: while the coordinator's order holds, some role's
own operation that works towards the end is enabled. -/
def Obligations.DrainAlwaysMoves : Prop :=
  ∀ s : State, CoordInv s → s.phase = .drain →
    ∃ i ∈ [Instr.closeBatch, .claim 0, .processFrame, .processDone, .popWord, .writeDone, .release, .finish],
      i.wellFormed s.par = true ∧ enabled s i = true

/-- 60_exceptions.md R261: when END_STREAM and a failed word meet in one cycle, ABORT wins, with both flags set. -/
def Obligations.AbortWinsTheCycle : Prop :=
  ∀ (s : State) (p : PinsIn), p.rst = false → p.inValid = true → p.inBeat.getLsbD 64 = true → p.outErr = true →
    p.cfgBeat.toNat < 2 ^ (s.par.accFmt.width + 5) → inReady false s = true → outValid false s = true →
    ∃ t, cycle p s = .next t ∧ t.phase = .aborted ∧ t.eosSeen = true ∧ t.outFailed = true

/-! ### What the pipeline computes -/

/-- 43_pipeline_coordinator.md R220 with 40_modulator.md R138 and 41_interpolator.md R154: the reference function has a value
for every legal configuration and every sequence of input patterns, of 4 * max(n - 1, 0) words, and a longer input only adds
words. -/
def Obligations.GoldenIsTotal : Prop :=
  ∀ (p : Params) (c : CfgRegs) (xs ys : List Frame), c.legal p.accFmt = true →
    ∃ ws vs, golden p c xs = .ok ws ∧ golden p c (xs ++ ys) = .ok (ws ++ vs) ∧ ws.length = 4 * (xs.length - 1)

/-- 43_pipeline_coordinator.md R221: in every state of every run, for every instance and every schedule, the words delivered
are a prefix of the reference output of the Frames accepted, and in DONE they are the whole of it. -/
def Obligations.OutputIsGolden : Prop :=
  ∀ s : State, AgentRun s →
    ∃ ws, golden s.par s.cfg s.inStream = .ok ws ∧ s.outStream <+: ws ∧ (s.phase = .done → s.outStream = ws)

/-- 40_modulator.md R138, R140, 41_interpolator.md R154, 10_state.md R57: no run of the agents ever faults: no NaN reaches the
datapath and nothing unwritten is read. -/
def Obligations.RunsNeverFault : Prop :=
  ∀ s : State, AgentRun s → ∀ e : Fault, step s ≠ .fault e

/-- 43_pipeline_coordinator.md R222: N Frames give 4 * (N - 1) words at DONE and never more before. -/
def Obligations.BitCountLaw : Prop :=
  ∀ s : State, AgentRun s →
    s.nFramesIn = s.inStream.length ∧ s.nWordsOut = s.outStream.length ∧ s.nWordsOut ≤ 4 * (s.nFramesIn - 1) ∧
    (s.phase = .done → s.nWordsOut = 4 * (s.nFramesIn - 1))

/-! ### Arithmetic and serialisation -/

/-- 40_modulator.md R121 (the meaning of a correct rounding is the spec's general knowledge, log 19): no finite pattern lies
nearer to the exact sum or product than the result, and of two equally near ones the result has an even fraction. -/
def Obligations.CorrectRounding : Prop :=
  ∀ (f : AccFmt) (a b c : Acc), isFinite f a = true → isFinite f b = true → isFinite f c = true →
    let sum := valueOf f a + valueOf f b
    let prod := valueOf f a * valueOf f b
    let unit : Int := 2 ^ unitScale f
    (isFinite f (addAcc f a b) = true →
      |valueOf f (addAcc f a b) - sum| ≤ |valueOf f c - sum| ∧
      (|valueOf f (addAcc f a b) - sum| = |valueOf f c - sum| → valueOf f c ≠ valueOf f (addAcc f a b) →
        magOf f (addAcc f a b) % 2 = 0)) ∧
    (isFinite f (mulAcc f a b) = true →
      |valueOf f (mulAcc f a b) * unit - prod| ≤ |valueOf f c * unit - prod| ∧
      (|valueOf f (mulAcc f a b) * unit - prod| = |valueOf f c * unit - prod| →
        valueOf f c ≠ valueOf f (mulAcc f a b) → magOf f (mulAcc f a b) % 2 = 0))

/-- 42_bit_packer.md R181: where each step's bit stands in the 16 bytes of a group. -/
def Obligations.GroupBytesDecode : Prop :=
  ∀ (g : WordGroup) (t : Nat), t < 64 →
    groupBit (streamBytes g.words) .left t = some ((if t < 32 then g.w0 else g.w2).getLsbD (31 - t % 32)) ∧
    groupBit (streamBytes g.words) .right t = some ((if t < 32 then g.w1 else g.w3).getLsbD (31 - t % 32))

/-- 20_memory.md R64, R67, 30_encoding.md R100: the byte-stream adapter, outside the block (log 30), finds every Frame of a byte
stream in the instance's byte order, drops a residue of 1 to 7 bytes, and offers one PUSH_FRAME a Frame and one END_STREAM. -/
def Obligations.AdapterFindsTheFrames : Prop :=
  ∀ (p : Params) (xs : List Frame) (residue : List Byte), residue.length < 8 →
    let o := p.inByteOrder
    let bytes := xs.flatMap (fun x => bytesOfSample o x.left ++ bytesOfSample o x.right) ++ residue
    framesOfBytes p bytes = xs ∧
    (adapterBeats p bytes).map (decode p.accFmt) =
      xs.map (fun x => .ok (.pushFrame x.left x.right)) ++ [.ok .endStream]

end Statements
end

