-- ==== Sys2Proof/Laws/State.lean ====
section
/-!
SUPPORT. What each named update does to each field: one simp lemma per field per update, so that no later proof unfolds a
record update.
-/

namespace Sys2Proof.Machine


/-! ### State.quiet -/

@[simp] theorem quiet_par (s : State) : s.quiet.par = s.par := rfl
@[simp] theorem quiet_dp (s : State) : s.quiet.dp = s.dp := rfl
@[simp] theorem quiet_cfg (s : State) : s.quiet.cfg = s.cfg := rfl
@[simp] theorem quiet_phase (s : State) : s.quiet.phase = s.phase := rfl
@[simp] theorem quiet_eosSeen (s : State) : s.quiet.eosSeen = s.eosSeen := rfl
@[simp] theorem quiet_outFailed (s : State) : s.quiet.outFailed = s.outFailed := rfl
@[simp] theorem quiet_nonfiniteSeen (s : State) : s.quiet.nonfiniteSeen = s.nonfiniteSeen := rfl
@[simp] theorem quiet_cfgFallback (s : State) : s.quiet.cfgFallback = s.cfgFallback := rfl
@[simp] theorem quiet_slots (s : State) : s.quiet.slots = s.slots := rfl
@[simp] theorem quiet_fillSeq (s : State) : s.quiet.fillSeq = s.fillSeq := rfl
@[simp] theorem quiet_procSeq (s : State) : s.quiet.procSeq = s.procSeq := rfl
@[simp] theorem quiet_emitSeq (s : State) : s.quiet.emitSeq = s.emitSeq := rfl
@[simp] theorem quiet_fillCnt (s : State) : s.quiet.fillCnt = s.fillCnt := rfl
@[simp] theorem quiet_procIdx (s : State) : s.quiet.procIdx = s.procIdx := rfl
@[simp] theorem quiet_emitIdx (s : State) : s.quiet.emitIdx = s.emitIdx := rfl
@[simp] theorem quiet_dpOwner (s : State) : s.quiet.dpOwner = s.dpOwner := rfl
@[simp] theorem quiet_nFramesIn (s : State) : s.quiet.nFramesIn = s.nFramesIn := rfl
@[simp] theorem quiet_nWordsOut (s : State) : s.quiet.nWordsOut = s.nWordsOut := rfl
@[simp] theorem quiet_inStream (s : State) : s.quiet.inStream = s.inStream := rfl
@[simp] theorem quiet_outStream (s : State) : s.quiet.outStream = s.outStream := rfl
@[simp] theorem quiet_ret (s : State) : s.quiet.ret = .none := rfl
@[simp] theorem quiet_raised (s : State) : s.quiet.raised = [] := rfl
@[simp] theorem quiet_freeCount (s : State) : s.quiet.freeCount = s.freeCount := rfl
@[simp] theorem quiet_script (s : State) : s.quiet.script = s.script := rfl

/-! ### placeBeat -/

@[simp] theorem placeBeat_par (s : State) (b : Beat) : (placeBeat s b).par = s.par := rfl
@[simp] theorem placeBeat_dp (s : State) (b : Beat) : (placeBeat s b).dp = s.dp := rfl
@[simp] theorem placeBeat_cfg (s : State) (b : Beat) : (placeBeat s b).cfg = s.cfg := rfl
@[simp] theorem placeBeat_phase (s : State) (b : Beat) : (placeBeat s b).phase = s.phase := rfl
@[simp] theorem placeBeat_eosSeen (s : State) (b : Beat) : (placeBeat s b).eosSeen = s.eosSeen := rfl
@[simp] theorem placeBeat_outFailed (s : State) (b : Beat) : (placeBeat s b).outFailed = s.outFailed := rfl
@[simp] theorem placeBeat_nonfiniteSeen (s : State) (b : Beat) : (placeBeat s b).nonfiniteSeen = s.nonfiniteSeen := rfl
@[simp] theorem placeBeat_cfgFallback (s : State) (b : Beat) : (placeBeat s b).cfgFallback = s.cfgFallback := rfl
@[simp] theorem placeBeat_slots (s : State) (b : Beat) : (placeBeat s b).slots = s.slots := rfl
@[simp] theorem placeBeat_fillSeq (s : State) (b : Beat) : (placeBeat s b).fillSeq = s.fillSeq := rfl
@[simp] theorem placeBeat_procSeq (s : State) (b : Beat) : (placeBeat s b).procSeq = s.procSeq := rfl
@[simp] theorem placeBeat_emitSeq (s : State) (b : Beat) : (placeBeat s b).emitSeq = s.emitSeq := rfl
@[simp] theorem placeBeat_fillCnt (s : State) (b : Beat) : (placeBeat s b).fillCnt = s.fillCnt := rfl
@[simp] theorem placeBeat_procIdx (s : State) (b : Beat) : (placeBeat s b).procIdx = s.procIdx := rfl
@[simp] theorem placeBeat_emitIdx (s : State) (b : Beat) : (placeBeat s b).emitIdx = s.emitIdx := rfl
@[simp] theorem placeBeat_dpOwner (s : State) (b : Beat) : (placeBeat s b).dpOwner = s.dpOwner := rfl
@[simp] theorem placeBeat_nFramesIn (s : State) (b : Beat) : (placeBeat s b).nFramesIn = s.nFramesIn := rfl
@[simp] theorem placeBeat_nWordsOut (s : State) (b : Beat) : (placeBeat s b).nWordsOut = s.nWordsOut := rfl
@[simp] theorem placeBeat_inStream (s : State) (b : Beat) : (placeBeat s b).inStream = s.inStream := rfl
@[simp] theorem placeBeat_outStream (s : State) (b : Beat) : (placeBeat s b).outStream = s.outStream := rfl
@[simp] theorem placeBeat_ret (s : State) (b : Beat) : (placeBeat s b).ret = s.ret := rfl
@[simp] theorem placeBeat_raised (s : State) (b : Beat) : (placeBeat s b).raised = s.raised := rfl
@[simp] theorem placeBeat_freeCount (s : State) (b : Beat) : (placeBeat s b).freeCount = s.freeCount := rfl
@[simp] theorem placeBeat_script (s : State) (b : Beat) : (placeBeat s b).script = b :: s.script := rfl

/-! ### raiseEvent -/

@[simp] theorem raiseEvent_par (e : Event) (s : State) : (raiseEvent e s).par = s.par := rfl
@[simp] theorem raiseEvent_dp (e : Event) (s : State) : (raiseEvent e s).dp = s.dp := rfl
@[simp] theorem raiseEvent_cfg (e : Event) (s : State) : (raiseEvent e s).cfg = s.cfg := rfl
@[simp] theorem raiseEvent_phase (e : Event) (s : State) : (raiseEvent e s).phase = s.phase := rfl
@[simp] theorem raiseEvent_eosSeen (e : Event) (s : State) : (raiseEvent e s).eosSeen = s.eosSeen := rfl
@[simp] theorem raiseEvent_outFailed (e : Event) (s : State) : (raiseEvent e s).outFailed = s.outFailed := rfl
@[simp] theorem raiseEvent_nonfiniteSeen (e : Event) (s : State) : (raiseEvent e s).nonfiniteSeen = s.nonfiniteSeen := rfl
@[simp] theorem raiseEvent_cfgFallback (e : Event) (s : State) : (raiseEvent e s).cfgFallback = s.cfgFallback := rfl
@[simp] theorem raiseEvent_slots (e : Event) (s : State) : (raiseEvent e s).slots = s.slots := rfl
@[simp] theorem raiseEvent_fillSeq (e : Event) (s : State) : (raiseEvent e s).fillSeq = s.fillSeq := rfl
@[simp] theorem raiseEvent_procSeq (e : Event) (s : State) : (raiseEvent e s).procSeq = s.procSeq := rfl
@[simp] theorem raiseEvent_emitSeq (e : Event) (s : State) : (raiseEvent e s).emitSeq = s.emitSeq := rfl
@[simp] theorem raiseEvent_fillCnt (e : Event) (s : State) : (raiseEvent e s).fillCnt = s.fillCnt := rfl
@[simp] theorem raiseEvent_procIdx (e : Event) (s : State) : (raiseEvent e s).procIdx = s.procIdx := rfl
@[simp] theorem raiseEvent_emitIdx (e : Event) (s : State) : (raiseEvent e s).emitIdx = s.emitIdx := rfl
@[simp] theorem raiseEvent_dpOwner (e : Event) (s : State) : (raiseEvent e s).dpOwner = s.dpOwner := rfl
@[simp] theorem raiseEvent_nFramesIn (e : Event) (s : State) : (raiseEvent e s).nFramesIn = s.nFramesIn := rfl
@[simp] theorem raiseEvent_nWordsOut (e : Event) (s : State) : (raiseEvent e s).nWordsOut = s.nWordsOut := rfl
@[simp] theorem raiseEvent_inStream (e : Event) (s : State) : (raiseEvent e s).inStream = s.inStream := rfl
@[simp] theorem raiseEvent_outStream (e : Event) (s : State) : (raiseEvent e s).outStream = s.outStream := rfl
@[simp] theorem raiseEvent_ret (e : Event) (s : State) : (raiseEvent e s).ret = s.ret := rfl
@[simp] theorem raiseEvent_raised (e : Event) (s : State) : (raiseEvent e s).raised = s.raised ++ [e] := rfl
@[simp] theorem raiseEvent_freeCount (e : Event) (s : State) : (raiseEvent e s).freeCount = s.freeCount := rfl
@[simp] theorem raiseEvent_script (e : Event) (s : State) : (raiseEvent e s).script = s.script := rfl

/-! ### noteSample -/

@[simp] theorem noteSample_par (ch : Option Channel) (x : Sample) (s : State) : (noteSample ch x s).par = s.par := by
  unfold noteSample; split <;> rfl
@[simp] theorem noteSample_dp (ch : Option Channel) (x : Sample) (s : State) : (noteSample ch x s).dp = s.dp := by
  unfold noteSample; split <;> rfl
@[simp] theorem noteSample_cfg (ch : Option Channel) (x : Sample) (s : State) : (noteSample ch x s).cfg = s.cfg := by
  unfold noteSample; split <;> rfl
@[simp] theorem noteSample_phase (ch : Option Channel) (x : Sample) (s : State) : (noteSample ch x s).phase = s.phase := by
  unfold noteSample; split <;> rfl
@[simp] theorem noteSample_eosSeen (ch : Option Channel) (x : Sample) (s : State) : (noteSample ch x s).eosSeen = s.eosSeen := by
  unfold noteSample; split <;> rfl
@[simp] theorem noteSample_outFailed (ch : Option Channel) (x : Sample) (s : State) : (noteSample ch x s).outFailed = s.outFailed := by
  unfold noteSample; split <;> rfl
@[simp] theorem noteSample_nonfiniteSeen (ch : Option Channel) (x : Sample) (s : State) : (noteSample ch x s).nonfiniteSeen = (s.nonfiniteSeen || !isFinite32 x) := by
  unfold noteSample; split <;> simp [*]
@[simp] theorem noteSample_cfgFallback (ch : Option Channel) (x : Sample) (s : State) : (noteSample ch x s).cfgFallback = s.cfgFallback := by
  unfold noteSample; split <;> rfl
@[simp] theorem noteSample_slots (ch : Option Channel) (x : Sample) (s : State) : (noteSample ch x s).slots = s.slots := by
  unfold noteSample; split <;> rfl
@[simp] theorem noteSample_fillSeq (ch : Option Channel) (x : Sample) (s : State) : (noteSample ch x s).fillSeq = s.fillSeq := by
  unfold noteSample; split <;> rfl
@[simp] theorem noteSample_procSeq (ch : Option Channel) (x : Sample) (s : State) : (noteSample ch x s).procSeq = s.procSeq := by
  unfold noteSample; split <;> rfl
@[simp] theorem noteSample_emitSeq (ch : Option Channel) (x : Sample) (s : State) : (noteSample ch x s).emitSeq = s.emitSeq := by
  unfold noteSample; split <;> rfl
@[simp] theorem noteSample_fillCnt (ch : Option Channel) (x : Sample) (s : State) : (noteSample ch x s).fillCnt = s.fillCnt := by
  unfold noteSample; split <;> rfl
@[simp] theorem noteSample_procIdx (ch : Option Channel) (x : Sample) (s : State) : (noteSample ch x s).procIdx = s.procIdx := by
  unfold noteSample; split <;> rfl
@[simp] theorem noteSample_emitIdx (ch : Option Channel) (x : Sample) (s : State) : (noteSample ch x s).emitIdx = s.emitIdx := by
  unfold noteSample; split <;> rfl
@[simp] theorem noteSample_dpOwner (ch : Option Channel) (x : Sample) (s : State) : (noteSample ch x s).dpOwner = s.dpOwner := by
  unfold noteSample; split <;> rfl
@[simp] theorem noteSample_nFramesIn (ch : Option Channel) (x : Sample) (s : State) : (noteSample ch x s).nFramesIn = s.nFramesIn := by
  unfold noteSample; split <;> rfl
@[simp] theorem noteSample_nWordsOut (ch : Option Channel) (x : Sample) (s : State) : (noteSample ch x s).nWordsOut = s.nWordsOut := by
  unfold noteSample; split <;> rfl
@[simp] theorem noteSample_inStream (ch : Option Channel) (x : Sample) (s : State) : (noteSample ch x s).inStream = s.inStream := by
  unfold noteSample; split <;> rfl
@[simp] theorem noteSample_outStream (ch : Option Channel) (x : Sample) (s : State) : (noteSample ch x s).outStream = s.outStream := by
  unfold noteSample; split <;> rfl
@[simp] theorem noteSample_ret (ch : Option Channel) (x : Sample) (s : State) : (noteSample ch x s).ret = s.ret := by
  unfold noteSample; split <;> rfl
@[simp] theorem noteSample_raised (ch : Option Channel) (x : Sample) (s : State) : (noteSample ch x s).raised = if isFinite32 x then s.raised else s.raised ++ [.nonfiniteInput ch x] := by
  unfold noteSample; split <;> rfl
@[simp] theorem noteSample_freeCount (ch : Option Channel) (x : Sample) (s : State) : (noteSample ch x s).freeCount = s.freeCount := by
  unfold noteSample; split <;> rfl
@[simp] theorem noteSample_script (ch : Option Channel) (x : Sample) (s : State) : (noteSample ch x s).script = s.script := by
  unfold noteSample; split <;> rfl

/-! ### noteConfigError -/

@[simp] theorem noteConfigError_par (idx : BitVec 4) (s : State) : (noteConfigError idx s).par = s.par := rfl
@[simp] theorem noteConfigError_dp (idx : BitVec 4) (s : State) : (noteConfigError idx s).dp = s.dp := rfl
@[simp] theorem noteConfigError_cfg (idx : BitVec 4) (s : State) : (noteConfigError idx s).cfg = s.cfg := rfl
@[simp] theorem noteConfigError_phase (idx : BitVec 4) (s : State) : (noteConfigError idx s).phase = s.phase := rfl
@[simp] theorem noteConfigError_eosSeen (idx : BitVec 4) (s : State) : (noteConfigError idx s).eosSeen = s.eosSeen := rfl
@[simp] theorem noteConfigError_outFailed (idx : BitVec 4) (s : State) : (noteConfigError idx s).outFailed = s.outFailed := rfl
@[simp] theorem noteConfigError_nonfiniteSeen (idx : BitVec 4) (s : State) : (noteConfigError idx s).nonfiniteSeen = s.nonfiniteSeen := rfl
@[simp] theorem noteConfigError_cfgFallback (idx : BitVec 4) (s : State) : (noteConfigError idx s).cfgFallback = true := rfl
@[simp] theorem noteConfigError_slots (idx : BitVec 4) (s : State) : (noteConfigError idx s).slots = s.slots := rfl
@[simp] theorem noteConfigError_fillSeq (idx : BitVec 4) (s : State) : (noteConfigError idx s).fillSeq = s.fillSeq := rfl
@[simp] theorem noteConfigError_procSeq (idx : BitVec 4) (s : State) : (noteConfigError idx s).procSeq = s.procSeq := rfl
@[simp] theorem noteConfigError_emitSeq (idx : BitVec 4) (s : State) : (noteConfigError idx s).emitSeq = s.emitSeq := rfl
@[simp] theorem noteConfigError_fillCnt (idx : BitVec 4) (s : State) : (noteConfigError idx s).fillCnt = s.fillCnt := rfl
@[simp] theorem noteConfigError_procIdx (idx : BitVec 4) (s : State) : (noteConfigError idx s).procIdx = s.procIdx := rfl
@[simp] theorem noteConfigError_emitIdx (idx : BitVec 4) (s : State) : (noteConfigError idx s).emitIdx = s.emitIdx := rfl
@[simp] theorem noteConfigError_dpOwner (idx : BitVec 4) (s : State) : (noteConfigError idx s).dpOwner = s.dpOwner := rfl
@[simp] theorem noteConfigError_nFramesIn (idx : BitVec 4) (s : State) : (noteConfigError idx s).nFramesIn = s.nFramesIn := rfl
@[simp] theorem noteConfigError_nWordsOut (idx : BitVec 4) (s : State) : (noteConfigError idx s).nWordsOut = s.nWordsOut := rfl
@[simp] theorem noteConfigError_inStream (idx : BitVec 4) (s : State) : (noteConfigError idx s).inStream = s.inStream := rfl
@[simp] theorem noteConfigError_outStream (idx : BitVec 4) (s : State) : (noteConfigError idx s).outStream = s.outStream := rfl
@[simp] theorem noteConfigError_ret (idx : BitVec 4) (s : State) : (noteConfigError idx s).ret = s.ret := rfl
@[simp] theorem noteConfigError_raised (idx : BitVec 4) (s : State) : (noteConfigError idx s).raised = s.raised ++ [.configError idx] := rfl
@[simp] theorem noteConfigError_freeCount (idx : BitVec 4) (s : State) : (noteConfigError idx s).freeCount = s.freeCount := rfl
@[simp] theorem noteConfigError_script (idx : BitVec 4) (s : State) : (noteConfigError idx s).script = s.script := rfl

/-! ### enterOutputFailure -/

@[simp] theorem enterOutputFailure_par (s : State) : (enterOutputFailure s).par = s.par := rfl
@[simp] theorem enterOutputFailure_dp (s : State) : (enterOutputFailure s).dp = freeDatapath s.freeCount s.dp := rfl
@[simp] theorem enterOutputFailure_cfg (s : State) : (enterOutputFailure s).cfg = s.cfg := rfl
@[simp] theorem enterOutputFailure_phase (s : State) : (enterOutputFailure s).phase = .aborted := rfl
@[simp] theorem enterOutputFailure_eosSeen (s : State) : (enterOutputFailure s).eosSeen = s.eosSeen := rfl
@[simp] theorem enterOutputFailure_outFailed (s : State) : (enterOutputFailure s).outFailed = true := rfl
@[simp] theorem enterOutputFailure_nonfiniteSeen (s : State) : (enterOutputFailure s).nonfiniteSeen = s.nonfiniteSeen := rfl
@[simp] theorem enterOutputFailure_cfgFallback (s : State) : (enterOutputFailure s).cfgFallback = s.cfgFallback := rfl
@[simp] theorem enterOutputFailure_slots (s : State) : (enterOutputFailure s).slots = freeSlots s.par s.freeCount s.par.nSlots s.slots := rfl
@[simp] theorem enterOutputFailure_fillSeq (s : State) : (enterOutputFailure s).fillSeq = s.fillSeq := rfl
@[simp] theorem enterOutputFailure_procSeq (s : State) : (enterOutputFailure s).procSeq = s.procSeq := rfl
@[simp] theorem enterOutputFailure_emitSeq (s : State) : (enterOutputFailure s).emitSeq = s.emitSeq := rfl
@[simp] theorem enterOutputFailure_fillCnt (s : State) : (enterOutputFailure s).fillCnt = s.fillCnt := rfl
@[simp] theorem enterOutputFailure_procIdx (s : State) : (enterOutputFailure s).procIdx = Config.freeNat s.freeCount 0 % (s.par.batchCap + 1) := rfl
@[simp] theorem enterOutputFailure_emitIdx (s : State) : (enterOutputFailure s).emitIdx = s.emitIdx := rfl
@[simp] theorem enterOutputFailure_dpOwner (s : State) : (enterOutputFailure s).dpOwner = (Config.freeOwner s.freeCount).map (fun k => k % s.par.nCompute) := rfl
@[simp] theorem enterOutputFailure_nFramesIn (s : State) : (enterOutputFailure s).nFramesIn = s.nFramesIn := rfl
@[simp] theorem enterOutputFailure_nWordsOut (s : State) : (enterOutputFailure s).nWordsOut = s.nWordsOut := rfl
@[simp] theorem enterOutputFailure_inStream (s : State) : (enterOutputFailure s).inStream = s.inStream := rfl
@[simp] theorem enterOutputFailure_outStream (s : State) : (enterOutputFailure s).outStream = s.outStream := rfl
@[simp] theorem enterOutputFailure_ret (s : State) : (enterOutputFailure s).ret = s.ret := rfl
@[simp] theorem enterOutputFailure_raised (s : State) : (enterOutputFailure s).raised = s.raised := rfl
@[simp] theorem enterOutputFailure_freeCount (s : State) : (enterOutputFailure s).freeCount = s.freeCount + 1 := rfl
@[simp] theorem enterOutputFailure_script (s : State) : (enterOutputFailure s).script = s.script := rfl

/-! ### Datapath.setLane and Datapath.lane -/

@[simp] theorem lane_left (dp : Datapath) : dp.lane .left = dp.left := rfl
@[simp] theorem lane_right (dp : Datapath) : dp.lane .right = dp.right := rfl
@[simp] theorem lane_setLane_same (dp : Datapath) (ch : Channel) (l : Lane) : (dp.setLane ch l).lane ch = l := by
  cases ch <;> rfl
@[simp] theorem setLane_setLane (dp : Datapath) (ch : Channel) (l m : Lane) :
    (dp.setLane ch l).setLane ch m = dp.setLane ch m := by
  cases ch <;> rfl
@[simp] theorem setLane_lane (dp : Datapath) (ch : Channel) : dp.setLane ch (dp.lane ch) = dp := by
  cases ch <;> rfl
theorem lane_setLane_other (dp : Datapath) (ch c : Channel) (l : Lane) (h : c ≠ ch) : (dp.setLane ch l).lane c = dp.lane c := by
  cases ch <;> cases c <;> first | rfl | exact absurd rfl h
@[simp] theorem setLane_left_left (dp : Datapath) (l : Lane) : (dp.setLane .left l).left = l := rfl
@[simp] theorem setLane_left_right (dp : Datapath) (l : Lane) : (dp.setLane .left l).right = dp.right := rfl
@[simp] theorem setLane_left_haveCur (dp : Datapath) (l : Lane) : (dp.setLane .left l).haveCur = dp.haveCur := rfl
@[simp] theorem setLane_left_inTransition (dp : Datapath) (l : Lane) : (dp.setLane .left l).inTransition = dp.inTransition := rfl
@[simp] theorem setLane_left_i (dp : Datapath) (l : Lane) : (dp.setLane .left l).i = dp.i := rfl
@[simp] theorem setLane_left_wg (dp : Datapath) (l : Lane) : (dp.setLane .left l).wg = dp.wg := rfl
@[simp] theorem setLane_right_left (dp : Datapath) (l : Lane) : (dp.setLane .right l).left = dp.left := rfl
@[simp] theorem setLane_right_right (dp : Datapath) (l : Lane) : (dp.setLane .right l).right = l := rfl
@[simp] theorem setLane_right_haveCur (dp : Datapath) (l : Lane) : (dp.setLane .right l).haveCur = dp.haveCur := rfl
@[simp] theorem setLane_right_inTransition (dp : Datapath) (l : Lane) : (dp.setLane .right l).inTransition = dp.inTransition := rfl
@[simp] theorem setLane_right_i (dp : Datapath) (l : Lane) : (dp.setLane .right l).i = dp.i := rfl
@[simp] theorem setLane_right_wg (dp : Datapath) (l : Lane) : (dp.setLane .right l).wg = dp.wg := rfl
@[simp] theorem setLane_haveCur (dp : Datapath) (ch : Channel) (l : Lane) : (dp.setLane ch l).haveCur = dp.haveCur := by
  cases ch <;> rfl
@[simp] theorem setLane_inTransition (dp : Datapath) (ch : Channel) (l : Lane) : (dp.setLane ch l).inTransition = dp.inTransition := by
  cases ch <;> rfl
@[simp] theorem setLane_i (dp : Datapath) (ch : Channel) (l : Lane) : (dp.setLane ch l).i = dp.i := by
  cases ch <;> rfl
@[simp] theorem setLane_wg (dp : Datapath) (ch : Channel) (l : Lane) : (dp.setLane ch l).wg = dp.wg := by
  cases ch <;> rfl

/-! ### advanceStep, takeFrame, loadFrame, storeFirst -/

@[simp] theorem advanceStep_left (dp : Datapath) : (advanceStep dp).left = dp.left := rfl
@[simp] theorem advanceStep_right (dp : Datapath) : (advanceStep dp).right = dp.right := rfl
@[simp] theorem advanceStep_haveCur (dp : Datapath) : (advanceStep dp).haveCur = dp.haveCur := rfl
@[simp] theorem advanceStep_inTransition (dp : Datapath) : (advanceStep dp).inTransition = dp.inTransition := rfl
@[simp] theorem advanceStep_i (dp : Datapath) : (advanceStep dp).i = dp.i + 1 := rfl
@[simp] theorem advanceStep_wg (dp : Datapath) : (advanceStep dp).wg = dp.wg := rfl
@[simp] theorem takeFrame_left (dp : Datapath) : (takeFrame dp).left = { dp.left with cur := dp.left.nxt } := rfl
@[simp] theorem takeFrame_right (dp : Datapath) : (takeFrame dp).right = { dp.right with cur := dp.right.nxt } := rfl
@[simp] theorem takeFrame_haveCur (dp : Datapath) : (takeFrame dp).haveCur = dp.haveCur := rfl
@[simp] theorem takeFrame_inTransition (dp : Datapath) : (takeFrame dp).inTransition = false := rfl
@[simp] theorem takeFrame_i (dp : Datapath) : (takeFrame dp).i = dp.i := rfl
@[simp] theorem takeFrame_wg (dp : Datapath) : (takeFrame dp).wg = dp.wg := rfl
@[simp] theorem storeFirst_left (dp : Datapath) : (storeFirst dp).left = { dp.left with cur := dp.left.nxt } := rfl
@[simp] theorem storeFirst_right (dp : Datapath) : (storeFirst dp).right = { dp.right with cur := dp.right.nxt } := rfl
@[simp] theorem storeFirst_haveCur (dp : Datapath) : (storeFirst dp).haveCur = true := rfl
@[simp] theorem storeFirst_inTransition (dp : Datapath) : (storeFirst dp).inTransition = false := rfl
@[simp] theorem storeFirst_i (dp : Datapath) : (storeFirst dp).i = dp.i := rfl
@[simp] theorem storeFirst_wg (dp : Datapath) : (storeFirst dp).wg = dp.wg := rfl
@[simp] theorem loadFrame_left (dp : Datapath) (x : Frame) : (loadFrame dp x).left = { dp.left with nxt := x.left } := rfl
@[simp] theorem loadFrame_right (dp : Datapath) (x : Frame) : (loadFrame dp x).right = { dp.right with nxt := x.right } := rfl
@[simp] theorem loadFrame_haveCur (dp : Datapath) (x : Frame) : (loadFrame dp x).haveCur = dp.haveCur := rfl
@[simp] theorem loadFrame_inTransition (dp : Datapath) (x : Frame) : (loadFrame dp x).inTransition = true := rfl
@[simp] theorem loadFrame_i (dp : Datapath) (x : Frame) : (loadFrame dp x).i = dp.i := rfl
@[simp] theorem loadFrame_wg (dp : Datapath) (x : Frame) : (loadFrame dp x).wg = dp.wg := rfl

/-! ### closeHalfDp -/

@[simp] theorem closeHalfDp_left (dp : Datapath) : (closeHalfDp dp).left = dp.left := by
  unfold closeHalfDp; split <;> rfl
@[simp] theorem closeHalfDp_right (dp : Datapath) : (closeHalfDp dp).right = dp.right := by
  unfold closeHalfDp; split <;> rfl
@[simp] theorem closeHalfDp_haveCur (dp : Datapath) : (closeHalfDp dp).haveCur = dp.haveCur := by
  unfold closeHalfDp; split <;> rfl
@[simp] theorem closeHalfDp_inTransition (dp : Datapath) : (closeHalfDp dp).inTransition = dp.inTransition := by
  unfold closeHalfDp; split <;> rfl
@[simp] theorem closeHalfDp_i (dp : Datapath) : (closeHalfDp dp).i = dp.i := by
  unfold closeHalfDp; split <;> rfl

/-! ### packLane, zeroAccs -/

@[simp] theorem packLane_s0 (l : Lane) (b : Bool) : (packLane l b).s0 = l.s0 := rfl
@[simp] theorem packLane_s1 (l : Lane) (b : Bool) : (packLane l b).s1 = l.s1 := rfl
@[simp] theorem packLane_s2 (l : Lane) (b : Bool) : (packLane l b).s2 = l.s2 := rfl
@[simp] theorem packLane_s3 (l : Lane) (b : Bool) : (packLane l b).s3 = l.s3 := rfl
@[simp] theorem packLane_s4 (l : Lane) (b : Bool) : (packLane l b).s4 = l.s4 := rfl
@[simp] theorem packLane_q (l : Lane) (b : Bool) : (packLane l b).q = l.q := rfl
@[simp] theorem packLane_cur (l : Lane) (b : Bool) : (packLane l b).cur = l.cur := rfl
@[simp] theorem packLane_nxt (l : Lane) (b : Bool) : (packLane l b).nxt = l.nxt := rfl
@[simp] theorem packLane_sh (l : Lane) (b : Bool) : (packLane l b).sh = l.sh.extractLsb' 0 31 ++ BitVec.ofBool b := rfl
@[simp] theorem zeroAccs_s0 (l : Lane) : (zeroAccs l).s0 = 0 := rfl
@[simp] theorem zeroAccs_s1 (l : Lane) : (zeroAccs l).s1 = 0 := rfl
@[simp] theorem zeroAccs_s2 (l : Lane) : (zeroAccs l).s2 = 0 := rfl
@[simp] theorem zeroAccs_s3 (l : Lane) : (zeroAccs l).s3 = 0 := rfl
@[simp] theorem zeroAccs_s4 (l : Lane) : (zeroAccs l).s4 = 0 := rfl
@[simp] theorem zeroAccs_q (l : Lane) : (zeroAccs l).q = l.q := rfl
@[simp] theorem zeroAccs_cur (l : Lane) : (zeroAccs l).cur = l.cur := rfl
@[simp] theorem zeroAccs_nxt (l : Lane) : (zeroAccs l).nxt = l.nxt := rfl
@[simp] theorem zeroAccs_sh (l : Lane) : (zeroAccs l).sh = l.sh := rfl

/-! ### Slots -/

@[simp] theorem putFrame_state (v : Slot) (n : Nat) (x : Frame) : (v.putFrame n x).state = v.state := rfl
@[simp] theorem putFrame_nFrames (v : Slot) (n : Nat) (x : Frame) : (v.putFrame n x).nFrames = v.nFrames := rfl
@[simp] theorem putFrame_frames (v : Slot) (n : Nat) (x : Frame) : (v.putFrame n x).frames = cellPut n x v.frames := rfl
@[simp] theorem putFrame_nGroups (v : Slot) (n : Nat) (x : Frame) : (v.putFrame n x).nGroups = v.nGroups := rfl
@[simp] theorem putFrame_groups (v : Slot) (n : Nat) (x : Frame) : (v.putFrame n x).groups = v.groups := rfl
@[simp] theorem putGroup_state (v : Slot) (n : Nat) (x : WordGroup) : (v.putGroup n x).state = v.state := rfl
@[simp] theorem putGroup_nFrames (v : Slot) (n : Nat) (x : WordGroup) : (v.putGroup n x).nFrames = v.nFrames := rfl
@[simp] theorem putGroup_frames (v : Slot) (n : Nat) (x : WordGroup) : (v.putGroup n x).frames = v.frames := rfl
@[simp] theorem putGroup_nGroups (v : Slot) (n : Nat) (x : WordGroup) : (v.putGroup n x).nGroups = v.nGroups := rfl
@[simp] theorem putGroup_groups (v : Slot) (n : Nat) (x : WordGroup) : (v.putGroup n x).groups = cellPut n x v.groups := rfl
@[simp] theorem appendGroup_state (v : Slot) (g : WordGroup) : (v.appendGroup g).state = v.state := rfl
@[simp] theorem appendGroup_nFrames (v : Slot) (g : WordGroup) : (v.appendGroup g).nFrames = v.nFrames := rfl
@[simp] theorem appendGroup_frames (v : Slot) (g : WordGroup) : (v.appendGroup g).frames = v.frames := rfl
@[simp] theorem appendGroup_nGroups (v : Slot) (g : WordGroup) : (v.appendGroup g).nGroups = v.nGroups + 1 := rfl
@[simp] theorem appendGroup_groups (v : Slot) (g : WordGroup) : (v.appendGroup g).groups = cellPut v.nGroups g v.groups := rfl
@[simp] theorem freeSlot_state (p : Params) (t j : Nat) (v : Slot) : (freeSlot p t j v).state = v.state := rfl
@[simp] theorem freeSlot_nFrames (p : Params) (t j : Nat) (v : Slot) : (freeSlot p t j v).nFrames = Config.freeNat t (2 * j + 1) % (p.batchCap + 1) := rfl
@[simp] theorem freeSlot_frames (p : Params) (t j : Nat) (v : Slot) : (freeSlot p t j v).frames = cellsWithin p.batchCap (Config.freeFrames t j) := rfl
@[simp] theorem freeSlot_nGroups (p : Params) (t j : Nat) (v : Slot) : (freeSlot p t j v).nGroups = Config.freeNat t (2 * j + 2) % (p.batchCap + 1) := rfl
@[simp] theorem freeSlot_groups (p : Params) (t j : Nat) (v : Slot) : (freeSlot p t j v).groups = cellsWithin p.batchCap (Config.freeGroups t j) := rfl

/-! ### State.offerBytes -/

@[simp] theorem offerBytes_par (s : State) (b : List Byte) : (s.offerBytes b).par = s.par := rfl
@[simp] theorem offerBytes_dp (s : State) (b : List Byte) : (s.offerBytes b).dp = s.dp := rfl
@[simp] theorem offerBytes_cfg (s : State) (b : List Byte) : (s.offerBytes b).cfg = s.cfg := rfl
@[simp] theorem offerBytes_phase (s : State) (b : List Byte) : (s.offerBytes b).phase = s.phase := rfl
@[simp] theorem offerBytes_eosSeen (s : State) (b : List Byte) : (s.offerBytes b).eosSeen = s.eosSeen := rfl
@[simp] theorem offerBytes_outFailed (s : State) (b : List Byte) : (s.offerBytes b).outFailed = s.outFailed := rfl
@[simp] theorem offerBytes_nonfiniteSeen (s : State) (b : List Byte) : (s.offerBytes b).nonfiniteSeen = s.nonfiniteSeen := rfl
@[simp] theorem offerBytes_cfgFallback (s : State) (b : List Byte) : (s.offerBytes b).cfgFallback = s.cfgFallback := rfl
@[simp] theorem offerBytes_slots (s : State) (b : List Byte) : (s.offerBytes b).slots = s.slots := rfl
@[simp] theorem offerBytes_fillSeq (s : State) (b : List Byte) : (s.offerBytes b).fillSeq = s.fillSeq := rfl
@[simp] theorem offerBytes_procSeq (s : State) (b : List Byte) : (s.offerBytes b).procSeq = s.procSeq := rfl
@[simp] theorem offerBytes_emitSeq (s : State) (b : List Byte) : (s.offerBytes b).emitSeq = s.emitSeq := rfl
@[simp] theorem offerBytes_fillCnt (s : State) (b : List Byte) : (s.offerBytes b).fillCnt = s.fillCnt := rfl
@[simp] theorem offerBytes_procIdx (s : State) (b : List Byte) : (s.offerBytes b).procIdx = s.procIdx := rfl
@[simp] theorem offerBytes_emitIdx (s : State) (b : List Byte) : (s.offerBytes b).emitIdx = s.emitIdx := rfl
@[simp] theorem offerBytes_dpOwner (s : State) (b : List Byte) : (s.offerBytes b).dpOwner = s.dpOwner := rfl
@[simp] theorem offerBytes_nFramesIn (s : State) (b : List Byte) : (s.offerBytes b).nFramesIn = s.nFramesIn := rfl
@[simp] theorem offerBytes_nWordsOut (s : State) (b : List Byte) : (s.offerBytes b).nWordsOut = s.nWordsOut := rfl
@[simp] theorem offerBytes_inStream (s : State) (b : List Byte) : (s.offerBytes b).inStream = s.inStream := rfl
@[simp] theorem offerBytes_outStream (s : State) (b : List Byte) : (s.offerBytes b).outStream = s.outStream := rfl
@[simp] theorem offerBytes_ret (s : State) (b : List Byte) : (s.offerBytes b).ret = s.ret := rfl
@[simp] theorem offerBytes_raised (s : State) (b : List Byte) : (s.offerBytes b).raised = s.raised := rfl
@[simp] theorem offerBytes_freeCount (s : State) (b : List Byte) : (s.offerBytes b).freeCount = s.freeCount := rfl
@[simp] theorem offerBytes_script (s : State) (b : List Byte) : (s.offerBytes b).script = s.script ++ adapterBeats s.par b := rfl
@[simp] theorem freeDatapath_haveCur (t : Nat) (dp : Datapath) : (freeDatapath t dp).haveCur = dp.haveCur := rfl
@[simp] theorem freeDatapath_inTransition (t : Nat) (dp : Datapath) : (freeDatapath t dp).inTransition = false := rfl

/-! ### integrated -/

@[simp] theorem integrated_q (f : AccFmt) (cfg : CfgRegs) (l : Lane) (x : Acc) : (integrated f cfg l x).q = l.q := rfl
@[simp] theorem integrated_cur (f : AccFmt) (cfg : CfgRegs) (l : Lane) (x : Acc) : (integrated f cfg l x).cur = l.cur := rfl
@[simp] theorem integrated_nxt (f : AccFmt) (cfg : CfgRegs) (l : Lane) (x : Acc) : (integrated f cfg l x).nxt = l.nxt := rfl
@[simp] theorem integrated_sh (f : AccFmt) (cfg : CfgRegs) (l : Lane) (x : Acc) : (integrated f cfg l x).sh = l.sh := rfl

end Sys2Proof.Machine
end

