-- ==== Sys2Proof/Laws/Float.lean ====
section
/-!
SUPPORT. The laws of the datapath arithmetic: rounding is monotone, leaves representable values alone and stays finite up to
half a unit in the last place above the largest finite value; patterns, signs and exact values of results.
-/

namespace Sys2Proof.Machine

set_option Elab.async false

/-! ### Rounding to an integer -/

theorem roundShift_ge (n j : Nat) : n / 2 ^ j ≤ roundShift n j := by
  unfold roundShift; split <;> omega

theorem roundShift_le_succ (n j : Nat) : roundShift n j ≤ n / 2 ^ j + 1 := by
  unfold roundShift; split <;> omega

theorem roundShift_exact (c j : Nat) : roundShift (c * 2 ^ j) j = c := by
  have hp : 0 < 2 ^ j := by positivity
  unfold roundShift
  rw [Nat.mul_mod_left, Nat.mul_div_cancel _ hp, if_neg (by omega)]

theorem roundShift_mono (j : Nat) {a b : Nat} (h : a ≤ b) : roundShift a j ≤ roundShift b j := by
  have ht : a / 2 ^ j ≤ b / 2 ^ j := Nat.div_le_div_right h
  rcases Nat.lt_or_ge (a / 2 ^ j) (b / 2 ^ j) with hlt | hge
  · exact (roundShift_le_succ a j).trans ((Nat.succ_le_of_lt hlt).trans (roundShift_ge b j))
  · have he : a / 2 ^ j = b / 2 ^ j := by omega
    have ha := Nat.div_add_mod a (2 ^ j)
    have hb := Nat.div_add_mod b (2 ^ j)
    rw [he] at ha
    have hr : a % 2 ^ j ≤ b % 2 ^ j := by omega
    unfold roundShift
    rw [he]
    split
    · next hc =>
      split
      · exact le_rfl
      · next hd =>
        exfalso
        apply hd
        rcases hc with hc | ⟨hc, ho⟩
        · exact .inl (by omega)
        · rcases Nat.lt_or_ge (2 ^ j) (2 * (b % 2 ^ j)) with hx | hx
          · exact .inl hx
          · exact .inr ⟨by omega, ho⟩
    · split <;> omega

theorem roundShift_le (n j c : Nat) (h : n ≤ c * 2 ^ j) : roundShift n j ≤ c :=
  (roundShift_mono j h).trans (roundShift_exact c j).le

theorem roundShift_lt_of_below_half (n j c : Nat) (h : 2 * n < (2 * c + 1) * 2 ^ j) : roundShift n j ≤ c := by
  have hp : 0 < 2 ^ j := by positivity
  have hn := Nat.div_add_mod n (2 ^ j)
  have hm := Nat.mod_lt n hp
  have ht : n / 2 ^ j ≤ c := by
    by_contra hc
    have : c + 1 ≤ n / 2 ^ j := by omega
    have := Nat.mul_le_mul_left (2 ^ j) this
    rw [Nat.mul_add, Nat.mul_one] at this
    have h2 : (2 * c + 1) * 2 ^ j = 2 * (2 ^ j * c) + 2 ^ j := by ring
    omega
  rcases Nat.lt_or_ge (n / 2 ^ j) c with hlt | hge
  · exact (roundShift_le_succ n j).trans hlt
  · have he : n / 2 ^ j = c := by omega
    have hr : 2 * (n % 2 ^ j) < 2 ^ j := by
      rw [he] at hn
      have h2 : (2 * c + 1) * 2 ^ j = 2 * (2 ^ j * c) + 2 ^ j := by ring
      omega
    unfold roundShift
    rw [if_neg (by rintro (h1 | ⟨h1, -⟩) <;> omega)]
    omega

/-! ### Magnitude fields -/

theorem unitsOfMag_small (f : AccFmt) (m : Nat) (h : m < 2 ^ fracBits f) : unitsOfMag f m = m := if_pos h

theorem unitsOfMag_large (f : AccFmt) (m : Nat) (h : 2 ^ fracBits f ≤ m) :
    unitsOfMag f m = (2 ^ fracBits f + m % 2 ^ fracBits f) * 2 ^ (m / 2 ^ fracBits f - 1) := if_neg (by omega)

theorem unitsOfMag_lt_succ (f : AccFmt) (m : Nat) : unitsOfMag f m < unitsOfMag f (m + 1) := by
  have hp : 0 < 2 ^ fracBits f := by positivity
  rcases Nat.lt_trichotomy (m + 1) (2 ^ fracBits f) with h | h | h
  · rw [unitsOfMag_small f m (by omega), unitsOfMag_small f (m + 1) h]
    omega
  · rw [unitsOfMag_small f m (by omega), unitsOfMag_large f (m + 1) (by omega)]
    simp [h, hp]
    omega
  · rw [unitsOfMag_large f m (by omega), unitsOfMag_large f (m + 1) (by omega)]
    have hd := Nat.div_add_mod m (2 ^ fracBits f)
    have hm := Nat.mod_lt m hp
    have hE : 1 ≤ m / 2 ^ fracBits f := (Nat.one_le_div_iff hp).2 (by omega)
    rcases Nat.lt_or_ge (m % 2 ^ fracBits f + 1) (2 ^ fracBits f) with hr | hr
    · have h1 : (m + 1) / 2 ^ fracBits f = m / 2 ^ fracBits f := by
        conv_lhs => rw [← hd]
        rw [Nat.add_assoc, Nat.mul_add_div hp, Nat.div_eq_of_lt hr, Nat.add_zero]
      have h2 : (m + 1) % 2 ^ fracBits f = m % 2 ^ fracBits f + 1 := by
        conv_lhs => rw [← hd]
        rw [Nat.add_assoc, Nat.mul_add_mod, Nat.mod_eq_of_lt hr]
      rw [h1, h2]
      exact Nat.mul_lt_mul_of_pos_right (by omega) (by positivity)
    · have he : m % 2 ^ fracBits f + 1 = 2 ^ fracBits f := by omega
      have h0 : m + 1 = 2 ^ fracBits f * (m / 2 ^ fracBits f + 1) := by
        rw [Nat.mul_add, Nat.mul_one]
        omega
      have h1 : (m + 1) / 2 ^ fracBits f = m / 2 ^ fracBits f + 1 := by
        rw [h0, Nat.mul_div_cancel_left _ hp]
      have h2 : (m + 1) % 2 ^ fracBits f = 0 := by
        rw [h0, Nat.mul_mod_right]
      rw [h1, h2, Nat.add_zero, Nat.add_sub_cancel]
      obtain ⟨E, hE'⟩ : ∃ E, m / 2 ^ fracBits f = E + 1 := ⟨_, (Nat.sub_add_cancel hE).symm⟩
      rw [hE', Nat.add_sub_cancel, Nat.pow_succ]
      have hpe : 0 < 2 ^ E := by positivity
      nlinarith

theorem unitsOfMag_strictMono (f : AccFmt) : StrictMono (unitsOfMag f) := strictMono_nat_of_lt_succ (unitsOfMag_lt_succ f)

theorem unitsOfMag_mono (f : AccFmt) {a b : Nat} (h : a ≤ b) : unitsOfMag f a ≤ unitsOfMag f b :=
  (unitsOfMag_strictMono f).monotone h

@[simp] theorem unitsOfMag_zero (f : AccFmt) : unitsOfMag f 0 = 0 := unitsOfMag_small f 0 (by positivity)

/-! ### Rounding to a magnitude field -/

theorem quot_lt_binade (f : AccFmt) (n k : Nat) : n / 2 ^ (k + binadeOf f n k) < 2 ^ (fracBits f + 1) := by
  rw [Nat.pow_add, ← Nat.div_div_eq_div_mul, Nat.div_lt_iff_lt_mul (by positivity), ← Nat.pow_add]
  refine lt_of_lt_of_le Nat.lt_log2_self (Nat.pow_le_pow_right (by norm_num) ?_)
  unfold binadeOf
  omega

theorem binade_le_quot (f : AccFmt) (n k : Nat) (h : 0 < binadeOf f n k) :
    2 ^ fracBits f ≤ n / 2 ^ (k + binadeOf f n k) := by
  have hne : n / 2 ^ k ≠ 0 := by
    intro h0
    simp [binadeOf, h0] at h
  rw [Nat.pow_add, ← Nat.div_div_eq_div_mul, Nat.le_div_iff_mul_le (by positivity), ← Nat.pow_add]
  refine le_trans (Nat.pow_le_pow_right (by norm_num) ?_) (Nat.log2_self_le hne)
  unfold binadeOf at h ⊢
  omega

theorem binadeOf_mono (f : AccFmt) (k : Nat) {a b : Nat} (h : a ≤ b) : binadeOf f a k ≤ binadeOf f b k := by
  have hq : a / 2 ^ k ≤ b / 2 ^ k := Nat.div_le_div_right h
  have hl : Nat.log2 (a / 2 ^ k) ≤ Nat.log2 (b / 2 ^ k) := by
    by_cases h0 : a / 2 ^ k = 0
    · simp [h0]
    · exact (Nat.le_log2 (fun hb => h0 (Nat.le_zero.1 (hb ▸ hq)))).2 ((Nat.log2_self_le h0).trans hq)
  unfold binadeOf
  omega

/-- Rounding is monotone. -/
theorem roundMag_mono (f : AccFmt) (k : Nat) {a b : Nat} (h : a ≤ b) : roundMag f a k ≤ roundMag f b k := by
  refine min_le_min_right _ ?_
  have hb := binadeOf_mono f k h
  rcases Nat.lt_or_ge (binadeOf f a k) (binadeOf f b k) with hlt | hge
  · have h1 : roundShift a (k + binadeOf f a k) ≤ 2 ^ (fracBits f + 1) :=
      (roundShift_le_succ _ _).trans (quot_lt_binade f a k)
    have h2 : 2 ^ fracBits f ≤ roundShift b (k + binadeOf f b k) :=
      (binade_le_quot f b k (by omega)).trans (roundShift_ge _ _)
    have h3 : binadeOf f a k * 2 ^ fracBits f + 2 ^ fracBits f ≤ binadeOf f b k * 2 ^ fracBits f := by
      rw [← Nat.succ_mul]
      exact Nat.mul_le_mul_right _ hlt
    rw [Nat.pow_succ] at h1
    omega
  · have he : binadeOf f a k = binadeOf f b k := by omega
    rw [he]
    exact Nat.add_le_add_left (roundShift_mono _ h) _

/-- A representable value rounds to itself. -/
theorem roundMag_exact (f : AccFmt) (m k : Nat) (h : m ≤ infMag f) : roundMag f (unitsOfMag f m * 2 ^ k) k = m := by
  have hp : 0 < 2 ^ fracBits f := by positivity
  have hk : 0 < 2 ^ k := by positivity
  unfold roundMag
  suffices hs : binadeOf f (unitsOfMag f m * 2 ^ k) k * 2 ^ fracBits f +
      roundShift (unitsOfMag f m * 2 ^ k) (k + binadeOf f (unitsOfMag f m * 2 ^ k) k) = m by
    rw [hs]
    exact min_eq_left h
  rcases Nat.lt_or_ge m (2 ^ fracBits f) with hlt | hge
  · have hb : binadeOf f (unitsOfMag f m * 2 ^ k) k = 0 := by
      rw [unitsOfMag_small f m hlt]
      unfold binadeOf
      rw [Nat.mul_div_cancel _ hk]
      by_cases h0 : m = 0
      · simp [h0]
      · have := (Nat.log2_lt h0).2 hlt
        omega
    rw [hb, unitsOfMag_small f m hlt, Nat.add_zero, roundShift_exact]
    omega
  · obtain ⟨E, hE⟩ : ∃ E, m / 2 ^ fracBits f = E + 1 :=
      ⟨_, (Nat.sub_add_cancel ((Nat.one_le_div_iff hp).2 hge)).symm⟩
    have hd := Nat.div_add_mod m (2 ^ fracBits f)
    have hm := Nat.mod_lt m hp
    have hb : binadeOf f (unitsOfMag f m * 2 ^ k) k = E := by
      unfold binadeOf
      rw [Nat.mul_div_cancel _ hk, unitsOfMag_large f m hge, hE, Nat.add_sub_cancel]
      have hl : Nat.log2 ((2 ^ fracBits f + m % 2 ^ fracBits f) * 2 ^ E) = fracBits f + E := by
        rw [Nat.log2_eq_iff (by positivity)]
        constructor
        · rw [Nat.pow_add]
          exact Nat.mul_le_mul_right _ (Nat.le_add_right _ _)
        · have : 2 ^ (fracBits f + E + 1) = 2 * 2 ^ fracBits f * 2 ^ E := by
            rw [Nat.pow_succ, Nat.pow_add]
            ring
          rw [this]
          exact Nat.mul_lt_mul_of_pos_right (by omega) (by positivity)
      omega
    rw [hb, unitsOfMag_large f m hge, hE, Nat.add_sub_cancel, Nat.mul_assoc, ← Nat.pow_add, Nat.add_comm E k,
      roundShift_exact]
    rw [hE] at hd
    rw [Nat.mul_comm]
    rw [Nat.mul_add, Nat.mul_one] at hd
    omega

/-- Rounding stays below a representable bound. -/
theorem roundMag_le (f : AccFmt) (n m k : Nat) (hm : m ≤ infMag f) (h : n ≤ unitsOfMag f m * 2 ^ k) : roundMag f n k ≤ m :=
  (roundMag_mono f k h).trans (roundMag_exact f m k hm).le

/-- Rounding stays above a representable bound. -/
theorem roundMag_ge (f : AccFmt) (n m k : Nat) (hm : m ≤ infMag f) (h : unitsOfMag f m * 2 ^ k ≤ n) : m ≤ roundMag f n k :=
  (roundMag_exact f m k hm).ge.trans (roundMag_mono f k h)

theorem roundMag_le_inf (f : AccFmt) (n k : Nat) : roundMag f n k ≤ infMag f := min_le_right _ _

/-- The binade of the largest finite value. -/
def topBinade (f : AccFmt) : Nat := 2 ^ expBits f - 3

/-- The largest finite value in units. -/
def maxUnits (f : AccFmt) : Nat := unitsOfMag f (infMag f - 1)

theorem maxUnits_eq (f : AccFmt) : maxUnits f = (2 ^ (fracBits f + 1) - 1) * 2 ^ topBinade f := by
  cases f <;> decide +kernel

/-- A result stays finite up to half a unit in the last place above the largest finite value. -/
theorem roundMag_finite (f : AccFmt) (n k : Nat)
    (h : 2 * n < (2 * (2 ^ (fracBits f + 1) - 1) + 1) * 2 ^ (k + topBinade f)) : roundMag f n k < infMag f := by
  have hinf : infMag f = (topBinade f + 2) * 2 ^ fracBits f := by cases f <;> decide
  have hp : 0 < 2 ^ fracBits f := by positivity
  refine lt_of_le_of_lt (min_le_left _ _) ?_
  rw [hinf]
  rcases Nat.lt_trichotomy (binadeOf f n k) (topBinade f) with hlt | he | hgt
  · have h1 : roundShift n (k + binadeOf f n k) ≤ 2 ^ (fracBits f + 1) :=
      (roundShift_le_succ _ _).trans (quot_lt_binade f n k)
    have h2 : (binadeOf f n k + 1) * 2 ^ fracBits f ≤ topBinade f * 2 ^ fracBits f := Nat.mul_le_mul_right _ hlt
    rw [Nat.pow_succ] at h1
    rw [Nat.add_mul] at h2 ⊢
    omega
  · rw [he]
    have h1 := roundShift_lt_of_below_half n (k + topBinade f) _ h
    rw [Nat.pow_succ] at h1
    rw [Nat.add_mul]
    omega
  · exfalso
    have h1 := binade_le_quot f n k (by omega)
    have h2 : 2 ^ (fracBits f + 1) * 2 ^ (k + topBinade f) ≤ n := by
      rw [Nat.le_div_iff_mul_le (by positivity)] at h1
      refine le_trans ?_ h1
      rw [← Nat.pow_add, ← Nat.pow_add]
      exact Nat.pow_le_pow_right (by norm_num) (by omega)
    have h3 : (2 * (2 ^ (fracBits f + 1) - 1) + 1) * 2 ^ (k + topBinade f) ≤ 2 * (2 ^ (fracBits f + 1) * 2 ^ (k + topBinade f)) := by
      rw [← Nat.mul_assoc]
      exact Nat.mul_le_mul_right _ (by omega)
    omega

/-! ### Patterns -/

theorem infMag_lt_sign (f : AccFmt) : infMag f < 2 ^ (f.width - 1) := by cases f <;> decide

theorem packSign_toNat (f : AccFmt) (s : Bool) (m : Nat) (h : m ≤ infMag f) :
    (packSign f s m).toNat = (if s then 2 ^ (f.width - 1) else 0) + m := by
  have hi := infMag_lt_sign f
  unfold packSign
  rw [BitVec.toNat_ofNat]
  refine Nat.mod_eq_of_lt ?_
  cases f <;> cases s <;> simp only [AccFmt.width] at * <;> norm_num at * <;> omega

theorem magOf_packSign (f : AccFmt) (s : Bool) (m : Nat) (h : m ≤ infMag f) : magOf f (packSign f s m) = m := by
  have hi := infMag_lt_sign f
  unfold magOf
  rw [packSign_toNat f s m h]
  cases s
  · simpa using Nat.mod_eq_of_lt (by omega)
  · simpa using Nat.mod_eq_of_lt (by omega)

theorem signOf_packSign (f : AccFmt) (s : Bool) (m : Nat) (h : m ≤ infMag f) : signOf f (packSign f s m) = s := by
  have hi := infMag_lt_sign f
  unfold signOf
  rw [BitVec.getLsbD, packSign_toNat f s m h, Nat.testBit_eq_decide_div_mod_eq]
  have hm : m < 2 ^ (f.width - 1) := by omega
  cases s
  · simp [Nat.div_eq_of_lt hm]
  · rw [if_pos rfl, Nat.add_div_left _ (by positivity), Nat.div_eq_of_lt hm]
    rfl

theorem unitsOf_packSign (f : AccFmt) (s : Bool) (m : Nat) (h : m ≤ infMag f) :
    unitsOf f (packSign f s m) = unitsOfMag f m := by
  unfold unitsOf
  rw [magOf_packSign f s m h]

theorem valueOf_natAbs (f : AccFmt) (v : Acc) : (valueOf f v).natAbs = unitsOf f v := by
  unfold valueOf
  split <;> simp

theorem isFinite_iff (f : AccFmt) (v : Acc) : isFinite f v = true ↔ magOf f v < infMag f := by
  simp [isFinite]

theorem not_isNaN_of_finite (f : AccFmt) (v : Acc) (h : isFinite f v = true) : isNaN f v = false := by
  rw [isFinite_iff] at h
  simp only [isNaN, decide_eq_false_iff_not]
  omega

theorem unitsOf_le_max (f : AccFmt) (v : Acc) (h : isFinite f v = true) : unitsOf f v ≤ maxUnits f := by
  rw [isFinite_iff] at h
  exact unitsOfMag_mono f (by omega)

theorem magOf_le_inf_of_finite (f : AccFmt) (v : Acc) (h : isFinite f v = true) : magOf f v ≤ infMag f := by
  rw [isFinite_iff] at h
  omega

/-! ### Signs -/

theorem isFinite_packSign (f : AccFmt) (s : Bool) (m : Nat) (h : m < infMag f) : isFinite f (packSign f s m) = true := by
  rw [isFinite_iff, magOf_packSign f s m h.le]
  exact h

@[simp] theorem isFinite_negAcc (f : AccFmt) (v : Acc) (h : isFinite f v = true) : isFinite f (negAcc f v) = true :=
  isFinite_packSign f _ _ ((isFinite_iff f v).1 h)

@[simp] theorem isFinite_absAcc (f : AccFmt) (v : Acc) (h : isFinite f v = true) : isFinite f (absAcc f v) = true :=
  isFinite_packSign f _ _ ((isFinite_iff f v).1 h)

@[simp] theorem isFinite_setSign (f : AccFmt) (v : Acc) (h : isFinite f v = true) : isFinite f (setSign f v) = true :=
  isFinite_packSign f _ _ ((isFinite_iff f v).1 h)

theorem valueOf_negAcc (f : AccFmt) (v : Acc) (h : isFinite f v = true) : valueOf f (negAcc f v) = -valueOf f v := by
  have hm := magOf_le_inf_of_finite f v h
  unfold valueOf negAcc
  rw [signOf_packSign f _ _ hm, unitsOf_packSign f _ _ hm]
  cases signOf f v <;> simp [unitsOf]

theorem valueOf_absAcc (f : AccFmt) (v : Acc) (h : isFinite f v = true) : valueOf f (absAcc f v) = (unitsOf f v : Int) := by
  have hm := magOf_le_inf_of_finite f v h
  unfold valueOf absAcc
  rw [signOf_packSign f _ _ hm, unitsOf_packSign f _ _ hm]
  simp [unitsOf]

theorem valueOf_setSign (f : AccFmt) (v : Acc) (h : isFinite f v = true) : valueOf f (setSign f v) = -(unitsOf f v : Int) := by
  have hm := magOf_le_inf_of_finite f v h
  unfold valueOf setSign
  rw [signOf_packSign f _ _ hm, unitsOf_packSign f _ _ hm]
  simp [unitsOf]

/-! ### Sums and products -/

/-- The magnitude of a sum is its exact value rounded. -/
theorem magOf_addAcc (f : AccFmt) (a b : Acc) : magOf f (addAcc f a b) = roundMag f (valueOf f a + valueOf f b).natAbs 0 :=
  magOf_packSign f _ _ (roundMag_le_inf f _ _)

theorem signOf_addAcc (f : AccFmt) (a b : Acc) : signOf f (addAcc f a b) = sumSign f a b :=
  signOf_packSign f _ _ (roundMag_le_inf f _ _)

theorem magOf_mulAcc (f : AccFmt) (a b : Acc) :
    magOf f (mulAcc f a b) = roundMag f (unitsOf f a * unitsOf f b) (unitScale f) :=
  magOf_packSign f _ _ (roundMag_le_inf f _ _)

theorem signOf_mulAcc (f : AccFmt) (a b : Acc) : signOf f (mulAcc f a b) = (signOf f a != signOf f b) :=
  signOf_packSign f _ _ (roundMag_le_inf f _ _)

/-- A sum whose exact value is less than half a unit in the last place past the largest finite value is finite. -/
theorem isFinite_addAcc (f : AccFmt) (a b : Acc)
    (h : 2 * (valueOf f a + valueOf f b).natAbs < (2 * (2 ^ (fracBits f + 1) - 1) + 1) * 2 ^ topBinade f) :
    isFinite f (addAcc f a b) = true := by
  rw [isFinite_iff, magOf_addAcc]
  exact roundMag_finite f _ 0 (by simpa using h)

/-- A product no larger than a finite pattern is no larger after rounding. -/
theorem magOf_mulAcc_le (f : AccFmt) (a b : Acc) (m : Nat) (hm : m ≤ infMag f)
    (h : unitsOf f a * unitsOf f b ≤ unitsOfMag f m * 2 ^ unitScale f) : magOf f (mulAcc f a b) ≤ m := by
  rw [magOf_mulAcc]
  exact roundMag_le f _ m _ hm h

/-! ### The guarded primitives -/

theorem fadd_ok (f : AccFmt) (a b : Acc) (ha : isFinite f a = true) (hb : isFinite f b = true) :
    fadd f a b = .ok (addAcc f a b) := by simp [fadd, ha, hb]

theorem fsub_ok (f : AccFmt) (a b : Acc) (ha : isFinite f a = true) (hb : isFinite f b = true) :
    fsub f a b = .ok (addAcc f a (negAcc f b)) := by simp [fsub, ha, hb]

theorem fmul_ok (f : AccFmt) (a b : Acc) (ha : isFinite f a = true) (hb : isFinite f b = true) :
    fmul f a b = .ok (mulAcc f a b) := by simp [fmul, ha, hb]

theorem fgt_finite (f : AccFmt) (a b : Acc) (ha : isFinite f a = true) (hb : isFinite f b = true) :
    fgt f a b = decide (valueOf f b < valueOf f a) := by
  simp [fgt, not_isNaN_of_finite, ha, hb]

theorem flt_finite (f : AccFmt) (a b : Acc) (ha : isFinite f a = true) (hb : isFinite f b = true) :
    flt f a b = decide (valueOf f a < valueOf f b) := by
  simp [flt, not_isNaN_of_finite, ha, hb]

theorem fge_finite (f : AccFmt) (a b : Acc) (ha : isFinite f a = true) (hb : isFinite f b = true) :
    fge f a b = decide (valueOf f b ≤ valueOf f a) := by
  simp [fge, not_isNaN_of_finite, ha, hb]

end Sys2Proof.Machine
end

