-- ==== Sys2Proof/Laws/Datapath.lean ====
section
/-!
SUPPORT. What the datapath's shared operations can do: the modulator on a bounded channel with a legal configuration and the
interpolator on finite samples run, and their results stay finite (40_modulator.md R138, 41_interpolator.md R154).
-/

namespace Sys2Proof.Machine

set_option Elab.async false

/-! ### Computations that may fault -/

theorem except_bind_ok {α β : Type} {x : Except Fault α} {g : α → Except Fault β} {b : β} :
    (x >>= g) = .ok b ↔ ∃ a, x = .ok a ∧ g a = .ok b := by
  cases x with
  | error e => exact ⟨fun h => (nomatch h), fun ⟨a, h, _⟩ => (nomatch h)⟩
  | ok a => exact ⟨fun h => ⟨a, rfl, h⟩, fun ⟨c, h, hg⟩ => by cases h; exact hg⟩

theorem except_map_ok {α β : Type} {x : Except Fault α} {g : α → β} {b : β} :
    x.map g = .ok b ↔ ∃ a, x = .ok a ∧ g a = b := by
  cases x with
  | error e => exact ⟨fun h => (nomatch h), fun ⟨a, h, _⟩ => (nomatch h)⟩
  | ok a => exact ⟨fun h => ⟨a, rfl, by injection h⟩, fun ⟨c, h, hg⟩ => by cases h; subst hg; rfl⟩

@[simp] theorem except_ok_bind {α β : Type} (a : α) (g : α → Except Fault β) : (Except.ok a >>= g) = g a := rfl

@[simp] theorem except_error_bind {α β : Type} (e : Fault) (g : α → Except Fault β) :
    ((Except.error e : Except Fault α) >>= g) = .error e := rfl

@[simp] theorem ofExcept_ok (s : State) : ofExcept (.ok s) = .next s := rfl

@[simp] theorem ofExcept_error (e : Fault) : ofExcept (.error e) = .fault e := rfl

theorem ofExcept_next {r : Except Fault State} {s : State} : ofExcept r = .next s ↔ r = .ok s := by
  cases r with
  | ok a => exact ⟨fun h => by injection h with h; rw [h], fun h => by injection h with h; rw [h]; rfl⟩
  | error e => exact ⟨fun h => (nomatch h), fun h => (nomatch h)⟩

theorem ofExcept_not_refused {r : Except Fault State} {e : Refusal} : ofExcept r ≠ .refused e := by
  cases r <;> exact fun h => nomatch h

/-! ### Constants -/

theorem presetOne_units (f : AccFmt) : unitsOf f (presetOne f) = 2 ^ unitScale f := by cases f <;> decide +kernel

theorem presetOne_value (f : AccFmt) : valueOf f (presetOne f) = (2 ^ unitScale f : Nat) := by cases f <;> decide +kernel

theorem presetOne_finite (f : AccFmt) : isFinite f (presetOne f) = true := by cases f <;> decide +kernel

theorem limitMax_value (f : AccFmt) : valueOf f (limitMax f) = (65536 * 2 ^ unitScale f : Nat) := by cases f <;> decide +kernel

theorem limitMax_finite (f : AccFmt) : isFinite f (limitMax f) = true := by cases f <;> decide +kernel

@[simp] theorem zero_finite (f : AccFmt) : isFinite f 0 = true := by cases f <;> decide +kernel

@[simp] theorem zero_value (f : AccFmt) : valueOf f 0 = 0 := by cases f <;> decide +kernel

@[simp] theorem zero_units (f : AccFmt) : unitsOf f 0 = 0 := by cases f <;> decide +kernel

theorem quantAcc_finite (f : AccFmt) (q : Quant) : isFinite f (quantAcc f q) = true := by
  cases f <;> cases q <;> decide +kernel

theorem quantAcc_units (f : AccFmt) (q : Quant) : unitsOf f (quantAcc f q) ≤ 2 ^ unitScale f := by
  cases f <;> cases q <;> decide +kernel

/-- A small addend is small against half a unit in the last place of the largest finite value. -/
theorem small_lt_top (f : AccFmt) : 2 * (65536 * 2 ^ unitScale f) < 2 ^ topBinade f := by cases f <;> decide +kernel

/-! ### Legal configuration values (44_system.md R233) -/

theorem valueOf_nonneg_units (f : AccFmt) (v : Acc) (h : 0 ≤ valueOf f v) : (unitsOf f v : Int) = valueOf f v := by
  have := valueOf_natAbs f v
  omega

theorem legalGain_iff (f : AccFmt) (v : Acc) :
    legalGain f v = true ↔ isFinite f v = true ∧ unitsOf f v ≤ 2 ^ unitScale f := by
  unfold legalGain
  rw [Bool.and_eq_true]
  refine and_congr_right fun h => ?_
  rw [fge_finite f _ _ (presetOne_finite f) (isFinite_absAcc f v h), decide_eq_true_eq, valueOf_absAcc f v h,
    presetOne_value, Int.ofNat_le]

theorem legalCoef_iff (f : AccFmt) (v : Acc) :
    legalCoef f v = true ↔ isFinite f v = true ∧ 0 ≤ valueOf f v ∧ valueOf f v ≤ (2 ^ unitScale f : Nat) := by
  unfold legalCoef
  rw [Bool.and_eq_true, Bool.and_eq_true, and_assoc]
  refine and_congr_right fun h => ?_
  rw [fge_finite f _ _ h (zero_finite f), fge_finite f _ _ (presetOne_finite f) h, decide_eq_true_eq, decide_eq_true_eq,
    presetOne_value, zero_value]

theorem legalLimit_iff (f : AccFmt) (v : Acc) :
    legalLimit f v = true ↔ isFinite f v = true ∧ (2 ^ unitScale f : Nat) ≤ valueOf f v ∧
      valueOf f v ≤ (65536 * 2 ^ unitScale f : Nat) := by
  unfold legalLimit
  rw [Bool.and_eq_true, Bool.and_eq_true, and_assoc]
  refine and_congr_right fun h => ?_
  rw [fge_finite f _ _ h (presetOne_finite f), fge_finite f _ _ (limitMax_finite f) h, decide_eq_true_eq, decide_eq_true_eq,
    presetOne_value, limitMax_value]

theorem legalCoef_units (f : AccFmt) (v : Acc) (h : legalCoef f v = true) : unitsOf f v ≤ 2 ^ unitScale f := by
  obtain ⟨-, h0, h1⟩ := (legalCoef_iff f v).1 h
  have := valueOf_nonneg_units f v h0
  omega

theorem withinLimit_iff (f : AccFmt) (limit v : Acc) (hl : isFinite f limit = true) :
    withinLimit f limit v = true ↔ isFinite f v = true ∧ (unitsOf f v : Int) ≤ valueOf f limit := by
  unfold withinLimit
  rw [Bool.and_eq_true]
  refine and_congr_right fun h => ?_
  rw [fge_finite f _ _ hl (isFinite_absAcc f v h), decide_eq_true_eq, valueOf_absAcc f v h]

/-! ### Single operations stay finite -/

/-- Scaling by at most one shrinks. -/
theorem mulAcc_shrink (f : AccFmt) (x g : Acc) (hx : isFinite f x = true) (hg : unitsOf f g ≤ 2 ^ unitScale f) :
    isFinite f (mulAcc f x g) = true ∧ unitsOf f (mulAcc f x g) ≤ unitsOf f x := by
  have hm := magOf_mulAcc_le f x g (magOf f x) (magOf_le_inf_of_finite f x hx) (Nat.mul_le_mul_left _ hg)
  refine ⟨(isFinite_iff f _).2 (lt_of_le_of_lt hm ((isFinite_iff f x).1 hx)), unitsOfMag_mono f hm⟩

/-- Adding something of magnitude at most 65536 to a finite value stays finite. -/
theorem addAcc_small (f : AccFmt) (a b : Acc) (ha : isFinite f a = true) (hb : unitsOf f b ≤ 65536 * 2 ^ unitScale f) :
    isFinite f (addAcc f a b) = true ∧ isFinite f (addAcc f b a) = true := by
  have hmax := unitsOf_le_max f a ha
  rw [maxUnits_eq] at hmax
  have ht := small_lt_top f
  have hva := valueOf_natAbs f a
  have hvb := valueOf_natAbs f b
  have hexp : (2 * (2 ^ (fracBits f + 1) - 1) + 1) * 2 ^ topBinade f =
      2 * ((2 ^ (fracBits f + 1) - 1) * 2 ^ topBinade f) + 2 ^ topBinade f := by ring
  constructor <;> refine isFinite_addAcc f _ _ ?_ <;> rw [hexp] <;> omega

theorem unitsOf_negAcc (f : AccFmt) (v : Acc) (h : isFinite f v = true) : unitsOf f (negAcc f v) = unitsOf f v :=
  unitsOf_packSign f _ _ (magOf_le_inf_of_finite f v h)

/-- The results of the operations that may fault, where they do not. -/
theorem fadd_eq {f : AccFmt} {a b r : Acc} (h : fadd f a b = .ok r) : r = addAcc f a b := by
  unfold fadd at h
  split at h <;> cases h
  rfl

theorem fsub_eq {f : AccFmt} {a b r : Acc} (h : fsub f a b = .ok r) : r = addAcc f a (negAcc f b) := by
  unfold fsub at h
  split at h <;> cases h
  rfl

theorem fmul_eq {f : AccFmt} {a b r : Acc} (h : fmul f a b = .ok r) : r = mulAcc f a b := by
  unfold fmul at h
  split at h <;> cases h
  rfl

theorem integrateStage_eq {f : AccFmt} {s prev qv c r : Acc} (h : integrateStage f s prev qv c = .ok r) :
    r = addAcc f s (stageDiff f prev qv c) := by
  unfold integrateStage at h
  obtain ⟨p, hp, h⟩ := except_bind_ok.1 h
  obtain ⟨d, hd, h⟩ := except_bind_ok.1 h
  rw [fadd_eq h, fsub_eq hd, fmul_eq hp]
  rfl

/-- One later stage of INTEGRATE, on a bounded accumulator and a finite predecessor. -/
theorem integrateStage_finite (f : AccFmt) (s prev qv c : Acc) (hs : unitsOf f s ≤ 65536 * 2 ^ unitScale f)
    (hsf : isFinite f s = true) (hp : isFinite f prev = true) (hq : isFinite f qv = true)
    (hqu : unitsOf f qv ≤ 2 ^ unitScale f) (hc : isFinite f c = true) (hcu : unitsOf f c ≤ 2 ^ unitScale f) :
    ∃ r, integrateStage f s prev qv c = .ok r ∧ isFinite f r = true := by
  obtain ⟨h1, h2⟩ := mulAcc_shrink f qv c hq hcu
  have h3 := (addAcc_small f prev (negAcc f (mulAcc f qv c)) hp (by
    rw [unitsOf_negAcc f _ h1]
    omega)).1
  have h4 := (addAcc_small f _ s h3 hs).2
  refine ⟨_, ?_, h4⟩
  simp [integrateStage, fmul_ok f qv c hq hc, fsub_ok f prev _ hp h1, fadd_ok f s _ hsf h3]

/-! ### The modulator (40_modulator.md R138, R139) -/

theorem bounded_accs (f : AccFmt) (limit : Acc) (l : Lane) (h : l.bounded f limit = true) :
    withinLimit f limit l.s0 = true ∧ withinLimit f limit l.s1 = true ∧ withinLimit f limit l.s2 = true ∧
      withinLimit f limit l.s3 = true ∧ withinLimit f limit l.s4 = true := by
  simpa [Lane.bounded, Lane.accs, and_assoc] using h

/-- A legal LIMIT bounds an accumulator by 65536. -/
theorem withinLimit_units (f : AccFmt) (limit v : Acc) (hl : legalLimit f limit = true) (h : withinLimit f limit v = true) :
    isFinite f v = true ∧ unitsOf f v ≤ 65536 * 2 ^ unitScale f := by
  obtain ⟨hf, h1, h2⟩ := (legalLimit_iff f limit).1 hl
  obtain ⟨h3, h4⟩ := (withinLimit_iff f limit v hf).1 h
  exact ⟨h3, by omega⟩

/-- The parts of a legal configuration. -/
theorem legal_parts (f : AccFmt) (c : CfgRegs) (h : c.legal f = true) :
    legalGain f c.gain = true ∧ legalCoef f c.c1 = true ∧ legalCoef f c.c2 = true ∧ legalCoef f c.c3 = true ∧
      legalCoef f c.c4 = true ∧ legalLimit f c.limit = true := by
  simp only [CfgRegs.legal, Bool.and_eq_true] at h
  tauto

/-- INTEGRATE on a bounded channel and a finite scaled sample runs, and leaves finite accumulators. -/
theorem integrateLane_finite (f : AccFmt) (cfg : CfgRegs) (l : Lane) (x : Acc) (hc : cfg.legal f = true)
    (hl : l.bounded f cfg.limit = true) (hx : isFinite f x = true) :
    ∃ l', integrateLane f cfg l x = .ok l' ∧ (∀ v ∈ l'.accs, isFinite f v = true) ∧ l'.q = l.q ∧ l'.cur = l.cur ∧
      l'.nxt = l.nxt ∧ l'.sh = l.sh := by
  obtain ⟨hg, h1, h2, h3, h4, hlim⟩ := legal_parts f cfg hc
  obtain ⟨b0, b1, b2, b3, b4⟩ := bounded_accs f cfg.limit l hl
  have hq := quantAcc_finite f l.q
  have hqu := quantAcc_units f l.q
  have hone : 2 ^ unitScale f ≤ 65536 * 2 ^ unitScale f := by omega
  have w := fun v hv => withinLimit_units f cfg.limit v hlim hv
  have e0 := (addAcc_small f x (negAcc f (quantAcc f l.q)) hx (by
    rw [unitsOf_negAcc f _ hq]
    omega)).1
  have e1 := (addAcc_small f _ l.s0 e0 (w _ b0).2).2
  have c := fun v (hv : legalCoef f v = true) => And.intro ((legalCoef_iff f v).1 hv).1 (legalCoef_units f v hv)
  obtain ⟨r1, p1, f1⟩ := integrateStage_finite f l.s1 _ _ cfg.c1 (w _ b1).2 (w _ b1).1 e1 hq hqu (c _ h1).1 (c _ h1).2
  obtain ⟨r2, p2, f2⟩ := integrateStage_finite f l.s2 _ _ cfg.c2 (w _ b2).2 (w _ b2).1 f1 hq hqu (c _ h2).1 (c _ h2).2
  obtain ⟨r3, p3, f3⟩ := integrateStage_finite f l.s3 _ _ cfg.c3 (w _ b3).2 (w _ b3).1 f2 hq hqu (c _ h3).1 (c _ h3).2
  obtain ⟨r4, p4, f4⟩ := integrateStage_finite f l.s4 _ _ cfg.c4 (w _ b4).2 (w _ b4).1 f3 hq hqu (c _ h4).1 (c _ h4).2
  refine ⟨{ l with s0 := addAcc f l.s0 (addAcc f x (negAcc f (quantAcc f l.q))), s1 := r1, s2 := r2, s3 := r3, s4 := r4 }, ?_, ?_, rfl, rfl, rfl, rfl⟩
  rotate_left
  · simp [Lane.accs, e1, f1, f2, f3, f4]
  · simp [integrateLane, fsub_ok f x _ hx hq, fadd_ok f l.s0 _ (w _ b0).1 e0, p1, p2, p3, p4]

/-- What INTEGRATE answers is the channel with the five sums (R128). -/
theorem integrateLane_integrated {f : AccFmt} {cfg : CfgRegs} {l l' : Lane} {x : Acc} (h : integrateLane f cfg l x = .ok l') :
    l' = integrated f cfg l x := by
  unfold integrateLane at h
  obtain ⟨d0, e0, h⟩ := except_bind_ok.1 h
  obtain ⟨s0, e1, h⟩ := except_bind_ok.1 h
  obtain ⟨s1, e2, h⟩ := except_bind_ok.1 h
  obtain ⟨s2, e3, h⟩ := except_bind_ok.1 h
  obtain ⟨s3, e4, h⟩ := except_bind_ok.1 h
  obtain ⟨s4, e5, h⟩ := except_bind_ok.1 h
  injection h with h
  rw [← h, fadd_eq e1, fsub_eq e0, integrateStage_eq e5, integrateStage_eq e4, integrateStage_eq e3, integrateStage_eq e2,
    fadd_eq e1, fsub_eq e0]
  rfl

/-- The product and the difference of a later stage, from a finite predecessor. -/
theorem stageWires_finite (f : AccFmt) (prev qv c : Acc) (hp : isFinite f prev = true) (hq : isFinite f qv = true)
    (hqu : unitsOf f qv ≤ 2 ^ unitScale f) (hcu : unitsOf f c ≤ 2 ^ unitScale f) :
    ∀ v ∈ stageWires f prev qv c, isFinite f v = true := by
  obtain ⟨h1, h2⟩ := mulAcc_shrink f qv c hq hcu
  have h3 := (addAcc_small f prev (negAcc f (mulAcc f qv c)) hp (by
    rw [unitsOf_negAcc f _ h1]
    omega)).1
  simpa [stageWires, stageDiff] using ⟨h1, h3⟩

/-- Everything INTEGRATE computes on a bounded channel from a finite scaled sample is finite (40_modulator.md R138). -/
theorem integrateWires_finite (f : AccFmt) (cfg : CfgRegs) (l : Lane) (x : Acc) (hc : cfg.legal f = true)
    (hl : l.bounded f cfg.limit = true) (hx : isFinite f x = true) :
    ∀ v ∈ integrateWires f cfg l x, isFinite f v = true := by
  obtain ⟨-, h1, h2, h3, h4, -⟩ := legal_parts f cfg hc
  obtain ⟨l', hl', hv, -⟩ := integrateLane_finite f cfg l x hc hl hx
  rw [integrateLane_integrated hl'] at hv
  have hq := quantAcc_finite f l.q
  have hqu := quantAcc_units f l.q
  have e0 := (addAcc_small f x (negAcc f (quantAcc f l.q)) hx (by
    rw [unitsOf_negAcc f _ hq]
    omega)).1
  have hs : ∀ prev c, isFinite f prev = true → legalCoef f c = true →
      ∀ v ∈ stageWires f prev (quantAcc f l.q) c, isFinite f v = true :=
    fun prev c hp hc => stageWires_finite f prev _ c hp hq hqu (legalCoef_units f c hc)
  intro v hm
  simp only [integrateWires, List.mem_append, List.mem_cons, List.not_mem_nil, or_false] at hm
  obtain ((((((rfl | rfl) | hm) | hm) | hm) | hm) | hm) := hm
  · exact hq
  · exact e0
  · exact hs _ _ (hv _ (by simp [Lane.accs])) h1 v hm
  · exact hs _ _ (hv _ (by simp [Lane.accs])) h2 v hm
  · exact hs _ _ (hv _ (by simp [Lane.accs])) h3 v hm
  · exact hs _ _ (hv _ (by simp [Lane.accs])) h4 v hm
  · exact hv v hm

/-! ### The clamp, the catastrophic reset and the quantizer -/

theorem cvtInt_byte (f : AccFmt) (m : BitVec 8) :
    isFinite f (cvtInt f m.toNat) = true ∧ unitsOf f (cvtInt f m.toNat) ≤ 256 * 2 ^ unitScale f := by
  have h : ∀ n : Fin 256, isFinite f (cvtInt f n) = true ∧ unitsOf f (cvtInt f n) ≤ 256 * 2 ^ unitScale f := by
    cases f <;> decide +kernel
  exact h ⟨m.toNat, m.isLt⟩

theorem panic_room (f : AccFmt) : 2 * ((256 * 2 ^ unitScale f) * (65536 * 2 ^ unitScale f)) <
    (2 * (2 ^ (fracBits f + 1) - 1) + 1) * 2 ^ (unitScale f + topBinade f) := by cases f <;> decide +kernel

/-- `PANIC_MULT * LIMIT` stays finite (40_modulator.md R131). -/
theorem panicBound_finite (f : AccFmt) (cfg : CfgRegs) (h : legalLimit f cfg.limit = true) :
    isFinite f (mulAcc f (cvtInt f (panicMult cfg.policy).toNat) cfg.limit) = true := by
  obtain ⟨-, h2, h3⟩ := (legalLimit_iff f cfg.limit).1 h
  have hu : unitsOf f cfg.limit ≤ 65536 * 2 ^ unitScale f := by
    have := valueOf_nonneg_units f cfg.limit (by omega)
    omega
  have hm := Nat.mul_le_mul (cvtInt_byte f (panicMult cfg.policy)).2 hu
  rw [isFinite_iff, magOf_mulAcc]
  exact roundMag_finite f _ _ (lt_of_le_of_lt (Nat.mul_le_mul_left 2 hm) (panic_room f))

/-- Every intermediate of MODULATE is finite, in both formats, on what R138 asks for on entry (40_modulator.md R138). -/
theorem modulateWires_finite (f : AccFmt) (cfg : CfgRegs) (l : Lane) (x : Acc) (h : modulateReady f cfg l x = true) :
    ∀ v ∈ modulateWires f cfg l x, isFinite f v = true := by
  simp only [modulateReady, Bool.and_eq_true] at h
  obtain ⟨⟨hc, hl⟩, hx⟩ := h
  obtain ⟨hg, -, -, -, -, hlim⟩ := legal_parts f cfg hc
  have hs := (mulAcc_shrink f x cfg.gain hx ((legalGain_iff f cfg.gain).1 hg).2).1
  intro v hm
  simp only [modulateWires, panicWires, List.mem_append, List.mem_cons, List.not_mem_nil, or_false] at hm
  obtain rfl | hm | rfl | rfl := hm
  · exact hs
  · exact integrateWires_finite f cfg l _ hc hl hs v hm
  · exact (cvtInt_byte f _).1
  · exact panicBound_finite f cfg hlim

/-- What PANIC_CHECK does on a finite channel with a legal LIMIT. -/
theorem panicLane_ok (f : AccFmt) (cfg : CfgRegs) (l : Lane) (h : legalLimit f cfg.limit = true)
    (hs : isFinite f l.s4 = true) : panicLane f cfg l = .ok (if panicFires f cfg l then zeroAccs l else l) := by
  obtain ⟨hl, -, -⟩ := (legalLimit_iff f cfg.limit).1 h
  unfold panicLane panicFires
  split
  · next h0 => simp [h0]
  · next h0 =>
    have h0 : ¬panicMult cfg.policy = 0#8 := h0
    simp [fmul_ok f _ _ (cvtInt_byte f _).1 hl, needFinite, panicBound_finite f cfg h, hs, h0]

/-- PANIC_CHECK leaves the channel or zeroes its accumulators, the latter only when the threshold is crossed. -/
theorem panicLane_cases (f : AccFmt) (cfg : CfgRegs) (l l' : Lane) (h : panicLane f cfg l = .ok l') :
    (l' = l ∧ (panicMult cfg.policy = 0 ∨ panicFires f cfg l = false)) ∨
      (l' = zeroAccs l ∧ panicMult cfg.policy ≠ 0 ∧ panicFires f cfg l = true) := by
  unfold panicLane at h
  split at h
  · next h0 =>
    injection h with h
    exact .inl ⟨h.symm, .inl h0⟩
  · next h0 =>
    obtain ⟨b, hb, h⟩ := except_bind_ok.1 h
    obtain ⟨b', hb', h⟩ := except_bind_ok.1 h
    obtain ⟨v, hv, h⟩ := except_bind_ok.1 h
    have e1 : v = l.s4 := by
      unfold needFinite at hv
      split at hv <;> simp_all
    have e2 : b = mulAcc f (cvtInt f (panicMult cfg.policy).toNat) cfg.limit := by
      unfold fmul at hb
      split at hb <;> simp_all
    have e3 : fgt f (absAcc f v) b = panicFires f cfg l := by
      have h0 : ¬panicMult cfg.policy = 0#8 := h0
      simp [panicFires, h0, e1, e2]
    rw [e3] at h
    injection h with h
    split at h
    · next hp => exact .inr ⟨h.symm, h0, hp⟩
    · next hp => exact .inl ⟨h.symm, .inr (by simpa using hp)⟩

theorem unitsOf_setSign (f : AccFmt) (v : Acc) (h : isFinite f v = true) : unitsOf f (setSign f v) = unitsOf f v :=
  unitsOf_packSign f _ _ (magOf_le_inf_of_finite f v h)

/-- What CLAMP makes of a finite accumulator: the nearest value within the limit (40_modulator.md R133). -/
theorem clampAcc_ok (f : AccFmt) (limit v : Acc) (hl : legalLimit f limit = true) (hv : isFinite f v = true) :
    ∃ r, clampAcc f limit v = .ok r ∧ withinLimit f limit r = true ∧
      valueOf f r = max (-valueOf f limit) (min (valueOf f limit) (valueOf f v)) := by
  obtain ⟨h1, h2, -⟩ := (legalLimit_iff f limit).1 hl
  have hp : (0 : Int) ≤ valueOf f limit := (Int.natCast_nonneg _).trans h2
  have hu := valueOf_nonneg_units f limit hp
  have hn := valueOf_setSign f limit h1
  have hna := valueOf_natAbs f v
  refine ⟨_, by simp only [clampAcc, hv, h1, Bool.and_self, if_true]; rfl, ?_, ?_⟩
  · rw [withinLimit_iff f limit _ h1, fgt_finite f v limit hv h1, flt_finite f v _ hv (isFinite_setSign f limit h1)]
    simp only [decide_eq_true_eq]
    split
    · exact ⟨h1, by omega⟩
    · split
      · exact ⟨isFinite_setSign f limit h1, by rw [unitsOf_setSign f limit h1]; omega⟩
      · exact ⟨hv, by omega⟩
  · rw [fgt_finite f v limit hv h1, flt_finite f v _ hv (isFinite_setSign f limit h1)]
    simp only [decide_eq_true_eq]
    split
    · omega
    · split <;> omega

/-- CLAMP on a finite channel with a legal LIMIT bounds it and touches nothing but the accumulators. -/
theorem clampLane_ok (f : AccFmt) (cfg : CfgRegs) (l : Lane) (hl : legalLimit f cfg.limit = true)
    (hv : ∀ v ∈ l.accs, isFinite f v = true) :
    ∃ l', clampLane f cfg l = .ok l' ∧ l'.bounded f cfg.limit = true ∧ l'.q = l.q ∧ l'.cur = l.cur ∧ l'.nxt = l.nxt ∧
      l'.sh = l.sh := by
  simp only [Lane.accs, List.mem_cons, List.not_mem_nil, or_false, forall_eq_or_imp, forall_eq] at hv
  obtain ⟨v0, v1, v2, v3, v4⟩ := hv
  obtain ⟨r0, p0, b0, -⟩ := clampAcc_ok f cfg.limit l.s0 hl v0
  obtain ⟨r1, p1, b1, -⟩ := clampAcc_ok f cfg.limit l.s1 hl v1
  obtain ⟨r2, p2, b2, -⟩ := clampAcc_ok f cfg.limit l.s2 hl v2
  obtain ⟨r3, p3, b3, -⟩ := clampAcc_ok f cfg.limit l.s3 hl v3
  obtain ⟨r4, p4, b4, -⟩ := clampAcc_ok f cfg.limit l.s4 hl v4
  exact ⟨{ l with s0 := r0, s1 := r1, s2 := r2, s3 := r3, s4 := r4 }, by simp [clampLane, p0, p1, p2, p3, p4],
    by simp [Lane.bounded, Lane.accs, b0, b1, b2, b3, b4], rfl, rfl, rfl, rfl⟩

/-- QUANTIZE on a finite s4: the bit is its sign, and the feedback value follows the bit. -/
theorem quantizeLane_ok (f : AccFmt) (l : Lane) (h : isFinite f l.s4 = true) :
    quantizeLane f l =
      .ok ({ l with q := if 0 ≤ valueOf f l.s4 then .plus else .minus }, decide (0 ≤ valueOf f l.s4)) := by
  have e : fge f l.s4 0#64 = decide (0 ≤ valueOf f l.s4) := by
    have := fge_finite f l.s4 0 h (zero_finite f)
    rwa [zero_value] at this
  simp [quantizeLane, needFinite, h, e]

/-! ### The interpolator (41_interpolator.md R152, R153) -/

theorem weight_finite (f : AccFmt) (i : BitVec 6) :
    isFinite f (weight f i) = true ∧ unitsOf f (weight f i) ≤ 2 ^ unitScale f := by
  have h : ∀ n : Fin 64, isFinite f (weight f ⟨n⟩) = true ∧ unitsOf f (weight f ⟨n⟩) ≤ 2 ^ unitScale f := by
    cases f <;> decide +kernel
  exact h i.toFin

/-- `1 - w` is exact: both weights are whole 64ths of one. -/
theorem weights_exact (f : AccFmt) (i : BitVec 6) :
    64 * unitsOf f (weight f i) = i.toNat * 2 ^ unitScale f ∧
      isFinite f (addAcc f (presetOne f) (negAcc f (weight f i))) = true ∧
      64 * unitsOf f (addAcc f (presetOne f) (negAcc f (weight f i))) = (64 - i.toNat) * 2 ^ unitScale f := by
  have h : ∀ n : Fin 64, 64 * unitsOf f (weight f ⟨n⟩) = n.val * 2 ^ unitScale f ∧
      isFinite f (addAcc f (presetOne f) (negAcc f (weight f ⟨n⟩))) = true ∧
      64 * unitsOf f (addAcc f (presetOne f) (negAcc f (weight f ⟨n⟩))) = (64 - n.val) * 2 ^ unitScale f := by
    cases f <;> decide +kernel
  exact h i.toFin

end Sys2Proof.Machine
end

