-- ==== Sys2Proof/Laws/Ops.lean ====
section
/-!
SUPPORT. What each shared operation over the whole state can do, said once: from a next state back to the form it has.
-/

namespace Sys2Proof.Machine

set_option Elab.async false

/-! ### Repetition -/

/-- What one turn keeps, any number of turns keeps. -/
theorem repeatOp_keeps {α : Type} {op : α → Except Fault α} (P : α → Prop)
    (hstep : ∀ a b, P a → op a = .ok b → P b) : ∀ (n : Nat) (a b : α), P a → repeatOp op n a = .ok b → P b
  | 0, a, b, ha, h => by
    injection h with h
    exact h ▸ ha
  | n + 1, a, b, ha, h => by
    unfold repeatOp at h
    split at h
    · next c hc => exact repeatOp_keeps P hstep n c b (hstep a c ha hc) h
    · cases h

/-- If every turn runs and keeps `P`, all turns run. -/
theorem repeatOp_runs {α : Type} {op : α → Except Fault α} (P : α → Prop)
    (hstep : ∀ a, P a → ∃ b, op a = .ok b ∧ P b) : ∀ (n : Nat) (a : α), P a → ∃ b, repeatOp op n a = .ok b ∧ P b
  | 0, a, ha => ⟨a, rfl, ha⟩
  | n + 1, a, ha => by
    obtain ⟨b, hb, hP⟩ := hstep a ha
    obtain ⟨c, hc, hQ⟩ := repeatOp_runs P hstep n b hP
    exact ⟨c, by simp only [repeatOp, hb, hc], hQ⟩

/-- Turns in two parts. -/
theorem repeatOp_add {α : Type} (op : α → Except Fault α) (m : Nat) : ∀ (n : Nat) (a : α),
    repeatOp op (n + m) a = (repeatOp op n a >>= repeatOp op m)
  | 0, a => by simp [repeatOp]
  | n + 1, a => by
    rw [Nat.add_right_comm]
    unfold repeatOp
    split
    · exact repeatOp_add op m n _
    · rfl

/-! ### The packer -/

/-- EMIT_GROUP appends `wg` to the slot being processed, or there is no element left. -/
theorem emitGroupOp_cases {s s' : State} (h : emitGroupOp s = .ok s') :
    (procSlot s).nGroups < s.par.batchCap ∧
      s' = { s with slots := s.slots.write (slotIndex s.par s.procSeq) ((procSlot s).appendGroup s.dp.wg) } := by
  unfold emitGroupOp at h
  split at h
  · next hc =>
    injection h with h
    exact ⟨hc, h.symm⟩
  · cases h

/-! ### The step sequencer -/

/-- STEP on the datapath: both channels are interpolated, modulated and packed, then the half is closed or not. -/
theorem stepDatapath_cases {f : AccFmt} {cfg : CfgRegs} {dp dp' : Datapath} (h : stepDatapath f cfg dp = .ok dp') :
    ∃ xL xR l bL r bR, interpLane f dp .left = .ok xL ∧ interpLane f dp .right = .ok xR ∧
      modulateLane f cfg dp.left xL = .ok (l, bL) ∧ modulateLane f cfg dp.right xR = .ok (r, bR) ∧
      dp' = (if posOf dp.i = 31 then closeHalfDp { dp with left := packLane l bL, right := packLane r bR }
        else { dp with left := packLane l bL, right := packLane r bR }) := by
  unfold stepDatapath at h
  obtain ⟨xL, hxL, h⟩ := except_bind_ok.1 h
  obtain ⟨xR, hxR, h⟩ := except_bind_ok.1 h
  obtain ⟨⟨l, bL⟩, hl, h⟩ := except_bind_ok.1 h
  obtain ⟨⟨r, bR⟩, hr, h⟩ := except_bind_ok.1 h
  injection h with h
  exact ⟨xL, xR, l, bL, r, bR, hxL, hxR, hl, hr, h.symm⟩

/-- STEP never touches the step index, the flags, or what no packer word stands in. -/
theorem stepDatapath_frame {f : AccFmt} {cfg : CfgRegs} {dp dp' : Datapath} (h : stepDatapath f cfg dp = .ok dp') :
    dp'.i = dp.i ∧ dp'.haveCur = dp.haveCur ∧ dp'.inTransition = dp.inTransition := by
  obtain ⟨_, _, _, _, _, _, -, -, -, -, rfl⟩ := stepDatapath_cases h
  split <;> simp

/-- STEP on the state: the datapath's step, the step index one on, and after step 63 one more Word Group. -/
theorem stepOp_cases {s s' : State} (h : stepOp s = .ok s') :
    ∃ dp, stepDatapath s.par.accFmt s.cfg s.dp = .ok dp ∧
      ((s.dp.i ≠ 63 ∧ s' = { s with dp := advanceStep dp }) ∨
        (s.dp.i = 63 ∧ (procSlot s).nGroups < s.par.batchCap ∧
          s' = { s with
            dp := advanceStep dp
            slots := s.slots.write (slotIndex s.par s.procSeq) ((procSlot s).appendGroup dp.wg) })) := by
  unfold stepOp at h
  obtain ⟨dp, hdp, h⟩ := except_bind_ok.1 h
  refine ⟨dp, hdp, ?_⟩
  obtain ⟨s1, hs1, h⟩ := except_bind_ok.1 h
  injection h with h
  unfold emitAfterStep at hs1
  split at hs1
  · next hi =>
    obtain ⟨hc, rfl⟩ := emitGroupOp_cases hs1
    exact .inr ⟨hi, hc, h.symm⟩
  · next hi =>
    injection hs1 with hs1
    subst hs1
    exact .inl ⟨hi, h.symm⟩

/-- STEP changes the datapath and the slot being processed only, and of that slot only its groups. -/
theorem stepOp_frame {s s' : State} (h : stepOp s = .ok s') :
    (∃ v, s' = { s with dp := s'.dp, slots := v } ∧
      (v = s.slots ∨ v = s.slots.write (slotIndex s.par s.procSeq) ((procSlot s).appendGroup s'.dp.wg))) ∧
      s'.dp.haveCur = s.dp.haveCur ∧ s'.dp.inTransition = s.dp.inTransition ∧ s'.dp.i = s.dp.i + 1 := by
  obtain ⟨dp, hdp, ⟨-, rfl⟩ | ⟨-, -, rfl⟩⟩ := stepOp_cases h <;> obtain ⟨h1, h2, h3⟩ := stepDatapath_frame hdp
  · exact ⟨⟨_, rfl, .inl rfl⟩, by simp [h2], by simp [h3], by simp [h1]⟩
  · exact ⟨⟨_, rfl, .inr rfl⟩, by simp [h2], by simp [h3], by simp [h1]⟩

/-- TRANSITION: 64 STEPs, then `nxt` becomes `cur`. -/
theorem transitionOp_cases {s s' : State} (h : transitionOp s = .ok s') :
    ∃ s1, repeatOp stepOp 64 s = .ok s1 ∧ s' = { s1 with dp := takeFrame s1.dp } := by
  unfold transitionOp at h
  obtain ⟨s1, hs1, h⟩ := except_bind_ok.1 h
  injection h with h
  exact ⟨s1, hs1, h.symm⟩

/-- PROCESS_FRAME: the Frame at `proc_idx` is loaded, then stored or run through a TRANSITION, and counted. -/
theorem processFrameOp_cases {s s' : State} (h : processFrameOp s = .ok s') :
    ∃ x, (procSlot s).frame s.procIdx = some x ∧
      ((s.dp.haveCur = false ∧ s' = { s with dp := storeFirst (loadFrame s.dp x), procIdx := s.procIdx + 1 }) ∨
        (s.dp.haveCur = true ∧ ∃ s1, transitionOp { s with dp := loadFrame s.dp x } = .ok s1 ∧
          s' = { s1 with procIdx := s1.procIdx + 1 })) := by
  unfold processFrameOp at h
  split at h
  · cases h
  · next x hx =>
    refine ⟨x, hx, ?_⟩
    obtain ⟨s2, hs2, h⟩ := except_bind_ok.1 h
    injection h with h
    unfold useFrame at hs2
    split at hs2
    · next hc => exact .inr ⟨hc, s2, hs2, h.symm⟩
    · next hc =>
      injection hs2 with hs2
      subst hs2
      exact .inl ⟨by simpa using hc, h.symm⟩

/-- TRANSITION changes the datapath and the slots only, keeps `have_cur`, and is over when it answers. -/
theorem transitionOp_frame {s s' : State} (h : transitionOp s = .ok s') :
    s' = { s with dp := s'.dp, slots := s'.slots } ∧ s'.dp.haveCur = s.dp.haveCur ∧ s'.dp.inTransition = false := by
  obtain ⟨s1, h1, rfl⟩ := transitionOp_cases h
  have hk := repeatOp_keeps
    (fun a => a = { s with dp := a.dp, slots := a.slots } ∧ a.dp.haveCur = s.dp.haveCur)
    (fun a b ha hb => by
      obtain ⟨⟨v, hv, -⟩, h2, -⟩ := stepOp_frame hb
      refine ⟨?_, h2.trans ha.2⟩
      rw [hv, ha.1]) 64 s s1 ⟨rfl, rfl⟩ h1
  refine ⟨?_, hk.2, takeFrame_inTransition _⟩
  rw [hk.1]

/-- PROCESS_FRAME changes the datapath, the slots and `proc_idx` only, never clears `have_cur`, and leaves no transition in work. -/
theorem processFrameOp_frame {s s' : State} (h : processFrameOp s = .ok s') :
    s' = { s with dp := s'.dp, slots := s'.slots, procIdx := s.procIdx + 1 } ∧
      s'.dp.haveCur = true ∧ s'.dp.inTransition = false := by
  obtain ⟨x, hx, ⟨h1, rfl⟩ | ⟨h1, s1, h2, rfl⟩⟩ := processFrameOp_cases h
  · exact ⟨rfl, rfl, rfl⟩
  · obtain ⟨h3, h4, h5⟩ := transitionOp_frame h2
    refine ⟨?_, h4.trans h1, h5⟩
    rw [h3]

/-! ### Guards as propositions -/

theorem live_iff (s : State) : live s = true ↔ s.phase = .run ∨ s.phase = .drain := by
  simp only [live, Bool.or_eq_true, beq_iff_eq]

theorem canTake_iff (s : State) :
    canTake s = true ↔ (s.phase = .idle ∨ s.phase = .run) ∧ (fillSlot s).state = .empty ∧ s.fillCnt < s.par.batchCap := by
  simp only [canTake, Bool.and_eq_true, Bool.or_eq_true, beq_iff_eq, decide_eq_true_eq, and_assoc]

theorem canSanitize_iff (s : State) : canSanitize s = true ↔ s.phase ≠ .done ∧ s.phase ≠ .aborted := by
  simp only [canSanitize, ended, Bool.not_eq_true', Bool.or_eq_false_iff, beq_eq_false_iff_ne]

theorem canClose_iff (s : State) : canClose s = true ↔ live s = true ∧ 1 ≤ s.fillCnt := by
  simp only [canClose, Bool.and_eq_true, decide_eq_true_eq]

theorem canClaim_iff (s : State) :
    canClaim s = true ↔ live s = true ∧ s.dpOwner = none ∧ (procSlot s).state = .filled := by
  simp only [canClaim, Bool.and_eq_true, beq_iff_eq, and_assoc]

theorem canProcess_iff (s : State) :
    canProcess s = true ↔ live s = true ∧ s.dpOwner ≠ none ∧ s.procIdx < (procSlot s).nFrames := by
  simp only [canProcess, Bool.and_eq_true, bne_iff_ne, decide_eq_true_eq, and_assoc]

theorem canDone_iff (s : State) :
    canDone s = true ↔ live s = true ∧ s.dpOwner ≠ none ∧ s.procIdx = (procSlot s).nFrames := by
  simp only [canDone, Bool.and_eq_true, bne_iff_ne, decide_eq_true_eq, and_assoc]

theorem canOffer_iff (s : State) :
    canOffer s = true ↔ live s = true ∧ (emitSlot s).state = .processed ∧ s.emitIdx < 4 * (emitSlot s).nGroups := by
  simp only [canOffer, Bool.and_eq_true, beq_iff_eq, decide_eq_true_eq, and_assoc]

theorem canWriteDone_iff (s : State) :
    canWriteDone s = true ↔ live s = true ∧ (emitSlot s).state = .processed ∧ s.emitIdx = 4 * (emitSlot s).nGroups := by
  simp only [canWriteDone, Bool.and_eq_true, beq_iff_eq, decide_eq_true_eq, and_assoc]

theorem canRelease_iff (s : State) : canRelease s = true ↔ live s = true ∧ (emitSlot s).state = .emitted := by
  simp only [canRelease, Bool.and_eq_true, beq_iff_eq]

theorem canFinish_iff (s : State) :
    canFinish s = true ↔ s.phase = .drain ∧ s.fillCnt = 0 ∧ s.emitSeq = s.fillSeq := by
  simp only [canFinish, Bool.and_eq_true, beq_iff_eq, decide_eq_true_eq, and_assoc]

end Sys2Proof.Machine
end

