-- ==== Sys2Proof/Laws/Events.lean ====
section
/-!
SUPPORT. The laws of the events and of DRAINALL: after DONE or ABORTED no operation raises an event (60_exceptions.md R265), and
every operation of DRAINALL is enabled when its turn comes, until none is (30_encoding.md R117).
-/

namespace Sys2Proof.Machine

set_option Elab.async false

/-- In DONE and ABORTED no operation of 43_pipeline_coordinator.md is enabled (R193): the guards, one by one. -/
theorem guards_of_ended {s : State} (h : ended s = true) :
    canTake s = false ∧ canClose s = false ∧ canClaim s = false ∧ canProcess s = false ∧ canDone s = false ∧
      canOffer s = false ∧ canWriteDone s = false ∧ canRelease s = false ∧ canFinish s = false ∧ canSanitize s = false ∧
      canLoad s = false := by
  have hp : s.phase = .done ∨ s.phase = .aborted := by
    simpa only [ended, Bool.or_eq_true, beq_iff_eq] using h
  obtain hp | hp := hp <;>
    simp [canTake, canClose, canClaim, canProcess, canDone, canOffer, canWriteDone, canRelease, canFinish, canSanitize, canLoad,
      live, ended, hp]

/-- A computation on the state that leaves the event wire alone. -/
theorem ofExcept_raised {r : Except Fault State} {s t : State} (hr : ∀ a, r = .ok a → a.raised = s.raised)
    (h : ofExcept r = .next t) : t.raised = s.raised := by
  unfold ofExcept at h
  split at h
  · injection h with h
    exact h ▸ hr _ rfl
  · cases h

/-- A datapath computation whose result is put into the state beside the event wire. -/
theorem ofExcept_map_raised {α : Type} {r : Except Fault α} {g : α → State} {s t : State} (hg : ∀ a, (g a).raised = s.raised)
    (h : ofExcept (r.map g) = .next t) : t.raised = s.raised := by
  cases r with
  | ok a => injection h with h; exact h ▸ hg a
  | error e => cases h

theorem emitGroupOp_raised {s t : State} (h : emitGroupOp s = .ok t) : t.raised = s.raised := by
  rw [(emitGroupOp_cases h).2]

theorem stepOp_raised {s t : State} (h : stepOp s = .ok t) : t.raised = s.raised := by
  obtain ⟨⟨v, hv, -⟩, -⟩ := stepOp_frame h
  rw [hv]

theorem transitionOp_raised {s t : State} (h : transitionOp s = .ok t) : t.raised = s.raised := by
  rw [(transitionOp_frame h).1]

/-- In DONE and ABORTED no operation puts an event on the wire; RESET clears it (60_exceptions.md R265). -/
theorem exec_raised_of_ended {s t : State} {i : Instr} (h : ended s = true) (hq : s.raised = []) (hx : exec i s = .next t) :
    t.raised = [] := by
  obtain ⟨h1, h2, h3, h4, h5, h6, h7, h8, h9, h10, h11⟩ := guards_of_ended h
  rw [← hq]
  cases i with
  | reset => cases hx; exact hq.symm
  | loadCfg idx data => simp only [exec, execLoadCfg, h11] at hx; cases hx; rfl
  | readCsr idx => cases hx; rfl
  | pushFrame l r => simp only [exec, execPushFrame, h1] at hx; cases hx; rfl
  | endStream => simp only [exec, execEndStream, h1] at hx; cases hx; rfl
  | popWord => simp only [exec, execPopWord, h6] at hx; cases hx; rfl
  | popFail => simp only [exec, execPopFail, h6] at hx; cases hx; rfl
  | sanitize x => simp only [exec, execSanitize, h10] at hx; cases hx; rfl
  | interp ch => exact ofExcept_map_raised (hg := by exact fun _ => rfl) hx
  | scale ch x => exact ofExcept_map_raised (hg := by exact fun _ => rfl) hx
  | integrate ch x => exact ofExcept_map_raised (hg := by exact fun _ => rfl) hx
  | panicCheck ch => exact ofExcept_map_raised (hg := by exact fun _ => rfl) hx
  | clamp ch => exact ofExcept_map_raised (hg := by exact fun _ => rfl) hx
  | quantize ch => exact ofExcept_map_raised (hg := by exact fun _ => rfl) hx
  | packBit ch b => cases hx; rfl
  | closeHalf => cases hx; rfl
  | emitGroup => exact ofExcept_raised (fun _ => emitGroupOp_raised) hx
  | modulate ch x => exact ofExcept_map_raised (hg := by exact fun _ => rfl) hx
  | step => exact ofExcept_raised (fun _ => stepOp_raised) hx
  | transition => exact ofExcept_raised (fun _ => transitionOp_raised) hx
  | closeBatch => simp only [exec, execCloseBatch, h2] at hx; cases hx; rfl
  | claim k => simp only [exec, execClaim, h3] at hx; split at hx <;> cases hx; rfl
  | processFrame => simp only [exec, execProcessFrame, h4] at hx; cases hx; rfl
  | processDone => simp only [exec, execProcessDone, h5] at hx; cases hx; rfl
  | writeDone => simp only [exec, execWriteDone, h7] at hx; cases hx; rfl
  | release => simp only [exec, execRelease, h8] at hx; cases hx; rfl
  | finish => simp only [exec, execFinish, h9] at hx; cases hx; rfl
  | abort => simp only [exec, execAbort, h6] at hx; cases hx; rfl

/-- In DONE and ABORTED no operation raises an event of any kind, NUMERICAL_OVERLOAD among them (60_exceptions.md R265). -/
theorem eventsOf_of_ended {s : State} (h : ended s = true) (i : Instr) : eventsOf s i = [] := by
  unfold eventsOf overloads
  rw [if_pos h, List.nil_append]
  split
  · next hx => exact exec_raised_of_ended (s := s.quiet) h rfl hx
  · rfl
  · rfl

/-! ### DRAINALL -/

/-- DRAINALL takes enabled operations only, and none once PHASE is DONE. -/
theorem drainNext_enabled {s : State} {i : Instr} (h : drainNext s = some i) : s.phase ≠ .done ∧ enabled s i = true := by
  unfold drainNext at h
  split at h
  · cases h
  · next hp => exact ⟨hp, List.find?_some h⟩

/-- Running the operations of DRAINALL ends where there is none left to take, or after the number allowed, or on a stop. -/
theorem drainOpsFrom_run (n : Nat) (s t : State) (h : execAll (drainOpsFrom n s) s = .next t) :
    drainNext t = none ∨ (drainOpsFrom n s).length = n := by
  induction n generalizing s with
  | zero => exact .inr rfl
  | succ n ih =>
    unfold drainOpsFrom at h ⊢
    split at h
    · next hs =>
      injection h with h
      exact .inl (h ▸ hs)
    · next i hs =>
      simp only [execAll] at h
      split at h
      · next s' hx =>
        exact (ih s' h).imp id (fun hl => by simp only [List.length_cons, hl])
      · cases h
      · cases h

end Sys2Proof.Machine
end

