-- ==== Sys2Proof/Laws/Memory.lean ====
section
/-!
SUPPORT. The laws of the slot pool: a read after a write, and that every memory operation keeps the canonical form.
-/

namespace Sys2Proof.Machine

set_option Elab.async false

variable {α : Type}

/-! ### Cells -/

@[simp] theorem cellGet_nil (k : Nat) : cellGet k ([] : List (Nat × α)) = none := rfl

theorem cellGet_put_same (k : Nat) (v : α) (l : List (Nat × α)) : cellGet k (cellPut k v l) = some v := by
  induction l with
  | nil => simp [cellPut, cellGet]
  | cons e rest ih =>
    obtain ⟨j, w⟩ := e
    unfold cellPut
    split
    · simp [cellGet]
    · split
      · simp [cellGet]
      · next h1 h2 => simp [cellGet, h1, h2, ih]

theorem cellGet_put_other (k n : Nat) (v : α) (l : List (Nat × α)) (h : n ≠ k) :
    cellGet n (cellPut k v l) = cellGet n l := by
  induction l with
  | nil => simp [cellPut, cellGet, h.symm]
  | cons e rest ih =>
    obtain ⟨j, w⟩ := e
    unfold cellPut
    split
    · next hj =>
      subst hj
      simp only [cellGet, if_neg h.symm]
    · split
      · next hj hk =>
        simp only [cellGet, if_neg h.symm]
        split
        · next hn =>
          have h1 : j ≠ n := by omega
          have h2 : n < j := by omega
          simp [h1, h2]
        · rfl
      · next hj hk =>
        simp only [cellGet, ih]

/-- An index below the first one of a rising list is not in it. -/
theorem cellGet_below (b n : Nat) (l : List (Nat × α)) (h : cellsRiseFrom b l = true) (hn : n < b) : cellGet n l = none := by
  cases l with
  | nil => rfl
  | cons e rest =>
    obtain ⟨j, w⟩ := e
    simp only [cellsRiseFrom, Bool.and_eq_true, decide_eq_true_eq] at h
    have h1 : j ≠ n := by omega
    have h2 : n < j := by omega
    simp [cellGet, h1, h2]

theorem cellGet_drop_same (b k : Nat) (l : List (Nat × α)) (h : cellsRiseFrom b l = true) : cellGet k (cellDrop k l) = none := by
  induction l generalizing b with
  | nil => rfl
  | cons e rest ih =>
    obtain ⟨j, w⟩ := e
    simp only [cellsRiseFrom, Bool.and_eq_true, decide_eq_true_eq] at h
    unfold cellDrop
    split
    · next hj => exact cellGet_below (j + 1) k rest h.2 (by omega)
    · split
      · next hj hk => simp [cellGet, hj, hk]
      · next hj hk => simp [cellGet, hj, hk, ih (j + 1) h.2]

theorem cellGet_drop_other (b k n : Nat) (l : List (Nat × α)) (h : cellsRiseFrom b l = true) (hn : n ≠ k) :
    cellGet n (cellDrop k l) = cellGet n l := by
  induction l generalizing b with
  | nil => rfl
  | cons e rest ih =>
    obtain ⟨j, w⟩ := e
    simp only [cellsRiseFrom, Bool.and_eq_true, decide_eq_true_eq] at h
    unfold cellDrop
    split
    · next hj =>
      simp only [cellGet]
      have h1 : j ≠ n := by omega
      rw [if_neg h1]
      split
      · next hlt => exact cellGet_below (j + 1) n rest h.2 (by omega)
      · rfl
    · split
      · rfl
      · simp only [cellGet, ih (j + 1) h.2]

theorem cellsRiseFrom_mono (b c : Nat) (l : List (Nat × α)) (hc : c ≤ b) (h : cellsRiseFrom b l = true) :
    cellsRiseFrom c l = true := by
  cases l with
  | nil => rfl
  | cons e rest =>
    simp only [cellsRiseFrom, Bool.and_eq_true, decide_eq_true_eq] at h ⊢
    exact ⟨by omega, h.2⟩

theorem cellsRiseFrom_put (b k : Nat) (v : α) (l : List (Nat × α)) (hb : b ≤ k) (h : cellsRiseFrom b l = true) :
    cellsRiseFrom b (cellPut k v l) = true := by
  induction l generalizing b with
  | nil => simpa [cellPut, cellsRiseFrom] using hb
  | cons e rest ih =>
    obtain ⟨j, w⟩ := e
    simp only [cellsRiseFrom, Bool.and_eq_true, decide_eq_true_eq] at h
    unfold cellPut
    split
    · next hj => subst hj; simp [cellsRiseFrom, h]
    · split
      · next hj hk =>
        have h3 : k + 1 ≤ j := by omega
        simp [cellsRiseFrom, hb, h.2, h3]
      · next hj hk => simp [cellsRiseFrom, h.1, ih (j + 1) (by omega) h.2]

theorem cellsRiseFrom_drop (b k : Nat) (l : List (Nat × α)) (h : cellsRiseFrom b l = true) :
    cellsRiseFrom b (cellDrop k l) = true := by
  induction l generalizing b with
  | nil => rfl
  | cons e rest ih =>
    obtain ⟨j, w⟩ := e
    simp only [cellsRiseFrom, Bool.and_eq_true, decide_eq_true_eq] at h
    unfold cellDrop
    split
    · exact cellsRiseFrom_mono (j + 1) b rest (by omega) h.2
    · split
      · simp [cellsRiseFrom, h]
      · simp [cellsRiseFrom, h.1, ih (j + 1) h.2]

theorem cellsRise_put (k : Nat) (v : α) (l : List (Nat × α)) (h : cellsRise l = true) : cellsRise (cellPut k v l) = true :=
  cellsRiseFrom_put 0 k v l (Nat.zero_le k) h

theorem cellsRise_within (cap : Nat) (l : List (Nat × α)) : cellsRise (cellsWithin cap l) = true := by
  induction l with
  | nil => rfl
  | cons e rest ih =>
    obtain ⟨k, v⟩ := e
    unfold cellsWithin
    split
    · exact cellsRise_put k v _ ih
    · exact ih

theorem mem_cellPut (k : Nat) (v : α) (l : List (Nat × α)) (e : Nat × α) (h : e ∈ cellPut k v l) : e = (k, v) ∨ e ∈ l := by
  induction l with
  | nil => simpa [cellPut] using h
  | cons a rest ih =>
    obtain ⟨j, w⟩ := a
    unfold cellPut at h
    split at h
    · rcases List.mem_cons.1 h with h | h
      · exact .inl h
      · exact .inr (List.mem_cons_of_mem _ h)
    · split at h
      · rcases List.mem_cons.1 h with h | h
        · exact .inl h
        · exact .inr h
      · rcases List.mem_cons.1 h with h | h
        · exact .inr (h ▸ List.mem_cons_self)
        · exact (ih h).imp id (List.mem_cons_of_mem _)

theorem mem_cellDrop (k : Nat) (l : List (Nat × α)) (e : Nat × α) (h : e ∈ cellDrop k l) : e ∈ l := by
  induction l with
  | nil => exact h
  | cons a rest ih =>
    obtain ⟨j, w⟩ := a
    unfold cellDrop at h
    split at h
    · exact List.mem_cons_of_mem _ h
    · split at h
      · exact h
      · rcases List.mem_cons.1 h with h | h
        · exact h ▸ List.mem_cons_self
        · exact List.mem_cons_of_mem _ (ih h)

theorem cellGet_some_mem (k : Nat) (v : α) (l : List (Nat × α)) (h : cellGet k l = some v) : (k, v) ∈ l := by
  induction l with
  | nil => exact absurd h (by simp)
  | cons e rest ih =>
    obtain ⟨j, w⟩ := e
    unfold cellGet at h
    split at h
    · next hj => subst hj; cases h; exact List.mem_cons_self
    · split at h
      · cases h
      · exact List.mem_cons_of_mem _ (ih h)

/-! ### The elements of a slot -/

theorem frame_putFrame_same (v : Slot) (n : Nat) (x : Frame) : (v.putFrame n x).frame n = some x :=
  cellGet_put_same n x v.frames

theorem frame_putFrame_other (v : Slot) (n k : Nat) (x : Frame) (h : k ≠ n) : (v.putFrame n x).frame k = v.frame k :=
  cellGet_put_other n k x v.frames h

@[simp] theorem group_putFrame (v : Slot) (n k : Nat) (x : Frame) : (v.putFrame n x).group k = v.group k := rfl

theorem group_putGroup_same (v : Slot) (n : Nat) (x : WordGroup) : (v.putGroup n x).group n = some x :=
  cellGet_put_same n x v.groups

theorem group_putGroup_other (v : Slot) (n k : Nat) (x : WordGroup) (h : k ≠ n) : (v.putGroup n x).group k = v.group k :=
  cellGet_put_other n k x v.groups h

@[simp] theorem frame_putGroup (v : Slot) (n k : Nat) (x : WordGroup) : (v.putGroup n x).frame k = v.frame k := rfl

theorem group_appendGroup_same (v : Slot) (g : WordGroup) : (v.appendGroup g).group v.nGroups = some g :=
  cellGet_put_same v.nGroups g v.groups

theorem group_appendGroup_other (v : Slot) (g : WordGroup) (k : Nat) (h : k ≠ v.nGroups) :
    (v.appendGroup g).group k = v.group k :=
  cellGet_put_other v.nGroups k g v.groups h

@[simp] theorem frame_appendGroup (v : Slot) (g : WordGroup) (k : Nat) : (v.appendGroup g).frame k = v.frame k := rfl

/-! ### The pool -/

theorem Memory.wf_rise (m : Memory) (h : m.wf = true) : cellsRise m = true := by
  simp only [Memory.wf, Bool.and_eq_true] at h
  exact h.1

theorem Memory.wf_entry (m : Memory) (h : m.wf = true) (e : Nat × Slot) (he : e ∈ m) : e.2 ≠ Slot.blank ∧ e.2.wf = true := by
  simp only [Memory.wf, Bool.and_eq_true, List.all_eq_true, decide_eq_true_eq] at h
  exact h.2 e he

theorem read_write_same (m : Memory) (j : Nat) (v : Slot) (h : m.wf = true) : (m.write j v).read j = v := by
  unfold Memory.write Memory.read
  by_cases hv : v = Slot.blank
  · rw [if_pos hv, cellGet_drop_same 0 j m (Memory.wf_rise m h), hv]
  · rw [if_neg hv, cellGet_put_same]

theorem read_write_other (m : Memory) (j k : Nat) (v : Slot) (h : m.wf = true) (hk : k ≠ j) :
    (m.write j v).read k = m.read k := by
  unfold Memory.write Memory.read
  by_cases hv : v = Slot.blank
  · rw [if_pos hv, cellGet_drop_other 0 j k m (Memory.wf_rise m h) hk]
  · rw [if_neg hv, cellGet_put_other j k v m hk]

/-- A slot of a pool in canonical form is itself in canonical form. -/
theorem Memory.read_wf (m : Memory) (j : Nat) (h : m.wf = true) : (m.read j).wf = true := by
  unfold Memory.read
  split
  · next v hv => exact (Memory.wf_entry m h (j, v) (cellGet_some_mem j v m hv)).2
  · rfl

/-- A write keeps the canonical form. -/
theorem Memory.write_wf (m : Memory) (j : Nat) (v : Slot) (h : m.wf = true) (hv : v.wf = true) : (m.write j v).wf = true := by
  have hr := Memory.wf_rise m h
  unfold Memory.write
  simp only [Memory.wf, Bool.and_eq_true, List.all_eq_true, decide_eq_true_eq]
  split
  · exact ⟨cellsRiseFrom_drop 0 j m hr, fun e he => Memory.wf_entry m h e (mem_cellDrop j m e he)⟩
  · next hne =>
    refine ⟨cellsRise_put j v m hr, fun e he => ?_⟩
    rcases mem_cellPut j v m e he with rfl | he
    · exact ⟨hne, hv⟩
    · exact Memory.wf_entry m h e he

/-- A write within the pool leaves every listed index within it. -/
theorem Memory.write_range (m : Memory) (n j : Nat) (v : Slot) (h : ∀ e ∈ m, e.1 < n) (hj : j < n) :
    ∀ e ∈ m.write j v, e.1 < n := by
  intro e he
  unfold Memory.write at he
  split at he
  · exact h e (mem_cellDrop j m e he)
  · rcases mem_cellPut j v m e he with rfl | he
    · exact hj
    · exact h e he

@[simp] theorem Slot.putFrame_wf (v : Slot) (n : Nat) (x : Frame) (h : v.wf = true) : (v.putFrame n x).wf = true := by
  simp only [Slot.wf, Bool.and_eq_true] at h ⊢
  exact ⟨cellsRise_put n x v.frames h.1, h.2⟩

@[simp] theorem Slot.putGroup_wf (v : Slot) (n : Nat) (x : WordGroup) (h : v.wf = true) : (v.putGroup n x).wf = true := by
  simp only [Slot.wf, Bool.and_eq_true] at h ⊢
  exact ⟨h.1, cellsRise_put n x v.groups h.2⟩

@[simp] theorem Slot.appendGroup_wf (v : Slot) (g : WordGroup) (h : v.wf = true) : (v.appendGroup g).wf = true :=
  Slot.putGroup_wf v v.nGroups g h

theorem freeSlot_wf (p : Params) (t j : Nat) (v : Slot) : (freeSlot p t j v).wf = true := by
  simp [Slot.wf, cellsRise_within]

/-- The slots of an aborted run: canonical, every slot's `state` as before, slots above the pool untouched. -/
theorem freeSlots_wf (p : Params) (t n : Nat) (m : Memory) (h : m.wf = true) : (freeSlots p t n m).wf = true := by
  induction n with
  | zero => exact h
  | succ n ih => exact Memory.write_wf _ _ _ ih (freeSlot_wf p t n _)

theorem freeSlots_state (p : Params) (t n j : Nat) (m : Memory) (h : m.wf = true) :
    ((freeSlots p t n m).read j).state = (m.read j).state := by
  induction n with
  | zero => rfl
  | succ n ih =>
    unfold freeSlots
    by_cases hj : j = n
    · subst hj
      rw [read_write_same _ _ _ (freeSlots_wf p t j m h)]
      exact ih
    · rw [read_write_other _ _ _ _ (freeSlots_wf p t n m h) hj]
      exact ih

theorem freeSlots_range (p : Params) (t n c : Nat) (m : Memory) (h : ∀ e ∈ m, e.1 < c) (hn : n ≤ c) :
    ∀ e ∈ freeSlots p t n m, e.1 < c := by
  induction n with
  | zero => exact h
  | succ n ih => exact Memory.write_range _ c n _ (ih (by omega)) (by omega)

end Sys2Proof.Machine
end

