-- ==== Sys2Proof/Laws/PerInstr.lean ====
section
/-!
SUPPORT. One law per operation: its trace record carries its OPID in bits 4:0, whatever its operands (30_encoding.md R110,
log 4).
-/

namespace Sys2Proof.Laws.EncodedOpid

/-- The record's low five bits are the operation's OPID. -/
def Statement (i : Instr) : Prop := (encodeRecord i).extractLsb' 0 5 = opidOf i

/-- A record's fields above the OPID do not reach into it. -/
theorem low_bits (a : BitVec 64) (b : BitVec 8) (c : BitVec 3) (d : BitVec 5) :
    (a ++ b ++ c ++ d).extractLsb' 0 5 = d := by
  ext j hj
  rw [BitVec.getElem_extractLsb', Nat.zero_add, BitVec.getLsbD_append, if_pos hj, BitVec.getLsbD_eq_getElem hj]

theorem reset : Statement .reset := low_bits _ _ _ _
theorem loadCfg (idx : BitVec 4) (data : BitVec 64) : Statement (.loadCfg idx data) := low_bits _ _ _ _
theorem readCsr (idx : BitVec 4) : Statement (.readCsr idx) := low_bits _ _ _ _
theorem pushFrame (left right : Sample) : Statement (.pushFrame left right) := low_bits _ _ _ _
theorem endStream : Statement .endStream := low_bits _ _ _ _
theorem popWord : Statement .popWord := low_bits _ _ _ _
theorem popFail : Statement .popFail := low_bits _ _ _ _
theorem sanitize (x : Sample) : Statement (.sanitize x) := low_bits _ _ _ _
theorem interp (ch : Channel) : Statement (.interp ch) := low_bits _ _ _ _
theorem scale (ch : Channel) (x : Acc) : Statement (.scale ch x) := low_bits _ _ _ _
theorem integrate (ch : Channel) (scaled : Acc) : Statement (.integrate ch scaled) := low_bits _ _ _ _
theorem panicCheck (ch : Channel) : Statement (.panicCheck ch) := low_bits _ _ _ _
theorem clamp (ch : Channel) : Statement (.clamp ch) := low_bits _ _ _ _
theorem quantize (ch : Channel) : Statement (.quantize ch) := low_bits _ _ _ _
theorem packBit (ch : Channel) (b : Bool) : Statement (.packBit ch b) := low_bits _ _ _ _
theorem closeHalf : Statement .closeHalf := low_bits _ _ _ _
theorem emitGroup : Statement .emitGroup := low_bits _ _ _ _
theorem modulate (ch : Channel) (x : Acc) : Statement (.modulate ch x) := low_bits _ _ _ _
theorem step : Statement .step := low_bits _ _ _ _
theorem transition : Statement .transition := low_bits _ _ _ _
theorem closeBatch : Statement .closeBatch := low_bits _ _ _ _
theorem claim (k : Nat) : Statement (.claim k) := low_bits _ _ _ _
theorem processFrame : Statement .processFrame := low_bits _ _ _ _
theorem processDone : Statement .processDone := low_bits _ _ _ _
theorem writeDone : Statement .writeDone := low_bits _ _ _ _
theorem release : Statement .release := low_bits _ _ _ _
theorem finish : Statement .finish := low_bits _ _ _ _
theorem abort : Statement .abort := low_bits _ _ _ _

end Sys2Proof.Laws.EncodedOpid
end

