-- ==== Sys2Proof/Tests/Slice0.lean ====
section
/-!
SUPPORT. Tests: the operand checks on ill-formed terms, the decoder on words written out from the spec's encodings, one step
of each operation with the values the spec's own examples give, and for each statement with hypotheses a concrete state and
operands that meet them.
-/

namespace Sys2Proof.Tests

set_option Elab.async false

open Sys2Proof.Machine

/-! ### WellFormed refuses (10_state.md R40, 30_encoding.md R110) -/

theorem test_wf_loadCfg : Instr.wellFormed Params.default (.loadCfg 0 0x100000000) = false := by decide
theorem test_wf_scale : Instr.wellFormed Params.default (.scale .left 0x100000000) = false := by decide
theorem test_wf_integrate : Instr.wellFormed Params.default (.integrate .right 0x100000000) = false := by decide
theorem test_wf_modulate : Instr.wellFormed Params.default (.modulate .left 0x8000000000000000) = false := by decide
theorem test_wf_claim : Instr.wellFormed Params.default (.claim 1) = false := by decide
theorem test_wf_claim_width : Instr.wellFormed { Params.default with nCompute := 2 ^ 65 } (.claim (2 ^ 64)) = false := by decide

/-! ### Decoding (30_encoding.md R91 to R95, R97, R99, R110; record layout: log 4) -/

theorem test_dec_reset : decode .binary32 (.pin true) = .ok .reset := by decide
theorem test_dec_loadCfg : decode .binary32 (.cfg 0b1010101000010110010000000000000000000) =
    .ok (.loadCfg 5 0x42C80000) := by decide
theorem test_dec_readCsr : decode .binary32 (.cfg 0b0011111111111111111111111111111111111) = .ok (.readCsr 7) := by decide
theorem test_dec_pushFrame : decode .binary32 (.inp 0x07FC0000080000000) = .ok (.pushFrame 0x7FC00000 0x80000000) := by decide
theorem test_dec_endStream : decode .binary32 (.inp 0x1FFFFFFFFFFFFFFFF) = .ok .endStream := by decide
theorem test_dec_popWord : decode .binary32 (.out true false) = .ok .popWord := by decide
theorem test_dec_popFail : decode .binary32 (.out false true) = .ok .popFail := by decide
theorem test_dec_sanitize : decode .binary32 (.opid 0x7FC00000_00_08) = .ok (.sanitize 0x7FC00000) := by decide
theorem test_dec_interp : decode .binary32 (.opid 0x01_09) = .ok (.interp .right) := by decide
theorem test_dec_scale : decode .binary32 (.opid 0x3F000000_00_0A) = .ok (.scale .left 0x3F000000) := by decide
theorem test_dec_integrate : decode .binary32 (.opid 0x3E800000_01_0B) = .ok (.integrate .right 0x3E800000) := by decide
theorem test_dec_panicCheck : decode .binary32 (.opid 0x00_0C) = .ok (.panicCheck .left) := by decide
theorem test_dec_clamp : decode .binary32 (.opid 0x01_0D) = .ok (.clamp .right) := by decide
theorem test_dec_quantize : decode .binary32 (.opid 0x00_0E) = .ok (.quantize .left) := by decide
theorem test_dec_packBit : decode .binary32 (.opid 0x1_01_0F) = .ok (.packBit .right true) := by decide
theorem test_dec_closeHalf : decode .binary32 (.opid 0b10000) = .ok .closeHalf := by decide
theorem test_dec_emitGroup : decode .binary32 (.opid 0b10001) = .ok .emitGroup := by decide
theorem test_dec_modulate : decode .binary64 (.opid 0x3FE0000000000000_00_12) =
    .ok (.modulate .left 0x3FE0000000000000) := by decide
theorem test_dec_step : decode .binary32 (.opid 0b10011) = .ok .step := by decide
theorem test_dec_transition : decode .binary32 (.opid 0b10100) = .ok .transition := by decide
theorem test_dec_closeBatch : decode .binary32 (.opid 0b11000) = .ok .closeBatch := by decide
theorem test_dec_claim : decode .binary32 (.opid 0x02_00_19) = .ok (.claim 2) := by decide
theorem test_dec_processFrame : decode .binary32 (.opid 0b11010) = .ok .processFrame := by decide
theorem test_dec_processDone : decode .binary32 (.opid 0b11011) = .ok .processDone := by decide
theorem test_dec_writeDone : decode .binary32 (.opid 0b11100) = .ok .writeDone := by decide
theorem test_dec_release : decode .binary32 (.opid 0b11101) = .ok .release := by decide
theorem test_dec_finish : decode .binary32 (.opid 0b11110) = .ok .finish := by decide
theorem test_dec_abort : decode .binary32 (.opid 0b11111) = .ok .abort := by decide
theorem test_dec_loadCfg64 : decode .binary64 (.cfg 0x103FE0000000000000) = .ok (.loadCfg 0 0x3FE0000000000000) := by decide
theorem test_dec_reserved : [0b00111, 0b10101, 0b10110, 0b10111].all
    (fun r => decide (decode .binary32 (.opid r) = .error .reservedOpid)) = true := by decide
theorem test_dec_stray : decode .binary32 (.opid 0b00100000) = .error .strayBits := by decide
theorem test_dec_no_transfer : decode .binary32 (.out false false) = .error .noTransfer := by decide
theorem test_table_words : decodeTableWord 8 1 = some .reset ∧ decodeTableWord 40 0x1000000000 = some (.loadCfg 0 0) ∧
    decodeTableWord 72 0x10000000000000000 = some .endStream ∧ decodeTableWord 8 0b11010 = some .processFrame := by decide

/-! ### Small states -/

/-- The word group of the silent transition (43_pipeline_coordinator.md R205). -/
def silentGroup : WordGroup := ⟨0xF80003FF, 0xF80003FF, 0xFFFFFF00, 0xFFFFFF00⟩

/-- One Frame of silence accepted. -/
def filling : State :=
  { State.reset with
    phase := .run, fillCnt := 1, nFramesIn := 1
    slots := [(0, { Slot.blank with frames := [(0, ⟨0, 0⟩)] })] }

/-- A Batch of two silent Frames closed. -/
def closed : State :=
  { State.reset with
    phase := .run, fillSeq := 1, nFramesIn := 2
    slots := [(0, { Slot.blank with state := .filled, nFrames := 2, frames := [(0, ⟨0, 0⟩), (1, ⟨0, 0⟩)] })] }

/-- ... and claimed. -/
def claimed : State := { closed with dpOwner := some 0 }

/-- ... and its first Frame stored. -/
def stored : State := { claimed with dp := { claimed.dp with haveCur := true }, procIdx := 1 }

/-- ... and the transition to the second in work. -/
def working : State := { stored with dp := { stored.dp with inTransition := true } }

/-- ... and both Frames processed. -/
def allProcessed : State := { stored with procIdx := 2 }

/-- A Batch with one group handed to the Writer. -/
def processed : State :=
  { closed with
    procSeq := 1
    slots := [(0, { Slot.blank with state := .processed, nFrames := 2, nGroups := 1, groups := [(0, silentGroup)] })] }

/-- ... and written out. -/
def written : State := { processed with emitIdx := 4, nWordsOut := 4 }

/-- ... and marked Emitted. -/
def emitted : State :=
  { written with slots := [(0, { Slot.blank with state := .emitted, nFrames := 2, nGroups := 1, groups := [(0, silentGroup)] })] }

/-- The left channel with the given accumulators. -/
def withLeft (a0 a1 a2 a3 a4 : Acc) (s : State) : State :=
  { s with dp := { s.dp with left := { s.dp.left with s0 := a0, s1 := a1, s2 := a2, s3 := a3, s4 := a4 } } }

/-- A step index and shift registers. -/
def atStep (i : BitVec 6) (l r : OutWord) (s : State) : State :=
  { s with dp := { s.dp with i := i, left := { s.dp.left with sh := l }, right := { s.dp.right with sh := r } } }

/-- What an operation makes of a state, seen through `f`. -/
def after {α : Type} (i : Instr) (s : State) (f : State → α) : Option α :=
  match exec i s with
  | .next t => some (f t)
  | .fault _ => none
  | .refused _ => none

/-- The left channel's accumulators. -/
def leftAccs (s : State) : List Acc := s.dp.left.accs

/-! ### One step of each operation -/

/-- 44_system.md R230: STATUS reads 0 after RESET. -/
theorem test_reset : after .reset { closed with eosSeen := true, cfgFallback := true } statusWord = some 0 := by decide

/-- 44_system.md R233. -/
theorem test_loadCfg : after (.loadCfg 0 0x3E800000) State.reset (fun t => (t.cfg.gain, t.cfgFallback)) =
    some (0x3E800000, false) := by decide +kernel

/-- 44_system.md R233: a NaN falls back. -/
theorem test_loadCfg_nan : after (.loadCfg 0 0x7FC00000) State.reset (fun t => (t.cfg.gain, t.cfgFallback)) =
    some (0x3F000000, true) := by decide +kernel

/-- 44_system.md R236: PHASE = RUN and `have_cur`. -/
theorem test_readCsr : after (.readCsr 7) stored (fun t => t.ret) = some (.csr 9) := by decide

/-- 10_state.md R42. -/
theorem test_readCsr_c0 : after (.readCsr 8) State.reset (fun t => t.ret) = some (.csr 0x3F800000) := by decide

/-- 43_pipeline_coordinator.md R196. -/
theorem test_pushFrame : after (.pushFrame 0 0) State.reset
    (fun t => ((t.slots.read 0).frame 0, t.fillCnt, t.nFramesIn, t.phase)) = some (some ⟨0, 0⟩, 1, 1, .run) := by decide

/-- 43_pipeline_coordinator.md R197, 60_exceptions.md R261. -/
theorem test_pushFrame_nan : after (.pushFrame 0x7FC00000 0xFF800000) State.reset
    (fun t => ((t.slots.read 0).frame 0, t.nonfiniteSeen, t.raised)) = some (some ⟨0, 0⟩, true,
      [.nonfiniteInput (some .left) 0x7FC00000, .nonfiniteInput (some .right) 0xFF800000]) := by decide

/-- 43_pipeline_coordinator.md R198. -/
theorem test_endStream : after .endStream filling (fun t => (t.phase, t.eosSeen, t.fillCnt)) =
    some (.drain, true, 1) := by decide

/-- 43_pipeline_coordinator.md R212: the four words in order. -/
theorem test_popWord : after .popWord { processed with emitIdx := 2 } (fun t => (t.outStream, t.emitIdx, t.nWordsOut)) =
    some ([0xFFFFFF00], 3, 1) := by decide

/-- 43_pipeline_coordinator.md R213. -/
theorem test_popFail : after .popFail { processed with emitIdx := 2, nWordsOut := 2 }
    (fun t => (t.phase, t.outFailed, t.nWordsOut, t.emitIdx)) = some (.aborted, true, 2, 2) := by decide

/-- 43_pipeline_coordinator.md R197: -0.0 passes. -/
theorem test_sanitize : after (.sanitize 0x80000000) State.reset (fun t => (t.ret, t.nonfiniteSeen)) =
    some (.sample 0x80000000, false) := by decide

/-- 43_pipeline_coordinator.md R197. -/
theorem test_sanitize_inf : after (.sanitize 0xFF800000) State.reset (fun t => (t.ret, t.nonfiniteSeen)) =
    some (.sample 0, true) := by decide

/-- 41_interpolator.md R152: the worked example. -/
theorem test_interp : after (.interp .left) { working with dp := { working.dp with
      i := 21, left := { working.dp.left with cur := 0x3DCCCCCD, nxt := 0x3F333333 } } } (fun t => t.ret) =
    some (.acc 0x3E980000) := by decide +kernel

/-- 41_interpolator.md R153: the smallest subnormal at step 32. -/
theorem test_interp_subnormal : after (.interp .right) { working with dp := { working.dp with
      i := 32, right := { working.dp.right with cur := 1, nxt := 1 } } } (fun t => t.ret) =
    some (.acc 0) := by decide +kernel

/-- 40_modulator.md R126. -/
theorem test_scale : after (.scale .left 0x3F000000) State.reset (fun t => t.ret) = some (.acc 0x3E800000) := by
  decide +kernel

/-- 40_modulator.md R128: 1, 1.5, 1.75, 1.875, 1.9375. -/
theorem test_integrate : after (.integrate .left 0) State.reset leftAccs =
    some [0x3F800000, 0x3FC00000, 0x3FE00000, 0x3FF00000, 0x3FF80000] := by decide +kernel

/-- 40_modulator.md R131: 501.9375 is above 2 * 128. -/
theorem test_panicCheck : after (.panicCheck .left)
    (withLeft 1 1 1 1 0x43FAF800 { State.reset with cfg := { State.reset.cfg with policy := 0x200 } }) leftAccs =
    some [0, 0, 0, 0, 0] := by decide +kernel

/-- 40_modulator.md R131: and not above 4 * 128. -/
theorem test_panicCheck_below : after (.panicCheck .left)
    (withLeft 1 1 1 1 0x43FAF800 { State.reset with cfg := { State.reset.cfg with policy := 0x400 } }) leftAccs =
    some [1, 1, 1, 1, 0x43FAF800] := by decide +kernel

/-- 40_modulator.md R133: (129.0, 256.5, 129.0, 229.125, 101.1875). -/
theorem test_clamp : after (.clamp .left) (withLeft 0x43010000 0x43804000 0x43010000 0x43652000 0x42CA6000 State.reset) leftAccs =
    some [0x43000000, 0x43000000, 0x43000000, 0x43000000, 0x42CA6000] := by decide +kernel

/-- 40_modulator.md R135: -11.875. -/
theorem test_quantize : after (.quantize .left) (withLeft 0 0 0 0 0xC13E0000 State.reset) (fun t => (t.ret, t.dp.left.q)) =
    some (.bit false, .minus) := by decide +kernel

/-- 40_modulator.md R135: -0.0 gives 1. -/
theorem test_quantize_zero : after (.quantize .left) (withLeft 0 0 0 0 0x80000000 State.reset)
    (fun t => (t.ret, t.dp.left.q)) = some (.bit true, .plus) := by decide +kernel

/-- 42_bit_packer.md R172. -/
theorem test_packBit : after (.packBit .left false) (atStep 0 0x1F 0 State.reset) (fun t => t.dp.left.sh) = some 0x3E := by
  decide

/-- 42_bit_packer.md R174. -/
theorem test_closeHalf : after .closeHalf (atStep 31 0xF80003FF 0xF80003FE State.reset) (fun t => t.dp.wg) =
    some ⟨0xF80003FF, 0xF80003FE, 0, 0⟩ := by decide

/-- 42_bit_packer.md R174. -/
theorem test_closeHalf_second : after .closeHalf (atStep 63 0xFFFFFF00 0xFFFFFF01 State.reset) (fun t => t.dp.wg) =
    some ⟨0, 0, 0xFFFFFF00, 0xFFFFFF01⟩ := by decide

/-- 42_bit_packer.md R176. -/
theorem test_emitGroup : after .emitGroup { claimed with dp := { claimed.dp with wg := silentGroup } }
    (fun t => ((t.slots.read 0).group 0, (t.slots.read 0).nGroups)) = some (some silentGroup, 1) := by decide

/-- 40_modulator.md R137. -/
theorem test_modulate : after (.modulate .left 0) State.reset (fun t => (leftAccs t, t.ret, t.dp.left.q)) =
    some ([0x3F800000, 0x3FC00000, 0x3FE00000, 0x3FF00000, 0x3FF80000], .bit true, .plus) := by decide +kernel

/-- 40_modulator.md R137: the second call gives (0, 1, 2.5, 4.25, 6.125). -/
theorem test_modulate_second : after (.modulate .left 0)
    { (withLeft 0x3F800000 0x3FC00000 0x3FE00000 0x3FF00000 0x3FF80000 State.reset) with
      dp := { (withLeft 0x3F800000 0x3FC00000 0x3FE00000 0x3FF00000 0x3FF80000 State.reset).dp with
        left := { (withLeft 0x3F800000 0x3FC00000 0x3FE00000 0x3FF00000 0x3FF80000 State.reset).dp.left with q := .plus } } }
    (fun t => (leftAccs t, t.ret)) =
    some ([0, 0x3F800000, 0x40200000, 0x40880000, 0x40C40000], .bit true) := by decide +kernel

/-- 41_interpolator.md R156. -/
theorem test_step : after .step working (fun t => (t.dp.left.sh, t.dp.right.sh, t.dp.i)) = some (1, 1, 1) := by decide +kernel

/-- 41_interpolator.md R158. -/
theorem test_transition : after .transition working (fun t => ((t.slots.read 0).group 0, t.dp.i)) =
    some (some silentGroup, 0) := by decide +kernel

/-- 43_pipeline_coordinator.md R199. -/
theorem test_closeBatch : after .closeBatch { filling with fillCnt := 2 }
    (fun t => ((t.slots.read 0).state, (t.slots.read 0).nFrames, t.fillSeq, t.fillCnt)) = some (.filled, 2, 1, 0) := by decide

/-- 43_pipeline_coordinator.md R203. -/
theorem test_claim : after (.claim 0) closed (fun t => t.dpOwner) = some (some 0) := by decide

/-- 43_pipeline_coordinator.md R203: a second claim waits. -/
theorem test_claim_taken : after (.claim 0) claimed (fun t => t) = some claimed := by decide

/-- 43_pipeline_coordinator.md R205: the first Frame. -/
theorem test_processFrame : after .processFrame claimed (fun t => (t.dp.haveCur, t.procIdx, (t.slots.read 0).nGroups)) =
    some (true, 1, 0) := by decide

/-- 43_pipeline_coordinator.md R206. -/
theorem test_processDone : after .processDone allProcessed (fun t => ((t.slots.read 0).state, t.procSeq, t.dpOwner)) =
    some (.processed, 1, none) := by decide

/-- 43_pipeline_coordinator.md R214. -/
theorem test_writeDone : after .writeDone written (fun t => (t.slots.read 0).state) = some .emitted := by decide

/-- 43_pipeline_coordinator.md R215. -/
theorem test_release : after .release emitted (fun t => (t.emitSeq, t.emitIdx, (t.slots.read 0).state)) =
    some (1, 0, .empty) := by decide

/-- 43_pipeline_coordinator.md R217: a stream of zero Frames. -/
theorem test_finish : after .finish { State.reset with phase := .drain } (fun t => t.phase) = some .done := by decide

/-- 43_pipeline_coordinator.md R218. -/
theorem test_abort : after .abort processed (fun t => (t.phase, t.outFailed)) = some (.aborted, true) := by decide

/-! ### Events, DRAINALL, the byte adapter -/

/-- 60_exceptions.md R250: the five codes. -/
theorem test_event_codes : [Event.endOfStream, .outputFailure 0 0, .configError 0, .numericalOverload .left,
    .nonfiniteInput none 0].map Event.code = [1, 2, 3, 4, 5] := by decide

/-- 60_exceptions.md R250, R265: the CLAMP that changes a value raises NUMERICAL_OVERLOAD, but not in DONE. -/
theorem test_overload : eventsOf (withLeft 0x43010000 0 0 0 0 State.reset) (.clamp .left) = [.numericalOverload .left] ∧
    eventsOf (withLeft 0x43000000 0 0 0 0 State.reset) (.clamp .left) = [] ∧
    eventsOf (withLeft 0x43010000 0 0 0 0 { State.reset with phase := .done }) (.clamp .left) = [] := by decide +kernel

/-- 60_exceptions.md R250: a CLAMP inside MODULATE raises it too; 128 + (0 - (-1)) is above 128. -/
theorem test_overload_inside : eventsOf (withLeft 0x43000000 0 0 0 0 State.reset) (.modulate .left 0) =
    [.numericalOverload .left] := by decide +kernel

/-- 30_encoding.md R117: DRAINALL from a stream with one Frame in the slot being filled ends in DONE; the ports show END only. -/
theorem test_drainAll : (match execAll (drainAll filling) filling with
      | .next t => decide (t.phase = .done)
      | .fault _ => false
      | .refused _ => false) = true ∧
    drainAllOnPorts filling = [.endStream] := by decide +kernel

/-- 30_encoding.md R117: four words left to write are four POPs. -/
theorem test_drainAll_pops : drainAllOnPorts processed = .endStream :: popGroup := by decide +kernel

/-- 20_memory.md R64, 30_encoding.md R100: the bytes of (1.0, -1.0), in the order of an instance, and a residue. -/
theorem test_adapter :
    framesOfBytes Params.default [0, 0, 0x80, 0x3F, 0, 0, 0x80, 0xBF, 7] = [⟨0x3F800000, 0xBF800000⟩] ∧
    framesOfBytes { Params.default with inByteOrder := .big } [0x3F, 0x80, 0, 0, 0xBF, 0x80, 0, 0] =
      [⟨0x3F800000, 0xBF800000⟩] := by decide

/-! ### Witnesses: states and operands that meet the hypotheses of the statements -/

/-- `rst` held at 1. -/
def pinsReset : PinsIn := ⟨true, true, 0, true, 0, true, true⟩

/-- An end marker and a failed word in one cycle, with no configuration beat. -/
def pinsBoth : PinsIn := ⟨false, false, 0, true, 0x10000000000000000, false, true⟩

/-- Draining, with one Frame still to hand over. -/
def draining : State := { filling with phase := .drain, eosSeen := true }

/-- Draining, with everything written. -/
def drained : State := { State.reset with phase := .drain, eosSeen := true }

/-- The outcome is a next state. -/
def runs (i : Instr) (s : State) : Bool := (after i s (fun _ => ())).isSome

theorem witness_ResetRuns : pinsReset.rst = true := rfl

/-- Each register's legal range: both ends, and just outside. -/
theorem witness_LoadCfgResult : State.reset.phase = .idle ∧ closed.phase ≠ .idle ∧
    |valueOf .binary32 0xBF800000| = 2 ^ unitScale .binary32 ∧ ¬|valueOf .binary32 0x3F800001| ≤ 2 ^ unitScale .binary32 ∧
    valueOf .binary32 0x80000000 = 0 ∧ valueOf .binary32 0x80000001 < 0 ∧
    valueOf .binary32 0x47800000 = 65536 * 2 ^ unitScale .binary32 ∧
    ¬(2 ^ unitScale .binary32 ≤ valueOf .binary32 0x3F7FFFFF) ∧
    ((0xFF00 : Acc).extractLsb' 8 8 ≠ 1 ∧ (0x100 : Acc).extractLsb' 8 8 = 1 ∧ (0x3 : Acc).extractLsb' 0 2 ≠ 0) ∧
    7 ≤ (7 : BitVec 4).toNat := by decide +kernel

theorem witness_ReadCsrResult : 9 ≤ (9 : BitVec 4).toNat ∧ 9 ≤ (15 : BitVec 4).toNat := by decide

theorem witness_PushFrameResult : State.reset.slots.wf = true ∧ State.reset.phase = .idle ∧ filling.phase = .run ∧
    (State.reset.slots.read (State.reset.fillSeq % State.reset.par.nSlots)).state = .empty ∧
    filling.slots.wf = true ∧ (filling.slots.read (filling.fillSeq % filling.par.nSlots)).state = .empty ∧
    filling.fillCnt < filling.par.batchCap ∧ State.reset.fillCnt < State.reset.par.batchCap := by decide

theorem witness_SanitizeResult : (0x7F7FFFFF : Sample).extractLsb' 23 8 ≠ 0xFF ∧
    (0x7F800000 : Sample).extractLsb' 23 8 = 0xFF ∧ ¬(State.reset.phase = .done ∨ State.reset.phase = .aborted) ∧
    ({ drained with phase := .done } : State).phase = .done := by decide

theorem witness_EndStreamResult : (State.reset.phase = .idle ∨ State.reset.phase = .run) ∧
    (State.reset.slots.read (State.reset.fillSeq % State.reset.par.nSlots)).state = .empty ∧
    State.reset.fillCnt < State.reset.par.batchCap := by decide

theorem witness_CloseBatchResult : State.reset.fillCnt = 0 ∧ filling.slots.wf = true ∧ (filling.phase = .run ∨ filling.phase = .drain) ∧
    1 ≤ filling.fillCnt := by decide

theorem witness_ClaimResult : 0 < closed.par.nCompute ∧ (closed.phase = .run ∨ closed.phase = .drain) ∧
    closed.dpOwner = none ∧ (closed.slots.read (closed.procSeq % closed.par.nSlots)).state = .filled ∧
    claimed.dpOwner ≠ none ∧ closed.par.nCompute ≤ 1 := by decide

theorem witness_FirstFrameStored : (claimed.phase = .run ∨ claimed.phase = .drain) ∧ claimed.dpOwner ≠ none ∧
    claimed.procIdx < (claimed.slots.read (claimed.procSeq % claimed.par.nSlots)).nFrames ∧
    (claimed.slots.read (claimed.procSeq % claimed.par.nSlots)).frame claimed.procIdx = some ⟨0, 0⟩ ∧
    claimed.dp.haveCur = false := by decide

theorem witness_LaterFrameRuns : stored.slots.wf = true ∧ (stored.phase = .run ∨ stored.phase = .drain) ∧
    stored.dpOwner ≠ none ∧ stored.procIdx < (stored.slots.read (stored.procSeq % stored.par.nSlots)).nFrames ∧
    (stored.slots.read (stored.procSeq % stored.par.nSlots)).frame stored.procIdx = some ⟨0, 0⟩ ∧
    stored.dp.haveCur = true ∧ stored.dp.i = 0 ∧
    (stored.slots.read (stored.procSeq % stored.par.nSlots)).nGroups < stored.par.batchCap ∧
    stored.cfg.legal stored.par.accFmt = true ∧ stored.dp.left.bounded stored.par.accFmt stored.cfg.limit = true ∧
    stored.dp.right.bounded stored.par.accFmt stored.cfg.limit = true ∧ isFinite32 stored.dp.left.cur = true ∧
    isFinite32 stored.dp.right.cur = true ∧ isFinite32 0 = true := by decide +kernel

theorem witness_ProcessDoneResult : allProcessed.slots.wf = true ∧
    (allProcessed.phase = .run ∨ allProcessed.phase = .drain) ∧ allProcessed.dpOwner ≠ none ∧
    allProcessed.procIdx = (allProcessed.slots.read (allProcessed.procSeq % allProcessed.par.nSlots)).nFrames := by decide

theorem witness_PopWordResult : (processed.phase = .run ∨ processed.phase = .drain) ∧
    (processed.slots.read (processed.emitSeq % processed.par.nSlots)).state = .processed ∧
    processed.emitIdx < 4 * (processed.slots.read (processed.emitSeq % processed.par.nSlots)).nGroups ∧
    (processed.slots.read (processed.emitSeq % processed.par.nSlots)).group (processed.emitIdx / 4) = some silentGroup ∧
    silentGroup.words[processed.emitIdx % 4]? = some 0xF80003FF := by decide

theorem witness_AbortResult : (processed.phase = .run ∨ processed.phase = .drain) ∧
    (processed.slots.read (processed.emitSeq % processed.par.nSlots)).state = .processed ∧
    processed.emitIdx < 4 * (processed.slots.read (processed.emitSeq % processed.par.nSlots)).nGroups := by decide

theorem witness_BatchIsRecycled : written.slots.wf = true ∧ (written.phase = .run ∨ written.phase = .drain) ∧
    (written.slots.read (written.emitSeq % written.par.nSlots)).state = .processed ∧
    written.emitIdx = 4 * (written.slots.read (written.emitSeq % written.par.nSlots)).nGroups ∧
    emitted.slots.wf = true ∧ (emitted.phase = .run ∨ emitted.phase = .drain) ∧
    (emitted.slots.read (emitted.emitSeq % emitted.par.nSlots)).state = .emitted := by decide

theorem witness_GuardTable : enabled State.reset .closeBatch = false ∧ enabled claimed (.claim 0) = false ∧
    0 < claimed.par.nCompute ∧ enabled closed (.loadCfg 0 0) = false ∧ coordinatorOp (.sanitize 0) = true ∧
    ({ drained with phase := .aborted } : State).phase = .aborted := by decide

theorem witness_ScaleResult : isFinite .binary32 0x7F7FFFFF = true ∧ legalGain .binary32 0xBF800000 = true := by
  decide +kernel

theorem witness_IntegrateResult : State.reset.cfg.legal .binary32 = true ∧
    Lane.bounded .binary32 0x43000000 { State.reset.dp.left with s0 := 0x43000000, s4 := 0xC3000000 } = true ∧
    isFinite .binary32 0xFF7FFFFF = true := by decide +kernel

/-- The threshold 2 * 128 = 256.0: s4 at it, and one unit in the last place above. -/
theorem witness_PanicCheckResult : legalLimit .binary32 0x43000000 = true ∧ isFinite .binary32 0x43800000 = true ∧
    (0x200 : BitVec 32).extractLsb' 8 8 ≠ 0 ∧ (0 : BitVec 32).extractLsb' 8 8 = 0 ∧
    valueOf .binary32 (mulAcc .binary32 (cvtInt .binary32 2) 0x43000000) < |valueOf .binary32 0xC3800001| ∧
    |valueOf .binary32 0xC3800000| ≤ valueOf .binary32 (mulAcc .binary32 (cvtInt .binary32 2) 0x43000000) := by
  decide +kernel

theorem witness_ClampResult : legalLimit .binary32 0x43000000 = true ∧
    (withLeft 0x43000001 0x43000000 0xC3000001 0xC3000000 0x80000000 State.reset).dp.left.accs.all
      (isFinite .binary32) = true ∧
    valueOf .binary32 0x43000000 < valueOf .binary32 0x43000001 ∧
    valueOf .binary32 0xC3000001 < -valueOf .binary32 0x43000000 ∧
    -valueOf .binary32 0x43000000 ≤ valueOf .binary32 0xC3000000 := by decide +kernel

theorem witness_QuantizeResult : isFinite .binary32 0x80000000 = true ∧ 0 ≤ valueOf .binary32 0x80000000 ∧
    isFinite .binary32 0x80000001 = true ∧ valueOf .binary32 0x80000001 < 0 := by decide +kernel

/-- The largest finite operand on a channel at its limits. -/
theorem witness_ModulateBounded : modulateReady .binary32 State.reset.cfg
      { State.reset.dp.left with s0 := 0x43000000, s1 := 0xC3000000, s4 := 0xC3000000 } 0x7F7FFFFF = true ∧
    State.reset.cfg.legal .binary32 = true ∧
    (State.reset.dp.lane .left).bounded .binary32 State.reset.cfg.limit = true ∧ isFinite .binary32 0x7F7FFFFF = true := by
  decide +kernel

/-- An infinity, a state between two transitions, and elements nothing has written. -/
theorem witness_StopsOfTheDatapath : isFinite .binary32 0x7F800000 = false ∧ stored.dp.inTransition = false ∧
    working.dp.inTransition = true ∧ isFinite32 0x7F800000 = false ∧ (0x200 : BitVec 32).extractLsb' 8 8 ≠ 0 ∧
    enabled { claimed with slots := [(0, { Slot.blank with state := .filled, nFrames := 2 })] } .processFrame = true ∧
    enabled { processed with slots := [(0, { Slot.blank with state := .processed, nGroups := 1 })] } .popWord = true ∧
    (4096 ≤ (Memory.read [(0, { Slot.blank with nGroups := 4096 })] 0).nGroups) := by decide +kernel

theorem witness_InterpResult : working.dp.inTransition = true ∧ isFinite32 0x7F7FFFFF = true ∧ isFinite32 0xFF7FFFFF = true := by
  decide

/-- Both ways of 41_interpolator.md R153. -/
theorem witness_InterpAtStepZero : working.dp.inTransition = true ∧ isFinite32 0x80000000 = true ∧ working.dp.i = 0 ∧
    (0x00000000 : Sample).getLsbD 31 = false ∧ (0x80000000 : Sample).getLsbD 31 = true := by decide

theorem witness_HalfIsMsbFirst : (List.replicate 32 true).length = 32 := by decide

theorem witness_CloseHalfResult : (31 : BitVec 6).toNat < 32 ∧ 32 ≤ (32 : BitVec 6).toNat := by decide

theorem witness_EmitGroupResult : claimed.slots.wf = true ∧
    (claimed.slots.read (claimed.procSeq % claimed.par.nSlots)).nGroups < claimed.par.batchCap := by decide

/-- STEP runs at an inner step, at the end of a half and at the end of a transition. -/
theorem witness_StepIsItsParts : runs .step working = true ∧ runs .step (atStep 31 0 0 working) = true ∧
    runs .step (atStep 63 0 0 working) = true := by decide +kernel

theorem witness_StepCompletes : datapathReady working = true ∧ working.dp.inTransition = true ∧
    datapathReady (atStep 63 0 0 working) = true ∧ (atStep 63 0 0 working).dp.i = 63 ∧
    (working.slots.read (working.procSeq % working.par.nSlots)).nGroups < working.par.batchCap := by decide +kernel

theorem witness_TransitionCompletes : working.slots.wf = true ∧ datapathReady working = true ∧ working.dp.inTransition = true ∧
    working.dp.i = 0 ∧ (working.slots.read (working.procSeq % working.par.nSlots)).nGroups < working.par.batchCap := by
  decide +kernel

theorem witness_DecodeEncode : Instr.wellFormed Params.default (.loadCfg 15 0xFFFFFFFF) = true ∧
    Instr.wellFormed { Params.default with accFmt := .binary64 } (.modulate .right 0xFFFFFFFFFFFFFFFF) = true ∧
    Instr.wellFormed Params.default (.claim 0) = true := by decide

theorem witness_RecordRoundTrip : 2 ^ 64 - 1 < 2 ^ 64 ∧
    decodeRecord 0xFFFFFFFFFFFFFFFF_00_19 = .ok (.claim (2 ^ 64 - 1)) := by decide

theorem witness_ReservedOpidsRefused : ((0xABCD_00_15 : BitVec 80).extractLsb' 0 5).toNat ∈ [0b00111, 0b10101, 0b10110, 0b10111] ∧
    (0xABCD_00_15 : BitVec 80).extractLsb' 5 3 = 0 ∧
    (placeBeat State.reset (.opid 0xABCD_00_15)).script = .opid 0xABCD_00_15 :: State.reset.script := by decide

theorem witness_StepRunsTheDecoded :
    (placeBeat State.reset (.cfg 0x0700000000)).script = .cfg 0x0700000000 :: [] ∧
    decode State.reset.par.accFmt (.cfg 0x0700000000) = .ok (.readCsr 7) ∧
    decode State.reset.par.accFmt (.pin false) = .error .noTransfer ∧ State.reset.script = [] := by decide

theorem witness_InvariantsAtReset : Params.default.legal = true ∧
    Params.legal { Params.default with nSlots := 1, batchCap := 1, seqw := some 1 } = true := by decide

/-- A read of the pool of `filling` finds an Empty slot everywhere. -/
theorem filling_empty (j : Nat) : (filling.slots.read j).state = .empty := by
  unfold filling Memory.read
  simp only [cellGet]
  split
  · next v h =>
    split at h
    · injection h with h
      rw [← h]
      rfl
    · split at h <;> cases h
  · rfl

theorem draining_order : CoordInv draining where
  params := by decide
  poolWf := by decide
  poolRange := by decide
  emitLeProc := by decide
  procLeFill := by decide
  fillInRing := by decide
  fillCntCap := by decide
  fillHasSlot := by decide
  filledSlots := fun n _ h => absurd h (Nat.not_lt_zero n)
  processedSlots := fun n _ h => absurd h (Nat.not_lt_zero n)
  emittingSlot := fun h => absurd h (by decide)
  emptySlots := fun n _ _ => filling_empty _
  ownerHasBatch := fun _ k h => nomatch h
  procCursor := fun _ h => absurd rfl h
  emitCursor := fun _ h => absurd h (by decide)
  emitStart := fun _ => rfl
  idleFresh := fun h => nomatch h
  doneEmpty := fun h => nomatch h

theorem drained_order : CoordInv drained where
  params := by decide
  poolWf := by decide
  poolRange := by decide
  emitLeProc := by decide
  procLeFill := by decide
  fillInRing := by decide
  fillCntCap := by decide
  fillHasSlot := by decide
  filledSlots := fun n _ h => absurd h (Nat.not_lt_zero n)
  processedSlots := fun n _ h => absurd h (Nat.not_lt_zero n)
  emittingSlot := fun h => absurd h (by decide)
  emptySlots := fun _ _ _ => rfl
  ownerHasBatch := fun _ k h => nomatch h
  procCursor := fun _ h => absurd rfl h
  emitCursor := fun _ h => absurd h (by decide)
  emitStart := fun _ => rfl
  idleFresh := fun h => nomatch h
  doneEmpty := fun h => nomatch h

theorem witness_FinishResult : drained.phase = .drain ∧ drained.fillCnt = 0 ∧ drained.emitSeq = drained.fillSeq ∧
    CoordInv drained := ⟨rfl, rfl, rfl, drained_order⟩

/-- The next step of the draining state closes its Batch. -/
theorem witness_CoordInvKept : CoordInv draining ∧
    ∃ t, step draining = .next t := ⟨draining_order, _, rfl⟩

/-- The bound on the Frame count of a Batch. -/
theorem witness_CloseBatchResult_order : CoordInv draining ∧ draining.slots.wf = true ∧ draining.phase = .drain ∧
    1 ≤ draining.fillCnt := ⟨draining_order, by decide, rfl, by decide⟩

theorem witness_SlotStateNamesItsStage : CoordInv draining ∧ 0 < draining.par.nSlots ∧ 3 < draining.par.nSlots :=
  ⟨draining_order, by decide, by decide⟩

theorem witness_ConfigLocked : closed.phase ≠ .idle ∧ Instr.claim 0 ≠ .reset ∧ (∃ t, exec (.claim 0) closed = .next t) ∧
    ∃ t, exec (.loadCfg 0 0) closed = .next t := ⟨by decide, by decide, ⟨_, rfl⟩, ⟨_, rfl⟩⟩

theorem witness_ConfigStaysLegal : State.reset.cfg.legal State.reset.par.accFmt = true ∧
    ∃ t, step (placeBeat State.reset (.cfg 0x107FC00000)) = .next t := ⟨by decide +kernel, _, rfl⟩

/-- Each of the moves of PHASE. -/
theorem witness_PhaseMoves : enabled State.reset (.loadCfg 0 0) = true ∧ enabled filling .closeBatch = true ∧
    enabled drained .finish = true ∧ agentOp .finish = true ∧ after (.pushFrame 0 0) State.reset (·.phase) = some .run ∧
    after .endStream State.reset (·.phase) = some .drain ∧ after .endStream filling (·.phase) = some .drain ∧
    after .finish drained (·.phase) = some .done ∧ after .popFail processed (·.phase) = some .aborted ∧
    after .abort processed (·.phase) = some .aborted ∧ after .reset processed (·.phase) = some .idle := by decide

/-- Each flag's setting. -/
theorem witness_FlagsAreSticky : after .endStream filling (·.eosSeen) = some true ∧
    after .popFail processed (·.outFailed) = some true ∧ after (.sanitize 0x7FC00000) filling (·.nonfiniteSeen) = some true ∧
    after (.loadCfg 6 1) State.reset (·.cfgFallback) = some true ∧
    after .processFrame claimed (·.dp.haveCur) = some true := by decide

/-- Each counter's rise. -/
theorem witness_CountersRiseByOne : after .closeBatch filling (·.fillSeq) = some 1 ∧
    after .processDone allProcessed (·.procSeq) = some 1 ∧ after .release emitted (·.emitSeq) = some 1 ∧
    after (.pushFrame 0 0) filling (·.nFramesIn) = some 2 ∧ after .popWord processed (·.nWordsOut) = some 1 := by decide

theorem witness_SlotLifeCycle : CoordInv draining ∧ (∃ t, exec .closeBatch draining = .next t) ∧
    Instr.closeBatch ≠ .reset := ⟨draining_order, ⟨_, rfl⟩, by decide⟩

theorem witness_RolesWriteTheirOwn : filling.slots.wf = true ∧ runs .closeBatch filling = true ∧
    agentOf .closeBatch ≠ .compute ∧ runs .processDone allProcessed = true ∧ agentOf .processDone ≠ .reader ∧
    agentOf .processDone ≠ .host ∧ agentOf .processDone ≠ .writer := by decide

theorem witness_ChannelsAreIndependent : runs .step working = true ∧
    runs .step { working with dp := { working.dp with right := { working.dp.right with s4 := 0xC2000000 } } } = true ∧
    runs .step { working with dp := { working.dp with left := { working.dp.left with s4 := 0xC2000000 } } } = true := by
  decide +kernel

theorem witness_DrainAlwaysMoves : CoordInv draining ∧ draining.phase = .drain ∧ CoordInv drained ∧ drained.phase = .drain :=
  ⟨draining_order, rfl, drained_order, rfl⟩

theorem witness_AbortWinsTheCycle : pinsBoth.rst = false ∧ pinsBoth.inValid = true ∧ pinsBoth.inBeat.getLsbD 64 = true ∧
    pinsBoth.outErr = true ∧ pinsBoth.cfgBeat.toNat < 2 ^ (processed.par.accFmt.width + 5) ∧
    inReady false processed = true ∧ outValid false processed = true := by decide

theorem witness_GoldenIsTotal : (CfgRegs.reset .binary32).legal Params.default.accFmt = true ∧
    (CfgRegs.reset .binary64).legal ({ Params.default with accFmt := .binary64 } : Params).accFmt = true := by decide +kernel

/-- A run of one Frame that is still in the pipeline. -/
theorem run_one_frame : ∃ s, AgentRun s ∧ s.nFramesIn = 1 ∧ s.phase = .run :=
  ⟨_, .next (.start Params.default [.inp 0x03F80000000000000] (by decide) (by decide)) rfl, rfl, rfl⟩

/-- A run of no Frame that has ended. -/
theorem run_ended : ∃ s, AgentRun s ∧ s.phase = .done :=
  ⟨_, .next (.next (.start Params.default [.inp 0x10000000000000000, .opid 0b11110] (by decide) (by decide)) rfl) rfl, rfl⟩

theorem witness_OutputIsGolden : (∃ s, AgentRun s ∧ s.nFramesIn = 1 ∧ s.phase = .run) ∧ ∃ s, AgentRun s ∧ s.phase = .done :=
  ⟨run_one_frame, run_ended⟩

theorem witness_RunsNeverFault : ∃ s, AgentRun s ∧ s.nFramesIn = 1 ∧ s.phase = .run := run_one_frame

theorem witness_BitCountLaw : (∃ s, AgentRun s ∧ s.nFramesIn = 1 ∧ s.phase = .run) ∧ ∃ s, AgentRun s ∧ s.phase = .done :=
  ⟨run_one_frame, run_ended⟩

/-- An inexact sum with a tie: 1 + 2^-24 lies midway between 1 and the next pattern. -/
theorem witness_CorrectRounding : isFinite .binary32 0x3F800000 = true ∧ isFinite .binary32 0x33800000 = true ∧
    isFinite .binary32 0x3F800001 = true ∧ isFinite .binary32 (addAcc .binary32 0x3F800000 0x33800000) = true ∧
    isFinite .binary32 (mulAcc .binary32 0x3F800001 0x3F800001) = true ∧
    valueOf .binary32 0x3F800001 - (valueOf .binary32 0x3F800000 + valueOf .binary32 0x33800000) =
      valueOf .binary32 0x3F800000 + valueOf .binary32 0x33800000 - valueOf .binary32 (addAcc .binary32 0x3F800000 0x33800000) :=
  by decide +kernel

theorem witness_GroupBytesDecode : 0 < 64 ∧ 31 < 64 ∧ 32 < 64 ∧ 63 < 64 := by decide

theorem witness_AdapterFindsTheFrames : ([] : List Byte).length < 8 ∧ ([1, 2, 3, 4, 5, 6, 7] : List Byte).length < 8 := by decide

end Sys2Proof.Tests
end

/-! ## 00_scope.md: a step is the operation of the next beat (R12, R13) -/

namespace Sys2Proof.Machine

/-! ### What a step takes from the schedule -/

theorem fetchBeat_of_script_cons {s : State} {b : Beat} {rest : List Beat} (h : s.script = b :: rest) :
    fetchBeat s = some (b, { s.quiet with script := rest }) := by
  rw [fetchBeat, h]

theorem fetchBeat_of_script_nil {s : State} (h : s.script = []) : fetchBeat s = none := by
  rw [fetchBeat, h]

theorem step_of_script_cons {s : State} {b : Beat} {rest : List Beat} (h : s.script = b :: rest) :
    step s = perform b { s.quiet with script := rest } := by
  rw [step, fetchBeat_of_script_cons h]

theorem step_of_script_nil {s : State} (h : s.script = []) : step s = .next s.quiet := by
  rw [step, fetchBeat_of_script_nil h]

/-! ### What becomes of the beat -/

theorem perform_of_decode_ok {s : State} {b : Beat} {i : Instr} (h : decode s.par.accFmt b = .ok i) :
    perform b s = exec i s := by
  rw [perform, h]

theorem perform_of_decode_error {s : State} {b : Beat} {r : Reject} (h : decode s.par.accFmt b = .error r) :
    perform b s = rejectBeat r s := by
  rw [perform, h]

@[simp] theorem rejectBeat_noTransfer (s : State) : rejectBeat .noTransfer s = .next s := rfl

/-- With an empty schedule, clearing the wires is the whole step: the schedule a step leaves is the empty one it found. -/
theorem quiet_eq_of_script_nil {s : State} (h : s.script = []) : s.quiet = { s.quiet with script := [] } := by
  rw [← h, ← quiet_script]

/-- Settles O40, by what the schedule holds and what the decoder answers: taking the beat leaves the instance's number format
as it was, so the format the beat is read in is that of the state before the step. -/
theorem stepRunsTheDecoded : Obligations.StepRunsTheDecoded := by
  intro s
  refine ⟨fun b rest i hscript hdecode => ?operation, fun b rest hscript hdecode => ?noTransfer, fun hscript => ?emptySchedule⟩
  case operation => exact (step_of_script_cons hscript).trans (perform_of_decode_ok hdecode)
  case noTransfer =>
    calc step s = perform b { s.quiet with script := rest } := step_of_script_cons hscript
      _ = rejectBeat .noTransfer { s.quiet with script := rest } := perform_of_decode_error hdecode
      _ = .next { s.quiet with script := rest } := rejectBeat_noTransfer _
  case emptySchedule => exact (step_of_script_nil hscript).trans (congrArg _ (quiet_eq_of_script_nil hscript))

end Sys2Proof.Machine

/-! ## 10_state.md: what one operation can make of the state

`Effect s i t` says once, for every operation, which states it can leave and under which guard. The statements about the whole
machine (R33, R35, R38, R47, R56) are case splits over it. -/

namespace Sys2Proof.Machine

/-! ### The states the coordinator's operations leave -/

/-- PUSH_FRAME has stored its Frame (43_pipeline_coordinator.md R196). -/
def framePushed (l r : Sample) (s : State) : State :=
  noteSample (some .right) r (noteSample (some .left) l
    { s with
      slots := s.slots.write (slotIndex s.par s.fillSeq)
        ((fillSlot s).putFrame s.fillCnt ⟨sanitizeValue l, sanitizeValue r⟩)
      fillCnt := s.fillCnt + 1
      nFramesIn := s.nFramesIn + 1
      inStream := s.inStream ++ [⟨l, r⟩]
      phase := if s.phase = .idle then .run else s.phase })

/-- CLOSE_BATCH has handed the Batch over (R199). -/
def batchClosed (s : State) : State :=
  { s with
    slots := s.slots.write (slotIndex s.par s.fillSeq) { fillSlot s with nFrames := s.fillCnt, nGroups := 0, state := .filled }
    fillSeq := s.fillSeq + 1
    fillCnt := 0 }

/-- PROCESS_DONE has handed the Batch over and given the datapath up (R206). -/
def batchProcessed (s : State) : State :=
  { s with
    slots := s.slots.write (slotIndex s.par s.procSeq) { procSlot s with state := .processed }
    procSeq := s.procSeq + 1
    dpOwner := none }

/-- POP_WORD has delivered `w` (R212). -/
def wordDelivered (w : OutWord) (s : State) : State :=
  { s with
    outStream := s.outStream ++ [w]
    emitIdx := s.emitIdx + 1
    nWordsOut := s.nWordsOut + 1
    ret := .word w }

/-- WRITE_DONE has marked the slot Emitted (R214). -/
def batchEmitted (s : State) : State :=
  { s with slots := s.slots.write (slotIndex s.par s.emitSeq) { emitSlot s with state := .emitted } }

/-- RELEASE has given the slot back (R215). -/
def slotReleased (s : State) : State :=
  { s with
    slots := s.slots.write (slotIndex s.par s.emitSeq) { emitSlot s with state := .empty }
    emitSeq := s.emitSeq + 1
    emitIdx := 0 }

/-! ### The effect of an operation -/

/-- The pool `m` with Word Groups appended to slot `j`, any number of them: all that the datapath does to the pool
(42_bit_packer.md R176). -/
inductive GroupsAppended (j : Nat) (m : Memory) : Memory → Prop where
  | none : GroupsAppended j m m
  | more {m' : Memory} (g : WordGroup) : GroupsAppended j m m' → GroupsAppended j m (m'.write j ((m'.read j).appendGroup g))

/-- The states an operation put forward in `s` can leave. -/
inductive Effect (s : State) : Instr → State → Prop where
  | waits {i} : enabled s i = false → Effect s i s
  | reset : Effect s .reset { State.resetOf s.par with script := s.script, freeCount := s.freeCount }
  | loaded {idx data} : canLoad s = true → cfgLegalAt s.par.accFmt idx (dataBits s.par.accFmt data) = true →
      Effect s (.loadCfg idx data) { s with cfg := cfgStore idx (dataBits s.par.accFmt data) s.cfg }
  | fellBack {idx data} : canLoad s = true → cfgLegalAt s.par.accFmt idx (dataBits s.par.accFmt data) = false →
      Effect s (.loadCfg idx data) (noteConfigError idx { s with cfg := cfgFallbackAt s.par.accFmt idx s.cfg })
  | csrRead {idx} : Effect s (.readCsr idx) { s with ret := .csr (csrRead s idx) }
  | framePushed {l r} : canTake s = true → Effect s (.pushFrame l r) (framePushed l r s)
  | streamEnded : canTake s = true →
      Effect s .endStream (raiseEvent .endOfStream { s with eosSeen := true, phase := .drain })
  | sanitized {x} : canSanitize s = true →
      Effect s (.sanitize x) { noteSample none x s with ret := .sample (sanitizeValue x) }
  | batchClosed : canClose s = true → Effect s .closeBatch (batchClosed s)
  | datapath {i} (dp : Datapath) (m : Memory) (r : OpResult) : agentOf i = .compute → dp.haveCur = s.dp.haveCur →
      GroupsAppended (slotIndex s.par s.procSeq) s.slots m → Effect s i { s with dp := dp, slots := m, ret := r }
  | claimed {k} : k < s.par.nCompute → canClaim s = true → Effect s (.claim k) { s with dpOwner := some k, procIdx := 0 }
  | frameProcessed (dp : Datapath) (m : Memory) : canProcess s = true → dp.haveCur = true →
      GroupsAppended (slotIndex s.par s.procSeq) s.slots m →
      Effect s .processFrame { s with dp := dp, slots := m, procIdx := s.procIdx + 1 }
  | batchProcessed : canDone s = true → Effect s .processDone (batchProcessed s)
  | wordDelivered (w : OutWord) : canOffer s = true → offeredWord s = some w → Effect s .popWord (wordDelivered w s)
  | popFailed : canOffer s = true →
      Effect s .popFail (enterOutputFailure (raiseEvent (.outputFailure s.emitSeq s.emitIdx) s))
  | aborted : canOffer s = true → Effect s .abort (enterOutputFailure s)
  | batchEmitted : canWriteDone s = true → Effect s .writeDone (batchEmitted s)
  | slotReleased : canRelease s = true → Effect s .release (slotReleased s)
  | finished : canFinish s = true → Effect s .finish { s with phase := .done }

/-! ### The datapath operations have the effect `Effect.datapath` -/

theorem GroupsAppended.trans {j : Nat} {m m₁ m₂ : Memory} (h : GroupsAppended j m m₁) (h' : GroupsAppended j m₁ m₂) :
    GroupsAppended j m m₂ := by
  induction h' with
  | none => exact h
  | more g _ ih => exact ih.more g

/-- A micro-operation on the datapath registers that may fault: whatever it computes is put into the registers and on the
result wire. -/
theorem Effect.of_map {α : Type} {x : Except Fault α} {g : α → State} {s t : State} {i : Instr} (hi : agentOf i = .compute)
    (dp : α → Datapath) (r : α → OpResult) (hg : ∀ a, g a = { s with dp := dp a, ret := r a })
    (hdp : ∀ a, (dp a).haveCur = s.dp.haveCur) (h : ofExcept (x.map g) = .next t) : Effect s i t := by
  obtain ⟨a, -, rfl⟩ := except_map_ok.1 (ofExcept_next.1 h)
  rw [hg a]
  exact .datapath _ _ _ hi (hdp a) .none

theorem stepOp_groupsAppended {s t : State} (h : stepOp s = .ok t) :
    GroupsAppended (slotIndex s.par s.procSeq) s.slots t.slots := by
  obtain ⟨⟨v, ht, hv⟩, -⟩ := stepOp_frame h
  rw [ht]
  obtain rfl | rfl := hv
  · exact .none
  · exact .more _ .none

/-- TRANSITION: the STEPs all append to the slot it started with, since no STEP moves `proc_seq`. -/
theorem transitionOp_groupsAppended {s t : State} (h : transitionOp s = .ok t) :
    GroupsAppended (slotIndex s.par s.procSeq) s.slots t.slots := by
  obtain ⟨s₁, hsteps, rfl⟩ := transitionOp_cases h
  have hkeeps := repeatOp_keeps
    (fun a => (a.par = s.par ∧ a.procSeq = s.procSeq) ∧ GroupsAppended (slotIndex s.par s.procSeq) s.slots a.slots)
    (fun a b ⟨⟨hpar, hseq⟩, hgroups⟩ hab => by
      have hmore := stepOp_groupsAppended hab
      rw [hpar, hseq] at hmore
      obtain ⟨⟨v, hb, -⟩, -⟩ := stepOp_frame hab
      refine ⟨?_, hgroups.trans hmore⟩
      rw [hb]
      exact ⟨hpar, hseq⟩) 64 s s₁ ⟨⟨rfl, rfl⟩, .none⟩ hsteps
  exact hkeeps.2

theorem processFrameOp_groupsAppended {s t : State} (h : processFrameOp s = .ok t) :
    GroupsAppended (slotIndex s.par s.procSeq) s.slots t.slots := by
  obtain ⟨x, -, ⟨-, rfl⟩ | ⟨-, s₁, hrun, rfl⟩⟩ := processFrameOp_cases h
  · exact .none
  · have hgroups := transitionOp_groupsAppended hrun
    exact hgroups

theorem Effect.of_emitGroupOp {s t : State} (h : emitGroupOp s = .ok t) : Effect s .emitGroup t := by
  rw [(emitGroupOp_cases h).2]
  exact .datapath s.dp _ s.ret rfl rfl (.more _ .none)

theorem Effect.of_stepOp {s t : State} (h : stepOp s = .ok t) : Effect s .step t := by
  obtain ⟨⟨v, ht, -⟩, hcur, -⟩ := stepOp_frame h
  have hgroups := stepOp_groupsAppended h
  rw [ht] at hgroups ⊢
  exact .datapath t.dp v s.ret rfl hcur hgroups

theorem Effect.of_transitionOp {s t : State} (h : transitionOp s = .ok t) : Effect s .transition t := by
  obtain ⟨ht, hcur, -⟩ := transitionOp_frame h
  rw [ht]
  exact .datapath t.dp t.slots s.ret rfl hcur (transitionOp_groupsAppended h)

theorem Effect.of_processFrameOp {s t : State} (hguard : canProcess s = true) (h : processFrameOp s = .ok t) :
    Effect s .processFrame t := by
  obtain ⟨ht, hcur, -⟩ := processFrameOp_frame h
  rw [ht]
  exact .frameProcessed t.dp t.slots hguard hcur (processFrameOp_groupsAppended h)

/-! ### Every operation that answers has an effect -/

/-- An operation with a guard: what it answers while the guard holds, and `s` while it does not. -/
theorem Effect.of_guard {s t : State} {i : Instr} {o : Host.Outcome State Fault Refusal}
    (hthen : enabled s i = true → o = .next t → Effect s i t)
    (h : (if enabled s i = true then o else .next s) = .next t) : Effect s i t := by
  split at h
  · next hguard => exact hthen hguard h
  · next hguard =>
    cases h
    exact .waits (Bool.eq_false_iff.2 hguard)

/-- What an operation answers is one of its effects. -/
theorem exec_effect {s t : State} {i : Instr} (h : exec i s = .next t) : Effect s i t := by
  cases i with
  | reset => cases h; exact .reset
  | readCsr idx => cases h; exact .csrRead
  | loadCfg idx data =>
    refine .of_guard (fun hguard ho => ?_) h
    split at ho <;> cases ho
    · next hlegal => exact .loaded hguard hlegal
    · next hlegal => exact .fellBack hguard (Bool.eq_false_iff.2 hlegal)
  | pushFrame l r => exact .of_guard (fun hguard ho => by cases ho; exact .framePushed hguard) h
  | endStream => exact .of_guard (fun hguard ho => by cases ho; exact .streamEnded hguard) h
  | sanitize x => exact .of_guard (fun hguard ho => by cases ho; exact .sanitized hguard) h
  | closeBatch => exact .of_guard (fun hguard ho => by cases ho; exact .batchClosed hguard) h
  | claim k =>
    simp only [exec, execClaim] at h
    split at h
    · next hk => exact .of_guard (fun hguard ho => by cases ho; exact .claimed hk hguard) h
    · cases h
  | processFrame => exact .of_guard (fun hguard ho => .of_processFrameOp hguard (ofExcept_next.1 ho)) h
  | processDone => exact .of_guard (fun hguard ho => by cases ho; exact .batchProcessed hguard) h
  | popWord =>
    refine .of_guard (fun hguard ho => ?_) h
    split at ho <;> cases ho
    next w hw => exact .wordDelivered w hguard hw
  | popFail => exact .of_guard (fun hguard ho => by cases ho; exact .popFailed hguard) h
  | abort => exact .of_guard (fun hguard ho => by cases ho; exact .aborted hguard) h
  | writeDone => exact .of_guard (fun hguard ho => by cases ho; exact .batchEmitted hguard) h
  | release => exact .of_guard (fun hguard ho => by cases ho; exact .slotReleased hguard) h
  | finish => exact .of_guard (fun hguard ho => by cases ho; exact .finished hguard) h
  | interp ch => exact .of_map rfl (fun _ => s.dp) .acc (fun _ => rfl) (fun _ => rfl) h
  | scale ch x => exact .of_map rfl (fun _ => s.dp) .acc (fun _ => rfl) (fun _ => rfl) h
  | integrate ch x => exact .of_map rfl (s.dp.setLane ch) (fun _ => s.ret) (fun _ => rfl) (fun _ => setLane_haveCur ..) h
  | panicCheck ch => exact .of_map rfl (s.dp.setLane ch) (fun _ => s.ret) (fun _ => rfl) (fun _ => setLane_haveCur ..) h
  | clamp ch => exact .of_map rfl (s.dp.setLane ch) (fun _ => s.ret) (fun _ => rfl) (fun _ => setLane_haveCur ..) h
  | quantize ch =>
    exact .of_map rfl (fun r : Lane × Bool => s.dp.setLane ch r.1) (fun r => .bit r.2) (fun _ => rfl)
      (fun _ => setLane_haveCur ..) h
  | modulate ch x =>
    exact .of_map rfl (fun r : Lane × Bool => s.dp.setLane ch r.1) (fun r => .bit r.2) (fun _ => rfl)
      (fun _ => setLane_haveCur ..) h
  | packBit ch b => cases h; exact .datapath (s.dp.setLane ch _) s.slots s.ret rfl (setLane_haveCur ..) .none
  | closeHalf => cases h; exact .datapath (closeHalfDp s.dp) s.slots s.ret rfl (closeHalfDp_haveCur _) .none
  | emitGroup => exact .of_emitGroupOp (ofExcept_next.1 h)
  | step => exact .of_stepOp (ofExcept_next.1 h)
  | transition => exact .of_transitionOp (ofExcept_next.1 h)

/-! ### From an operation to a step -/

/-- What clearing the wires and taking a beat keeps, and every operation keeps, every step keeps. -/
theorem step_keeps (P : State → Prop) (hfetch : ∀ s rest, P s → P { s.quiet with script := rest })
    (hop : ∀ s i t, P s → Effect s i t → P t) {s t : State} (hs : P s) (h : step s = .next t) : P t := by
  cases hscript : s.script with
  | nil =>
    rw [step_of_script_nil hscript, quiet_eq_of_script_nil hscript] at h
    cases h
    exact hfetch s [] hs
  | cons b rest =>
    rw [step_of_script_cons hscript] at h
    have hfetched := hfetch s rest hs
    generalize { s.quiet with script := rest } = u at h hfetched
    cases hdecode : decode u.par.accFmt b with
    | ok i =>
      rw [perform_of_decode_ok hdecode] at h
      exact hop u i t hfetched (exec_effect h)
    | error r =>
      rw [perform_of_decode_error hdecode] at h
      cases r <;> cases h
      exact hfetched

end Sys2Proof.Machine

/-! ## 10_state.md R33, R56 (4), (5): the coordinator's order -/

namespace Sys2Proof.Machine

/-! ### The ring of slots (20_memory.md R62) -/

theorem slotIndex_lt {p : Params} (h : 0 < p.nSlots) (n : Nat) : slotIndex p n < p.nSlots := Nat.mod_lt n h

@[simp] theorem slotIndex_add_nSlots (p : Params) (n : Nat) : slotIndex p (n + p.nSlots) = slotIndex p n :=
  Nat.add_mod_right n p.nSlots

/-- Two Batch numbers less than one turn of the ring apart live in different slots. -/
theorem slotIndex_ne {p : Params} {k n : Nat} (h : k < n ∧ n < k + p.nSlots) : slotIndex p n ≠ slotIndex p k := by
  intro heq
  have hdvd : p.nSlots ∣ n - k := (Nat.modEq_iff_dvd' h.1.le).1 heq.symm
  have hle := Nat.le_of_dvd (Nat.sub_pos_of_lt h.1) hdvd
  omega

/-! ### The pool while groups are appended -/

/-- From `m` to `m'` every slot keeps its state and its Frames, and loses no group; the form and the range of the pool stay. -/
structure PoolGrows (c : Nat) (m m' : Memory) : Prop where
  wf : m'.wf = true
  range : ∀ e ∈ m', e.1 < c
  state : ∀ j, (m'.read j).state = (m.read j).state
  nFrames : ∀ j, (m'.read j).nFrames = (m.read j).nFrames
  nGroups : ∀ j, (m.read j).nGroups ≤ (m'.read j).nGroups

theorem read_write_appendGroup (m : Memory) (j k : Nat) (g : WordGroup) (h : m.wf = true) :
    (m.write j ((m.read j).appendGroup g)).read k = if k = j then (m.read k).appendGroup g else m.read k := by
  split
  · next hk => rw [hk, read_write_same m j _ h]
  · next hk => exact read_write_other m j k _ h hk

theorem GroupsAppended.poolGrows {j c : Nat} {m m' : Memory} (h : GroupsAppended j m m') (hwf : m.wf = true)
    (hrange : ∀ e ∈ m, e.1 < c) (hj : j < c) : PoolGrows c m m' := by
  induction h with
  | none => exact ⟨hwf, hrange, fun _ => rfl, fun _ => rfl, fun _ => le_rfl⟩
  | @more m₁ g _ ih =>
    have hread := fun k => read_write_appendGroup m₁ j k g ih.wf
    refine ⟨Memory.write_wf _ _ _ ih.wf (Slot.appendGroup_wf _ _ (Memory.read_wf _ _ ih.wf)),
      Memory.write_range _ _ _ _ ih.range hj, fun k => ?_, fun k => ?_, fun k => ?_⟩
    · rw [hread, ← ih.state]
      split <;> rfl
    · rw [hread, ← ih.nFrames]
      split <;> rfl
    · rw [hread]
      refine (ih.nGroups k).trans ?_
      split
      · exact Nat.le_succ _
      · exact le_rfl

/-! ### Where in the pipeline a Batch is -/

theorem CoordInv.nSlots_pos {s : State} (h : CoordInv s) : 0 < s.par.nSlots := by
  have hlegal := h.params
  simp only [Params.legal, Bool.and_eq_true, decide_eq_true_eq] at hlegal
  obtain ⟨⟨⟨hslots, -⟩, -⟩, -⟩ := hlegal
  exact hslots

/-- A Batch number of the current turn of the ring is with the Writer, with Compute or with the Reader, and its slot's state
says so. -/
theorem CoordInv.stage {s : State} (h : CoordInv s) {n : Nat} (hlo : s.emitSeq ≤ n) (hhi : n < s.emitSeq + s.par.nSlots) :
    (n < s.procSeq ∧ (slotStateAt s n = .processed ∨ slotStateAt s n = .emitted)) ∨
      (s.procSeq ≤ n ∧ n < s.fillSeq ∧ slotStateAt s n = .filled) ∨ (s.fillSeq ≤ n ∧ slotStateAt s n = .empty) := by
  rcases Nat.lt_or_ge n s.procSeq with hproc | hproc
  · refine .inl ⟨hproc, ?_⟩
    rcases Nat.eq_or_lt_of_le hlo with rfl | hemit
    · exact h.emittingSlot hproc
    · exact .inl (h.processedSlots n hemit hproc)
  · rcases Nat.lt_or_ge n s.fillSeq with hfill | hfill
    · exact .inr (.inl ⟨hproc, hfill, h.filledSlots n hproc hfill⟩)
    · exact .inr (.inr ⟨hfill, h.emptySlots n hfill hhi⟩)

section Stages

variable {s : State} {n : Nat}

theorem CoordInv.empty_iff (h : CoordInv s) (hlo : s.emitSeq ≤ n) (hhi : n < s.emitSeq + s.par.nSlots) :
    slotStateAt s n = .empty ↔ s.fillSeq ≤ n := by
  have horder := h.procLeFill
  rcases h.stage hlo hhi with ⟨hn, hst | hst⟩ | ⟨-, hn, hst⟩ | ⟨hn, hst⟩ <;> simp [hst] <;> omega

theorem CoordInv.filled_iff (h : CoordInv s) (hlo : s.emitSeq ≤ n) (hhi : n < s.emitSeq + s.par.nSlots) :
    slotStateAt s n = .filled ↔ s.procSeq ≤ n ∧ n < s.fillSeq := by
  rcases h.stage hlo hhi with ⟨hn, hst | hst⟩ | ⟨hp, hn, hst⟩ | ⟨hn, hst⟩ <;> simp [hst] <;> omega

theorem CoordInv.processed_or_emitted_iff (h : CoordInv s) (hlo : s.emitSeq ≤ n) (hhi : n < s.emitSeq + s.par.nSlots) :
    slotStateAt s n = .processed ∨ slotStateAt s n = .emitted ↔ n < s.procSeq := by
  have horder := h.procLeFill
  rcases h.stage hlo hhi with ⟨hn, hst | hst⟩ | ⟨hp, -, hst⟩ | ⟨hn, hst⟩ <;> simp [hst] <;> omega

/-- One turn ahead of the Batch being emitted, the slot is that Batch's own. -/
theorem slotStateAt_turn (s : State) : slotStateAt s (s.emitSeq + s.par.nSlots) = slotStateAt s s.emitSeq := by
  simp only [slotStateAt, slotIndex_add_nSlots]

/-- The Reader finds an Empty slot only if the ring is not full. -/
theorem CoordInv.fillSeq_lt (h : CoordInv s) (hempty : (fillSlot s).state = .empty) : s.fillSeq < s.emitSeq + s.par.nSlots := by
  have hpos := h.nSlots_pos
  refine lt_of_le_of_ne h.fillInRing fun hfull => ?_
  have hst : slotStateAt s s.fillSeq = .empty := hempty
  rw [hfull, slotStateAt_turn] at hst
  have := (h.empty_iff le_rfl (by omega)).1 hst
  omega

/-- Compute finds a Filled slot only if a Batch is waiting for it. -/
theorem CoordInv.procSeq_lt (h : CoordInv s) (hfilled : (procSlot s).state = .filled) : s.procSeq < s.fillSeq := by
  have hpos := h.nSlots_pos
  have hring := h.fillInRing
  have hst : slotStateAt s s.procSeq = .filled := hfilled
  rcases Nat.lt_or_ge s.procSeq (s.emitSeq + s.par.nSlots) with hin | hout
  · exact ((h.filled_iff h.emitLeProc hin).1 hst).2
  · have heq : s.procSeq = s.emitSeq + s.par.nSlots := by
      have := h.procLeFill
      omega
    rw [heq, slotStateAt_turn] at hst
    have := ((h.filled_iff le_rfl (by omega)).1 hst).1
    omega

/-- The Writer finds a Processed or Emitted slot only if a Batch is waiting for it. -/
theorem CoordInv.emitSeq_lt (h : CoordInv s) (hout : (emitSlot s).state = .processed ∨ (emitSlot s).state = .emitted) :
    s.emitSeq < s.procSeq := by
  have hpos := h.nSlots_pos
  exact (h.processed_or_emitted_iff le_rfl (by omega)).1 hout

/-- While a Compute role holds the datapath, the Batch it works on lies within the ring. -/
theorem CoordInv.owner_procSeq_lt (h : CoordInv s) (hphase : s.phase ≠ .aborted) (howner : s.dpOwner ≠ none) :
    s.procSeq < s.fillSeq := by
  obtain ⟨k, hk⟩ := Option.ne_none_iff_exists'.1 howner
  exact (h.ownerHasBatch hphase k hk).2

end Stages

/-! ### Each operation keeps the order -/

theorem live_phase {s : State} (h : live s = true) : s.phase ≠ .idle ∧ s.phase ≠ .done ∧ s.phase ≠ .aborted := by
  rcases (live_iff s).1 h with h | h <;> simp [h]

theorem not_aborted_of_canTake {s : State} (h : canTake s = true) : s.phase ≠ .aborted := by
  obtain ⟨hphase | hphase, -, -⟩ := (canTake_iff s).1 h <;> simp [hphase]

section Operations

variable {s : State}

/-- 10_state.md R55: the reset state has the order, whatever is put forward next. -/
theorem coordInv_resetOf {p : Params} (hp : p.legal = true) (script : List Beat) (n : Nat) :
    CoordInv { State.resetOf p with script := script, freeCount := n } where
  params := hp
  poolWf := rfl
  poolRange := fun _ he => absurd he List.not_mem_nil
  emitLeProc := le_rfl
  procLeFill := le_rfl
  fillInRing := Nat.zero_le _
  fillCntCap := Nat.zero_le _
  fillHasSlot := fun h => absurd h (lt_irrefl 0)
  filledSlots := fun n _ h => absurd h (Nat.not_lt_zero n)
  processedSlots := fun n _ h => absurd h (Nat.not_lt_zero n)
  emittingSlot := fun h => absurd h (lt_irrefl 0)
  emptySlots := fun _ _ _ => rfl
  ownerHasBatch := fun _ _ h => nomatch h
  procCursor := fun _ h => absurd rfl h
  emitCursor := fun _ h => absurd h (lt_irrefl 0)
  emitStart := fun _ => rfl
  idleFresh := fun _ => ⟨rfl, rfl⟩
  doneEmpty := fun _ => ⟨rfl, rfl⟩

theorem CoordInv.noteSample (h : CoordInv s) (ch : Option Channel) (x : Sample) : CoordInv (noteSample ch x s) := by
  unfold Machine.noteSample
  split
  · exact h
  · exact { h with }

/-- `m` is the pool of `s` with `v` in the slot of Batch `k`, as the other Batches of the turn see it. -/
structure WritesBatch (s : State) (k : Nat) (v : Slot) (m : Memory) : Prop where
  wf : m.wf = true
  range : ∀ e ∈ m, e.1 < s.par.nSlots
  same : m.read (slotIndex s.par k) = v
  other : ∀ n, k < n ∧ n < k + s.par.nSlots ∨ n < k ∧ k < n + s.par.nSlots →
    m.read (slotIndex s.par n) = s.slots.read (slotIndex s.par n)

theorem CoordInv.writesBatch (h : CoordInv s) (k : Nat) {v : Slot} (hv : v.wf = true) :
    WritesBatch s k v (s.slots.write (slotIndex s.par k) v) where
  wf := Memory.write_wf _ _ _ h.poolWf hv
  range := Memory.write_range _ _ _ _ h.poolRange (slotIndex_lt h.nSlots_pos k)
  same := read_write_same _ _ _ h.poolWf
  other := fun _ hn => read_write_other _ _ _ v h.poolWf (hn.elim slotIndex_ne fun hn => (slotIndex_ne hn).symm)

theorem WritesBatch.state_same {k : Nat} {v : Slot} {m : Memory} (hw : WritesBatch s k v m) :
    (m.read (slotIndex s.par k)).state = v.state := congrArg Slot.state hw.same

theorem WritesBatch.state_other {k n : Nat} {v : Slot} {m : Memory} (hw : WritesBatch s k v m)
    (hn : k < n ∧ n < k + s.par.nSlots ∨ n < k ∧ k < n + s.par.nSlots) :
    (m.read (slotIndex s.par n)).state = slotStateAt s n := congrArg Slot.state (hw.other n hn)

/-- A pool whose slots keep their states, and hold what the cursors have counted, keeps the order. -/
theorem CoordInv.of_pool (h : CoordInv s) {m : Memory} (hwf : m.wf = true) (hrange : ∀ e ∈ m, e.1 < s.par.nSlots)
    (hstate : ∀ j, (m.read j).state = (s.slots.read j).state)
    (hproc : s.phase ≠ .aborted → s.dpOwner ≠ none → s.procIdx ≤ (m.read (slotIndex s.par s.procSeq)).nFrames)
    (hemit : s.phase ≠ .aborted → s.emitSeq < s.procSeq → s.emitIdx ≤ 4 * (m.read (slotIndex s.par s.emitSeq)).nGroups) :
    CoordInv { s with slots := m } :=
  { h with
    poolWf := hwf
    poolRange := hrange
    filledSlots := fun n h₁ h₂ => (hstate _).trans (h.filledSlots n h₁ h₂)
    processedSlots := fun n h₁ h₂ => (hstate _).trans (h.processedSlots n h₁ h₂)
    emittingSlot := fun h₁ => (h.emittingSlot h₁).imp (hstate _).trans (hstate _).trans
    emptySlots := fun n h₁ h₂ => (hstate _).trans (h.emptySlots n h₁ h₂)
    procCursor := hproc
    emitCursor := hemit }

theorem CoordInv.of_poolGrows (h : CoordInv s) {m : Memory} (hm : PoolGrows s.par.nSlots s.slots m) :
    CoordInv { s with slots := m } :=
  h.of_pool hm.wf hm.range hm.state (fun h₁ h₂ => (h.procCursor h₁ h₂).trans (hm.nFrames _).ge)
    (fun h₁ h₂ => (h.emitCursor h₁ h₂).trans (Nat.mul_le_mul_left 4 (hm.nGroups _)))

theorem CoordInv.poolGrows_append (h : CoordInv s) {m : Memory}
    (hm : GroupsAppended (slotIndex s.par s.procSeq) s.slots m) : PoolGrows s.par.nSlots s.slots m :=
  hm.poolGrows h.poolWf h.poolRange (slotIndex_lt h.nSlots_pos _)

theorem CoordInv.poolGrows_putFrame (h : CoordInv s) (k n : Nat) (x : Frame) :
    PoolGrows s.par.nSlots s.slots
      (s.slots.write (slotIndex s.par k) ((s.slots.read (slotIndex s.par k)).putFrame n x)) := by
  have hw := h.writesBatch k (Slot.putFrame_wf _ n x (Memory.read_wf _ (slotIndex s.par k) h.poolWf))
  have hread : ∀ j, ∃ x', (s.slots.write (slotIndex s.par k) ((s.slots.read (slotIndex s.par k)).putFrame n x)).read j =
      { s.slots.read j with frames := x' } := by
    intro j
    by_cases hj : j = slotIndex s.par k
    · rw [hj, read_write_same _ _ _ h.poolWf]
      exact ⟨_, rfl⟩
    · rw [read_write_other _ _ _ _ h.poolWf hj]
      exact ⟨_, rfl⟩
  refine ⟨hw.wf, hw.range, fun j => ?_, fun j => ?_, fun j => ?_⟩ <;> obtain ⟨x', hx⟩ := hread j <;> rw [hx]

/-- PUSH_FRAME writes a Frame of the Empty slot at `fill_seq`; that the slot is Empty says that the ring is not full. -/
theorem CoordInv.framePushed (h : CoordInv s) (hguard : canTake s = true) (l r : Sample) : CoordInv (framePushed l r s) := by
  obtain ⟨hphase, hempty, hcap⟩ := (canTake_iff s).1 hguard
  have hrunning := not_aborted_of_canTake hguard
  have hlt := h.fillSeq_lt hempty
  have hpool := h.of_poolGrows (h.poolGrows_putFrame s.fillSeq s.fillCnt ⟨sanitizeValue l, sanitizeValue r⟩)
  have hphase' : (if s.phase = .idle then .run else s.phase) = Phase.run := by rcases hphase with h | h <;> simp [h]
  refine CoordInv.noteSample (CoordInv.noteSample ?_ _ _) _ _
  rw [hphase']
  exact { hpool with
    fillCntCap := hcap
    fillHasSlot := fun _ => hlt
    ownerHasBatch := fun _ => h.ownerHasBatch hrunning
    procCursor := fun _ => hpool.procCursor hrunning
    emitCursor := fun _ => hpool.emitCursor hrunning
    idleFresh := fun hp => nomatch hp
    doneEmpty := fun hp => nomatch hp }

theorem CoordInv.streamEnded (h : CoordInv s) (hguard : canTake s = true) :
    CoordInv (raiseEvent .endOfStream { s with eosSeen := true, phase := .drain }) := by
  have hrunning := not_aborted_of_canTake hguard
  exact { h with
    ownerHasBatch := fun _ => h.ownerHasBatch hrunning
    procCursor := fun _ => h.procCursor hrunning
    emitCursor := fun _ => h.emitCursor hrunning
    idleFresh := fun hp => nomatch hp
    doneEmpty := fun hp => nomatch hp }

/-- CLOSE_BATCH writes the slot at `fill_seq`, which is neither Compute's nor the Writer's. -/
theorem CoordInv.batchClosed (h : CoordInv s) (hguard : canClose s = true) : CoordInv (batchClosed s) := by
  obtain ⟨hlive, hcnt⟩ := (canClose_iff s).1 hguard
  obtain ⟨hidle, hdone, hrunning⟩ := live_phase hlive
  have hlt := h.fillHasSlot hcnt
  have hep := h.emitLeProc
  have hpf := h.procLeFill
  have hw := h.writesBatch s.fillSeq (v := { fillSlot s with nFrames := s.fillCnt, nGroups := 0, state := .filled })
    (Memory.read_wf _ _ h.poolWf)
  exact { h with
    poolWf := hw.wf
    poolRange := hw.range
    procLeFill := hpf.trans (Nat.le_succ _)
    fillInRing := hlt
    fillCntCap := Nat.zero_le _
    fillHasSlot := fun hpos => absurd hpos (lt_irrefl 0)
    filledSlots := fun n (h₁ : s.procSeq ≤ n) (h₂ : n < s.fillSeq + 1) => by
      rcases Nat.eq_or_lt_of_le (Nat.le_of_lt_succ h₂) with rfl | h₂
      · exact hw.state_same
      · exact (hw.state_other (by omega)).trans (h.filledSlots n h₁ h₂)
    processedSlots := fun n (h₁ : s.emitSeq < n) (h₂ : n < s.procSeq) =>
      (hw.state_other (by omega)).trans (h.processedSlots n h₁ h₂)
    emittingSlot := fun (h₁ : s.emitSeq < s.procSeq) =>
      have hst := hw.state_other (n := s.emitSeq) (by omega)
      (h.emittingSlot h₁).imp hst.trans hst.trans
    emptySlots := fun n (h₁ : s.fillSeq + 1 ≤ n) (h₂ : n < s.emitSeq + s.par.nSlots) =>
      (hw.state_other (by omega)).trans (h.emptySlots n (by omega) h₂)
    ownerHasBatch := fun _ k hk => (h.ownerHasBatch hrunning k hk).imp_right Nat.lt_succ_of_lt
    procCursor := fun _ howner =>
      have hbatch := h.owner_procSeq_lt hrunning howner
      (h.procCursor hrunning howner).trans (congrArg Slot.nFrames (hw.other s.procSeq (by omega))).ge
    emitCursor := fun _ (h₁ : s.emitSeq < s.procSeq) =>
      (h.emitCursor hrunning h₁).trans (congrArg (4 * Slot.nGroups ·) (hw.other s.emitSeq (by omega))).ge
    idleFresh := fun hp => absurd hp hidle
    doneEmpty := fun hp => absurd hp hdone }

/-- CLAIM finds the slot at `proc_seq` Filled, so there is a Batch for the owner. -/
theorem CoordInv.claimed (h : CoordInv s) {k : Nat} (hk : k < s.par.nCompute) (hguard : canClaim s = true) :
    CoordInv { s with dpOwner := some k, procIdx := 0 } := by
  obtain ⟨-, -, hfilled⟩ := (canClaim_iff s).1 hguard
  exact { h with
    ownerHasBatch := fun _ j hj => by
      cases hj
      exact ⟨hk, h.procSeq_lt hfilled⟩
    procCursor := fun _ _ => Nat.zero_le _ }

/-- The datapath only appends groups to the slot at `proc_seq`. -/
theorem CoordInv.datapath (h : CoordInv s) {m : Memory} (dp : Datapath) (r : OpResult)
    (hm : GroupsAppended (slotIndex s.par s.procSeq) s.slots m) : CoordInv { s with dp := dp, slots := m, ret := r } :=
  { h.of_poolGrows (h.poolGrows_append hm) with }

/-- PROCESS_FRAME counts a Frame the Batch has: its guard puts `proc_idx` below the count, which appending leaves alone. -/
theorem CoordInv.frameProcessed (h : CoordInv s) (hguard : canProcess s = true) {m : Memory} (dp : Datapath)
    (hm : GroupsAppended (slotIndex s.par s.procSeq) s.slots m) :
    CoordInv { s with dp := dp, slots := m, procIdx := s.procIdx + 1 } := by
  obtain ⟨-, -, hlt⟩ := (canProcess_iff s).1 hguard
  have hpool := h.poolGrows_append hm
  exact { h.of_poolGrows hpool with
    procCursor := fun _ _ => (Nat.succ_le_of_lt hlt).trans (hpool.nFrames _).ge }

/-- PROCESS_DONE writes the slot at `proc_seq`, and the Batch in it becomes the Writer's. -/
theorem CoordInv.batchProcessed (h : CoordInv s) (hguard : canDone s = true) : CoordInv (batchProcessed s) := by
  obtain ⟨hlive, howner, -⟩ := (canDone_iff s).1 hguard
  obtain ⟨-, -, hrunning⟩ := live_phase hlive
  have hlt := h.owner_procSeq_lt hrunning howner
  have hep := h.emitLeProc
  have hring := h.fillInRing
  have hw := h.writesBatch s.procSeq (v := { procSlot s with state := .processed }) (Memory.read_wf _ _ h.poolWf)
  exact { h with
    poolWf := hw.wf
    poolRange := hw.range
    emitLeProc := hep.trans (Nat.le_succ _)
    procLeFill := hlt
    filledSlots := fun n (h₁ : s.procSeq + 1 ≤ n) (h₂ : n < s.fillSeq) =>
      (hw.state_other (by omega)).trans (h.filledSlots n (by omega) h₂)
    processedSlots := fun n (h₁ : s.emitSeq < n) (h₂ : n < s.procSeq + 1) => by
      rcases Nat.eq_or_lt_of_le (Nat.le_of_lt_succ h₂) with rfl | h₂
      · exact hw.state_same
      · exact (hw.state_other (by omega)).trans (h.processedSlots n h₁ h₂)
    emittingSlot := fun _ => by
      rcases Nat.eq_or_lt_of_le hep with heq | h₁
      · exact .inl ((congrArg (slotStateAt (Machine.batchProcessed s)) heq).trans hw.state_same)
      · have hst := hw.state_other (n := s.emitSeq) (by omega)
        exact (h.emittingSlot h₁).imp hst.trans hst.trans
    emptySlots := fun n (h₁ : s.fillSeq ≤ n) (h₂ : n < s.emitSeq + s.par.nSlots) =>
      (hw.state_other (by omega)).trans (h.emptySlots n h₁ h₂)
    ownerHasBatch := fun _ _ hk => nomatch hk
    procCursor := fun _ howner => absurd rfl howner
    emitCursor := fun _ _ => by
      rcases Nat.eq_or_lt_of_le hep with heq | h₁
      · exact (h.emitStart heq).trans_le (Nat.zero_le _)
      · exact (h.emitCursor hrunning h₁).trans (congrArg (4 * Slot.nGroups ·) (hw.other s.emitSeq (by omega))).ge
    emitStart := fun (heq : s.emitSeq = s.procSeq + 1) => absurd heq (by omega) }

/-- POP_WORD delivers a word the Batch has. -/
theorem CoordInv.wordDelivered (h : CoordInv s) (hguard : canOffer s = true) (w : OutWord) :
    CoordInv (wordDelivered w s) := by
  obtain ⟨-, hprocessed, hlt⟩ := (canOffer_iff s).1 hguard
  have hbatch := h.emitSeq_lt (.inl hprocessed)
  exact { h with
    emitCursor := fun _ _ => hlt
    emitStart := fun heq => absurd heq hbatch.ne }

/-- OUTPUT_FAILURE frees the contents of the slots and keeps their states, which is all the order asks for in ABORTED. -/
theorem CoordInv.enterOutputFailure (h : CoordInv s) : CoordInv (enterOutputFailure s) := by
  have haborted : CoordInv { s with phase := .aborted } :=
    { h with
      ownerHasBatch := fun hp => absurd rfl hp
      procCursor := fun hp => absurd rfl hp
      emitCursor := fun hp => absurd rfl hp
      idleFresh := fun hp => nomatch hp
      doneEmpty := fun hp => nomatch hp }
  have hpool := haborted.of_pool (m := freeSlots s.par s.freeCount s.par.nSlots s.slots) (freeSlots_wf _ _ _ _ h.poolWf)
    (freeSlots_range _ _ _ _ _ h.poolRange le_rfl) (fun j => freeSlots_state _ _ _ j _ h.poolWf)
    (fun hp => absurd rfl hp) (fun hp => absurd rfl hp)
  exact { hpool with
    ownerHasBatch := fun hp => absurd rfl hp
    procCursor := fun hp => absurd rfl hp
    emitCursor := fun hp => absurd rfl hp }

/-- WRITE_DONE writes the slot at `emit_seq`, the one slot of the Writer's that may be Emitted. -/
theorem CoordInv.batchEmitted (h : CoordInv s) (hguard : canWriteDone s = true) : CoordInv (batchEmitted s) := by
  obtain ⟨hlive, hprocessed, -⟩ := (canWriteDone_iff s).1 hguard
  obtain ⟨-, -, hrunning⟩ := live_phase hlive
  have hlt := h.emitSeq_lt (.inl hprocessed)
  have hpf := h.procLeFill
  have hring := h.fillInRing
  have hw := h.writesBatch s.emitSeq (v := { emitSlot s with state := .emitted }) (Memory.read_wf _ _ h.poolWf)
  exact { h with
    poolWf := hw.wf
    poolRange := hw.range
    filledSlots := fun n (h₁ : s.procSeq ≤ n) (h₂ : n < s.fillSeq) =>
      (hw.state_other (by omega)).trans (h.filledSlots n h₁ h₂)
    processedSlots := fun n (h₁ : s.emitSeq < n) (h₂ : n < s.procSeq) =>
      (hw.state_other (by omega)).trans (h.processedSlots n h₁ h₂)
    emittingSlot := fun _ => .inr hw.state_same
    emptySlots := fun n (h₁ : s.fillSeq ≤ n) (h₂ : n < s.emitSeq + s.par.nSlots) =>
      (hw.state_other (by omega)).trans (h.emptySlots n h₁ h₂)
    procCursor := fun _ howner =>
      have hbatch := h.owner_procSeq_lt hrunning howner
      (h.procCursor hrunning howner).trans (congrArg Slot.nFrames (hw.other s.procSeq (by omega))).ge
    emitCursor := fun _ h₁ => (h.emitCursor hrunning h₁).trans (congrArg (4 * Slot.nGroups ·) hw.same).ge }

/-- RELEASE gives the slot at `emit_seq` back: one turn ahead it is the Reader's, and Empty. -/
theorem CoordInv.slotReleased (h : CoordInv s) (hguard : canRelease s = true) : CoordInv (slotReleased s) := by
  obtain ⟨hlive, hemitted⟩ := (canRelease_iff s).1 hguard
  obtain ⟨hidle, hdone, hrunning⟩ := live_phase hlive
  have hlt := h.emitSeq_lt (.inr hemitted)
  have hpf := h.procLeFill
  have hring := h.fillInRing
  have hw := h.writesBatch s.emitSeq (v := { emitSlot s with state := .empty }) (Memory.read_wf _ _ h.poolWf)
  exact { h with
    poolWf := hw.wf
    poolRange := hw.range
    emitLeProc := hlt
    fillInRing := (by omega : s.fillSeq ≤ s.emitSeq + 1 + s.par.nSlots)
    fillHasSlot := fun _ => (by omega : s.fillSeq < s.emitSeq + 1 + s.par.nSlots)
    filledSlots := fun n (h₁ : s.procSeq ≤ n) (h₂ : n < s.fillSeq) =>
      (hw.state_other (by omega)).trans (h.filledSlots n h₁ h₂)
    processedSlots := fun n (h₁ : s.emitSeq + 1 < n) (h₂ : n < s.procSeq) =>
      (hw.state_other (by omega)).trans (h.processedSlots n (by omega) h₂)
    emittingSlot := fun (h₁ : s.emitSeq + 1 < s.procSeq) =>
      .inl ((hw.state_other (n := s.emitSeq + 1) (by omega)).trans (h.processedSlots (s.emitSeq + 1) (Nat.lt_succ_self _) h₁))
    emptySlots := fun n (h₁ : s.fillSeq ≤ n) (h₂ : n < s.emitSeq + 1 + s.par.nSlots) => by
      rcases Nat.lt_or_ge n (s.emitSeq + s.par.nSlots) with hin | hout
      · exact (hw.state_other (by omega)).trans (h.emptySlots n h₁ hin)
      · obtain rfl : n = s.emitSeq + s.par.nSlots := by omega
        exact (congrArg (fun j => ((Machine.slotReleased s).slots.read j).state) (slotIndex_add_nSlots s.par s.emitSeq)).trans
          hw.state_same
    procCursor := fun _ howner =>
      have hbatch := h.owner_procSeq_lt hrunning howner
      (h.procCursor hrunning howner).trans (congrArg Slot.nFrames (hw.other s.procSeq (by omega))).ge
    emitCursor := fun _ _ => Nat.zero_le _
    emitStart := fun _ => rfl
    idleFresh := fun hp => absurd hp hidle
    doneEmpty := fun hp => absurd hp hdone }

/-- FINISH asks for what the order asks for in DONE. -/
theorem CoordInv.finished (h : CoordInv s) (hguard : canFinish s = true) : CoordInv { s with phase := .done } := by
  obtain ⟨hdrain, hcnt, hseq⟩ := (canFinish_iff s).1 hguard
  have hrunning : s.phase ≠ .aborted := by simp [hdrain]
  exact { h with
    ownerHasBatch := fun _ => h.ownerHasBatch hrunning
    procCursor := fun _ => h.procCursor hrunning
    emitCursor := fun _ => h.emitCursor hrunning
    idleFresh := fun hp => nomatch hp
    doneEmpty := fun _ => ⟨hcnt, hseq⟩ }

end Operations

/-! ### Every operation and every step keeps the order -/

theorem Effect.coordInv {s t : State} {i : Instr} (he : Effect s i t) (h : CoordInv s) : CoordInv t := by
  cases he with
  | waits _ => exact h
  | reset => exact coordInv_resetOf h.params _ _
  | loaded _ _ => exact { h with }
  | fellBack _ _ => exact { h with }
  | csrRead => exact { h with }
  | framePushed hguard => exact h.framePushed hguard _ _
  | streamEnded hguard => exact h.streamEnded hguard
  | sanitized _ => exact { h.noteSample none _ with }
  | batchClosed hguard => exact h.batchClosed hguard
  | datapath dp m r _ _ hm => exact h.datapath dp r hm
  | claimed hk hguard => exact h.claimed hk hguard
  | frameProcessed dp m hguard _ hm => exact h.frameProcessed hguard dp hm
  | batchProcessed hguard => exact h.batchProcessed hguard
  | wordDelivered w hguard _ => exact h.wordDelivered hguard w
  | popFailed _ =>
    have hraised : CoordInv (raiseEvent (.outputFailure s.emitSeq s.emitIdx) s) := { h with }
    exact hraised.enterOutputFailure
  | aborted _ => exact h.enterOutputFailure
  | batchEmitted hguard => exact h.batchEmitted hguard
  | slotReleased hguard => exact h.slotReleased hguard
  | finished hguard => exact h.finished hguard

/-- Settles O42, operation by operation: each writes at most the slot of the one Batch it hands over, and its guard says that
the Batch is at the stage it is handed over from. -/
theorem coordInvKept : Obligations.CoordInvKept := by
  intro s t h hstep
  exact step_keeps CoordInv (fun _ _ h => { h with }) (fun _ _ _ h he => he.coordInv h) h hstep

end Sys2Proof.Machine

/-! ## 10_state.md: reset values, flags, counters, slots and the configuration -/

namespace Sys2Proof.Machine

/-! ### Slots name their Batch's stage (R56 (5)) -/

/-- Settles O43: each slot index is met once in a turn of the ring, and the three stages part the turn at `proc_seq` and
`fill_seq`. -/
theorem slotStateNamesItsStage : Obligations.SlotStateNamesItsStage := by
  intro s j h hj
  obtain ⟨n, hn, rfl⟩ : ∃ n ∈ Finset.Ico s.emitSeq (s.emitSeq + s.par.nSlots), n % s.par.nSlots = j := by
    rw [← Finset.mem_range, ← Nat.image_Ico_mod s.emitSeq s.par.nSlots] at hj
    exact Finset.mem_image.1 hj
  obtain ⟨hlo, hhi⟩ := Finset.mem_Ico.1 hn
  have hunique : ∀ m, s.emitSeq ≤ m → m < s.emitSeq + s.par.nSlots → m % s.par.nSlots = n % s.par.nSlots → m = n := by
    intro m hmlo hmhi hm
    rcases Nat.lt_trichotomy m n with hlt | heq | hgt
    · exact absurd hm.symm (slotIndex_ne (p := s.par) (by omega))
    · exact heq
    · exact absurd hm (slotIndex_ne (p := s.par) (by omega))
  exact ⟨n, hlo, hhi, rfl, hunique, h.filled_iff hlo hhi, h.processed_or_emitted_iff hlo hhi, h.empty_iff hlo hhi⟩

/-! ### The configuration outside IDLE (R47) -/

theorem canLoad_iff (s : State) : canLoad s = true ↔ s.phase = .idle := beq_iff_eq

theorem Effect.cfg_eq {s t : State} {i : Instr} (he : Effect s i t) (hphase : s.phase ≠ .idle) (hi : i ≠ .reset) :
    t.cfg = s.cfg := by
  cases he with
  | reset => exact absurd rfl hi
  | loaded hguard _ => exact absurd ((canLoad_iff s).1 hguard) hphase
  | fellBack hguard _ => exact absurd ((canLoad_iff s).1 hguard) hphase
  | framePushed _ => simp [Machine.framePushed]
  | sanitized _ => exact noteSample_cfg ..
  | _ => rfl

theorem Effect.phase_ne_idle {s t : State} {i : Instr} (he : Effect s i t) (hphase : s.phase ≠ .idle) (hi : i ≠ .reset) :
    t.phase ≠ .idle := by
  cases he with
  | reset => exact absurd rfl hi
  | framePushed _ => simp [Machine.framePushed, hphase]
  | sanitized _ => exact (noteSample_phase none _ s).trans_ne hphase
  | streamEnded _ => exact fun h => nomatch h
  | popFailed _ => exact fun h => nomatch h
  | aborted _ => exact fun h => nomatch h
  | finished _ => exact fun h => nomatch h
  | _ => exact hphase

/-- Settles O44: LOAD_CFG alone writes the configuration, and its guard asks for IDLE. -/
theorem configLocked : Obligations.ConfigLocked := by
  intro s t i hphase hi hx
  have hclosed : canLoad s = false := Bool.eq_false_iff.2 (mt (canLoad_iff s).1 hphase)
  exact ⟨(exec_effect hx).cfg_eq hphase hi, (exec_effect hx).phase_ne_idle hphase hi, by simp [cfgReady, hclosed]⟩

/-! ### The configuration stays legal (R40, R48) -/

/-- The legality of the registers, register by register. -/
theorem cfgLegal_iff (f : AccFmt) (c : CfgRegs) :
    c.legal f = true ↔
      (Acc.fits f c.gain = true ∧ legalGain f c.gain = true) ∧ (Acc.fits f c.c1 = true ∧ legalCoef f c.c1 = true) ∧
      (Acc.fits f c.c2 = true ∧ legalCoef f c.c2 = true) ∧ (Acc.fits f c.c3 = true ∧ legalCoef f c.c3 = true) ∧
      (Acc.fits f c.c4 = true ∧ legalCoef f c.c4 = true) ∧ (Acc.fits f c.limit = true ∧ legalLimit f c.limit = true) ∧
      legalPolicy (c.policy.setWidth 64) = true ∧ policyBits (c.policy.setWidth 64) = c.policy := by
  simp only [CfgRegs.legal, CfgRegs.fits, Bool.and_eq_true, beq_iff_eq]
  tauto

theorem fits_dataBits (f : AccFmt) (d : BitVec 64) : Acc.fits f (dataBits f d) = true := by
  have hmod : d.toNat % 2 ^ f.width < 2 ^ f.width := Nat.mod_lt _ (by positivity)
  have hle : d.toNat % 2 ^ f.width < 2 ^ 64 := (Nat.mod_le _ _).trans_lt d.isLt
  rw [Acc.fits, dataBits, BitVec.toNat_ofNat, Nat.mod_eq_of_lt hle]
  exact decide_eq_true hmod

/-- POLICY keeps the two fields of the data it is made of (R45). -/
theorem policyBits_fields (d : BitVec 64) :
    ((policyBits d).setWidth 64).extractLsb' 0 2 = d.extractLsb' 0 2 ∧
      ((policyBits d).setWidth 64).extractLsb' 8 8 = d.extractLsb' 8 8 := by
  constructor <;> ext j hj <;>
    rw [BitVec.getElem_extractLsb', BitVec.getElem_extractLsb', BitVec.getLsbD_setWidth, policyBits, BitVec.getLsbD_append]
  · rw [if_pos (by omega)]
    simp [hj, show j < 64 by omega]
  · rw [if_neg (by omega), BitVec.getLsbD_append, if_neg (by omega), BitVec.getLsbD_append, if_pos (by omega)]
    have hpos : 8 + j - 2 - 6 = j := by omega
    simp [hpos, hj, show 8 + j < 64 by omega]

theorem legalPolicy_policyBits (d : BitVec 64) : legalPolicy ((policyBits d).setWidth 64) = legalPolicy d := by
  obtain ⟨hlow, hhigh⟩ := policyBits_fields d
  simp only [legalPolicy, hlow, hhigh]

theorem policyBits_policyBits (d : BitVec 64) : policyBits ((policyBits d).setWidth 64) = policyBits d := by
  obtain ⟨hlow, hhigh⟩ := policyBits_fields d
  rw [policyBits, hlow, hhigh, policyBits]

/-- The canonical preset is legal in both formats (40_modulator.md R143). -/
theorem cfgReset_legal (f : AccFmt) : (CfgRegs.reset f).legal f = true := by cases f <;> decide +kernel

/-- Writing legal data to a register of a legal configuration leaves it legal. -/
theorem cfgStore_legal {f : AccFmt} {idx : BitVec 4} {v : Acc} {c : CfgRegs} (hc : c.legal f = true)
    (hfits : Acc.fits f v = true) (hv : cfgLegalAt f idx v = true) : (cfgStore idx v c).legal f = true := by
  rw [cfgLegal_iff] at hc ⊢
  obtain ⟨hg, h1, h2, h3, h4, hl, hp⟩ := hc
  unfold cfgStore
  unfold cfgLegalAt at hv
  generalize idx.toNat = k at hv ⊢
  match k with
  | 0 => exact ⟨⟨hfits, hv⟩, h1, h2, h3, h4, hl, hp⟩
  | 1 => exact ⟨hg, ⟨hfits, hv⟩, h2, h3, h4, hl, hp⟩
  | 2 => exact ⟨hg, h1, ⟨hfits, hv⟩, h3, h4, hl, hp⟩
  | 3 => exact ⟨hg, h1, h2, ⟨hfits, hv⟩, h4, hl, hp⟩
  | 4 => exact ⟨hg, h1, h2, h3, ⟨hfits, hv⟩, hl, hp⟩
  | 5 => exact ⟨hg, h1, h2, h3, h4, ⟨hfits, hv⟩, hp⟩
  | 6 => exact ⟨hg, h1, h2, h3, h4, hl, (legalPolicy_policyBits v).trans hv, policyBits_policyBits v⟩
  | _ + 7 => exact ⟨hg, h1, h2, h3, h4, hl, hp⟩

/-- A register's reset value is one of the canonical preset's, so falling back to it leaves the configuration legal. -/
theorem cfgFallbackAt_legal {f : AccFmt} (idx : BitVec 4) {c : CfgRegs} (hc : c.legal f = true) :
    (cfgFallbackAt f idx c).legal f = true := by
  have hreset := (cfgLegal_iff f _).1 (cfgReset_legal f)
  rw [cfgLegal_iff] at hc ⊢
  obtain ⟨hg, h1, h2, h3, h4, hl, hp⟩ := hc
  obtain ⟨rg, r1, r2, r3, r4, rl, rp⟩ := hreset
  unfold cfgFallbackAt
  generalize idx.toNat = k
  match k with
  | 0 => exact ⟨rg, h1, h2, h3, h4, hl, hp⟩
  | 1 => exact ⟨hg, r1, h2, h3, h4, hl, hp⟩
  | 2 => exact ⟨hg, h1, r2, h3, h4, hl, hp⟩
  | 3 => exact ⟨hg, h1, h2, r3, h4, hl, hp⟩
  | 4 => exact ⟨hg, h1, h2, h3, r4, hl, hp⟩
  | 5 => exact ⟨hg, h1, h2, h3, h4, rl, hp⟩
  | 6 => exact ⟨hg, h1, h2, h3, h4, hl, rp⟩
  | _ + 7 => exact ⟨hg, h1, h2, h3, h4, hl, hp⟩

theorem Effect.par_eq {s t : State} {i : Instr} (he : Effect s i t) : t.par = s.par := by
  cases he with
  | framePushed _ => simp [Machine.framePushed]
  | sanitized _ => exact noteSample_par ..
  | _ => rfl

theorem Effect.cfg_legal {s t : State} {i : Instr} (he : Effect s i t) (hc : s.cfg.legal s.par.accFmt = true) :
    t.cfg.legal s.par.accFmt = true := by
  cases he with
  | reset => exact cfgReset_legal _
  | loaded _ hlegal => exact cfgStore_legal hc (fits_dataBits _ _) hlegal
  | fellBack _ _ => exact cfgFallbackAt_legal _ hc
  | framePushed _ => simpa [Machine.framePushed] using hc
  | sanitized _ => exact (congrArg (CfgRegs.legal s.par.accFmt) (noteSample_cfg ..)).trans hc
  | _ => exact hc

/-- Settles O45: a write stores legal data or a value of the canonical preset. -/
theorem configStaysLegal : Obligations.ConfigStaysLegal := by
  intro s t hc hstep
  refine step_keeps (fun u => u.par = s.par ∧ u.cfg.legal u.par.accFmt = true) (fun _ _ h => h) ?_ ⟨rfl, hc⟩ hstep
  rintro u i v ⟨hpar, hlegal⟩ he
  rw [he.par_eq]
  exact ⟨hpar, he.cfg_legal hlegal⟩

/-! ### The status flags (R35) -/

/-- A flag that goes from `b` to `b'` keeps its value, or is set by the operation named. -/
def FlagMoves (named : Prop) (b b' : Bool) : Prop := b' = b ∨ (named ∧ b' = true)

theorem FlagMoves.sticky {named : Prop} {b b' : Bool} (h : FlagMoves named b b') (hb : b = true) : b' = true :=
  h.elim (fun heq => heq.trans hb) And.right

theorem FlagMoves.named_of_ne {named : Prop} {b b' : Bool} (h : FlagMoves named b b') (hne : b' ≠ b) : named :=
  (h.resolve_left hne).1

theorem FlagMoves.of_or {named : Prop} (hn : named) (b x : Bool) : FlagMoves named b (b || x) := by
  cases x with
  | false => exact .inl (Bool.or_false b)
  | true => exact .inr ⟨hn, Bool.or_true b⟩

section Flags

variable {s t : State} {i : Instr}

theorem Effect.eosSeen_moves (he : Effect s i t) (hi : i ≠ .reset) : FlagMoves (i = .endStream) s.eosSeen t.eosSeen := by
  cases he with
  | reset => exact absurd rfl hi
  | streamEnded _ => exact .inr ⟨rfl, rfl⟩
  | framePushed _ => exact .inl (by simp [Machine.framePushed])
  | sanitized _ => exact .inl (noteSample_eosSeen ..)
  | _ => exact .inl rfl

theorem Effect.outFailed_moves (he : Effect s i t) (hi : i ≠ .reset) :
    FlagMoves (i = .popFail ∨ i = .abort) s.outFailed t.outFailed := by
  cases he with
  | reset => exact absurd rfl hi
  | popFailed _ => exact .inr ⟨.inl rfl, rfl⟩
  | aborted _ => exact .inr ⟨.inr rfl, rfl⟩
  | framePushed _ => exact .inl (by simp [Machine.framePushed])
  | sanitized _ => exact .inl (noteSample_outFailed ..)
  | _ => exact .inl rfl

theorem Effect.nonfiniteSeen_moves (he : Effect s i t) (hi : i ≠ .reset) :
    FlagMoves ((∃ l r, i = .pushFrame l r) ∨ ∃ x, i = .sanitize x) s.nonfiniteSeen t.nonfiniteSeen := by
  cases he with
  | reset => exact absurd rfl hi
  | @framePushed l r _ =>
    have hflag : (Machine.framePushed l r s).nonfiniteSeen = (s.nonfiniteSeen || (!isFinite32 l || !isFinite32 r)) := by
      simp [Machine.framePushed, Bool.or_assoc]
    rw [hflag]
    exact .of_or (.inl ⟨l, r, rfl⟩) _ _
  | @sanitized x _ =>
    have hflag := noteSample_nonfiniteSeen none x s
    exact hflag ▸ .of_or (.inr ⟨x, rfl⟩) _ _
  | _ => exact .inl rfl

theorem Effect.cfgFallback_moves (he : Effect s i t) (hi : i ≠ .reset) :
    FlagMoves (∃ idx data, i = .loadCfg idx data) s.cfgFallback t.cfgFallback := by
  cases he with
  | reset => exact absurd rfl hi
  | fellBack _ _ => exact .inr ⟨⟨_, _, rfl⟩, rfl⟩
  | framePushed _ => exact .inl (by simp [Machine.framePushed])
  | sanitized _ => exact .inl (noteSample_cfgFallback ..)
  | _ => exact .inl rfl

theorem Effect.haveCur_moves (he : Effect s i t) (hi : i ≠ .reset) :
    FlagMoves (i = .processFrame) s.dp.haveCur t.dp.haveCur := by
  cases he with
  | reset => exact absurd rfl hi
  | datapath _ _ _ _ hcur _ => exact .inl hcur
  | frameProcessed _ _ _ hcur _ => exact .inr ⟨rfl, hcur⟩
  | framePushed _ => exact .inl (by simp [Machine.framePushed])
  | sanitized _ => exact .inl (congrArg Datapath.haveCur (noteSample_dp ..))
  | _ => exact .inl rfl

end Flags

/-- Settles O47, flag by flag. -/
theorem flagsAreSticky : Obligations.FlagsAreSticky := by
  intro s t i hx hi
  have he := exec_effect hx
  have heos := he.eosSeen_moves hi
  have hout := he.outFailed_moves hi
  have hnonfinite := he.nonfiniteSeen_moves hi
  have hfallback := he.cfgFallback_moves hi
  have hcur := he.haveCur_moves hi
  exact ⟨heos.sticky, hout.sticky, hnonfinite.sticky, hfallback.sticky, hcur.sticky,
    heos.named_of_ne, hout.named_of_ne, hnonfinite.named_of_ne, hfallback.named_of_ne, hcur.named_of_ne⟩

/-! ### The counters (R33, R38) -/

section Counters

variable {s t : State} {i : Instr}

theorem Effect.fillSeq_rises (he : Effect s i t) (hi : i ≠ .reset) :
    t.fillSeq = s.fillSeq ∨ (i = .closeBatch ∧ t.fillSeq = s.fillSeq + 1) := by
  cases he with
  | reset => exact absurd rfl hi
  | batchClosed _ => exact .inr ⟨rfl, rfl⟩
  | framePushed _ => exact .inl (by simp [Machine.framePushed])
  | sanitized _ => exact .inl (noteSample_fillSeq ..)
  | _ => exact .inl rfl

theorem Effect.procSeq_rises (he : Effect s i t) (hi : i ≠ .reset) :
    t.procSeq = s.procSeq ∨ (i = .processDone ∧ t.procSeq = s.procSeq + 1) := by
  cases he with
  | reset => exact absurd rfl hi
  | batchProcessed _ => exact .inr ⟨rfl, rfl⟩
  | framePushed _ => exact .inl (by simp [Machine.framePushed])
  | sanitized _ => exact .inl (noteSample_procSeq ..)
  | _ => exact .inl rfl

theorem Effect.emitSeq_rises (he : Effect s i t) (hi : i ≠ .reset) :
    t.emitSeq = s.emitSeq ∨ (i = .release ∧ t.emitSeq = s.emitSeq + 1) := by
  cases he with
  | reset => exact absurd rfl hi
  | slotReleased _ => exact .inr ⟨rfl, rfl⟩
  | framePushed _ => exact .inl (by simp [Machine.framePushed])
  | sanitized _ => exact .inl (noteSample_emitSeq ..)
  | _ => exact .inl rfl

theorem Effect.inStream_rises (he : Effect s i t) (hi : i ≠ .reset) :
    (t.nFramesIn = s.nFramesIn ∧ t.inStream = s.inStream) ∨
      ∃ l r, i = .pushFrame l r ∧ t.nFramesIn = s.nFramesIn + 1 ∧ t.inStream = s.inStream ++ [⟨l, r⟩] := by
  cases he with
  | reset => exact absurd rfl hi
  | @framePushed l r _ => exact .inr ⟨l, r, rfl, by simp [Machine.framePushed], by simp [Machine.framePushed]⟩
  | sanitized _ => exact .inl ⟨noteSample_nFramesIn .., noteSample_inStream ..⟩
  | _ => exact .inl ⟨rfl, rfl⟩

theorem Effect.outStream_rises (he : Effect s i t) (hi : i ≠ .reset) :
    (t.nWordsOut = s.nWordsOut ∧ t.outStream = s.outStream) ∨
      ∃ w, i = .popWord ∧ t.nWordsOut = s.nWordsOut + 1 ∧ t.outStream = s.outStream ++ [w] := by
  cases he with
  | reset => exact absurd rfl hi
  | wordDelivered w _ _ => exact .inr ⟨w, rfl, rfl, rfl⟩
  | framePushed _ => exact .inl (by simp [Machine.framePushed])
  | sanitized _ => exact .inl ⟨noteSample_nWordsOut .., noteSample_outStream ..⟩
  | _ => exact .inl ⟨rfl, rfl⟩

end Counters

/-- Settles O48, counter by counter. -/
theorem countersRiseByOne : Obligations.CountersRiseByOne := by
  intro s t i hx hi
  have he := exec_effect hx
  exact ⟨he.fillSeq_rises hi, he.procSeq_rises hi, he.emitSeq_rises hi, he.inStream_rises hi, he.outStream_rises hi⟩

/-! ### The reset state (R55) -/

/-- The canonical preset's values, in units of the format (R40 to R44). -/
theorem preset_values (f : AccFmt) :
    2 * valueOf f (presetHalf f) = 2 ^ unitScale f ∧ 4 * valueOf f (presetQuarter f) = 2 ^ unitScale f ∧
      8 * valueOf f (presetEighth f) = 2 ^ unitScale f ∧ 16 * valueOf f (presetSixteenth f) = 2 ^ unitScale f ∧
      valueOf f (presetLimit f) = 128 * 2 ^ unitScale f := by
  cases f <;> decide +kernel

/-- Settles O1: the values of the preset are computed in both formats, and every other register is written out. -/
theorem resetValues : Obligations.ResetValues := by
  intro p
  obtain ⟨hhalf, hquarter, heighth, hsixteenth, hlimit⟩ := preset_values p.accFmt
  have hlane : ∀ ch, (State.resetOf p).dp.lane ch = Lane.reset p.qReset := fun ch => by cases ch <;> rfl
  refine ⟨fun ch => ?lane, rfl, rfl, rfl, rfl, hhalf, hhalf, hquarter, heighth, hsixteenth, hlimit, rfl, rfl, rfl, rfl,
    rfl, rfl, fun _ => ⟨rfl, rfl, rfl⟩, rfl, rfl, rfl, rfl, rfl, rfl, rfl, rfl, rfl⟩
  case lane =>
    rw [hlane]
    exact ⟨rfl, rfl, rfl, rfl⟩

/-- A channel after RESET is bounded by the reset LIMIT, and both its samples are finite. -/
theorem laneReset_ready (f : AccFmt) (q : Quant) :
    (Lane.reset q).bounded f (presetLimit f) = true ∧ (Lane.reset q).samplesFinite = true := by
  cases f <;> cases q <;> decide +kernel

/-- Settles O41: the order of the empty pool, and the legality and the bounds of the preset and of a cleared channel. -/
theorem invariantsAtReset : Obligations.InvariantsAtReset := by
  intro p hp
  obtain ⟨hbounded, hfinite⟩ := laneReset_ready p.accFmt p.qReset
  have hlegal : (State.resetOf p).cfg.legal p.accFmt = true := cfgReset_legal p.accFmt
  refine ⟨coordInv_resetOf hp [] 0, hlegal, ?_⟩
  simp only [datapathReady, Bool.and_eq_true]
  exact ⟨⟨⟨⟨hlegal, hbounded⟩, hbounded⟩, hfinite⟩, hfinite⟩

end Sys2Proof.Machine

/-! ## 10_state.md R21: each channel on its own -/

namespace Sys2Proof.Machine

/-- The two words of a group that carry a channel's bits, in half order (30_encoding.md R98). -/
def channelWords (g : WordGroup) : Channel → OutWord × OutWord
  | .left => (g.w0, g.w2)
  | .right => (g.w1, g.w3)

/-- Two datapaths that look the same from channel `ch`: its registers and words, and what both channels share. -/
structure SameChannel (ch : Channel) (d d' : Datapath) : Prop where
  lane : d.lane ch = d'.lane ch
  words : channelWords d.wg ch = channelWords d'.wg ch
  i : d.i = d'.i
  inTransition : d.inTransition = d'.inTransition

/-- Two states that look the same from channel `ch`. -/
structure SameForChannel (ch : Channel) (s s' : State) : Prop where
  par : s.par = s'.par
  cfg : s.cfg = s'.cfg
  dp : SameChannel ch s.dp s'.dp

/-- INTERP of a channel reads nothing but what that channel sees. -/
theorem interpLane_of_sameChannel {ch : Channel} {d d' : Datapath} (f : AccFmt) (h : SameChannel ch d d') :
    interpLane f d ch = interpLane f d' ch := by
  simp only [interpLane, h.lane, h.i, h.inTransition]

/-- CLOSE_HALF puts a channel's shift register into that channel's word of the half. -/
theorem channelWords_closeHalfDp (d : Datapath) (ch : Channel) :
    channelWords (closeHalfDp d).wg ch =
      if halfOf d.i then ((channelWords d.wg ch).1, (d.lane ch).sh)
      else ((d.lane ch).sh, (channelWords d.wg ch).2) := by
  unfold closeHalfDp
  split <;> cases ch <;> rfl

theorem closeHalfDp_lane (d : Datapath) (ch : Channel) : (closeHalfDp d).lane ch = d.lane ch := by
  cases ch
  · exact closeHalfDp_left d
  · exact closeHalfDp_right d

theorem closeHalfDp_sameChannel {ch : Channel} {d d' : Datapath} (h : SameChannel ch d d') :
    SameChannel ch (closeHalfDp d) (closeHalfDp d') where
  lane := by rw [closeHalfDp_lane, closeHalfDp_lane, h.lane]
  words := by rw [channelWords_closeHalfDp, channelWords_closeHalfDp, h.lane, h.words, h.i]
  i := by rw [closeHalfDp_i, closeHalfDp_i, h.i]
  inTransition := by rw [closeHalfDp_inTransition, closeHalfDp_inTransition, h.inTransition]

/-- STEP as one channel sees it: that channel is interpolated, modulated and packed, then the half is closed or not. -/
theorem stepDatapath_lane {f : AccFmt} {cfg : CfgRegs} {d e : Datapath} (h : stepDatapath f cfg d = .ok e) (ch : Channel) :
    ∃ x l b packed, interpLane f d ch = .ok x ∧ modulateLane f cfg (d.lane ch) x = .ok (l, b) ∧
      packed.lane ch = packLane l b ∧ packed.wg = d.wg ∧ packed.i = d.i ∧ packed.inTransition = d.inTransition ∧
      e = if posOf d.i = 31 then closeHalfDp packed else packed := by
  obtain ⟨xL, xR, l, bL, r, bR, hxL, hxR, hl, hr, he⟩ := stepDatapath_cases h
  cases ch with
  | left => exact ⟨xL, l, bL, { d with left := packLane l bL, right := packLane r bR }, hxL, hl, rfl, rfl, rfl, rfl, he⟩
  | right => exact ⟨xR, r, bR, { d with left := packLane l bL, right := packLane r bR }, hxR, hr, rfl, rfl, rfl, rfl, he⟩

theorem stepDatapath_sameChannel {f : AccFmt} {cfg : CfgRegs} {ch : Channel} {d d' e e' : Datapath} (h : SameChannel ch d d')
    (he : stepDatapath f cfg d = .ok e) (he' : stepDatapath f cfg d' = .ok e') : SameChannel ch e e' := by
  obtain ⟨x, l, b, packed, hx, hl, hlane, hwg, hi, htr, rfl⟩ := stepDatapath_lane he ch
  obtain ⟨x', l', b', packed', hx', hl', hlane', hwg', hi', htr', rfl⟩ := stepDatapath_lane he' ch
  rw [← interpLane_of_sameChannel f h, hx] at hx'
  cases hx'
  rw [← h.lane, hl] at hl'
  cases hl'
  have hpacked : SameChannel ch packed packed' :=
    ⟨hlane.trans hlane'.symm, by rw [hwg, hwg', h.words], by rw [hi, hi', h.i], by rw [htr, htr', h.inTransition]⟩
  rw [h.i]
  split
  · exact closeHalfDp_sameChannel hpacked
  · exact hpacked

theorem stepOp_dp {s t : State} (h : stepOp s = .ok t) :
    ∃ d, stepDatapath s.par.accFmt s.cfg s.dp = .ok d ∧ t.dp = advanceStep d ∧ t.par = s.par ∧ t.cfg = s.cfg := by
  obtain ⟨d, hd, ⟨-, rfl⟩ | ⟨-, -, rfl⟩⟩ := stepOp_cases h <;> exact ⟨d, hd, rfl, rfl, rfl⟩

/-- STEP on the state keeps two states alike for a channel; the slot it may append to is no register of either channel. -/
theorem stepOp_sameForChannel {ch : Channel} {s s' t t' : State} (h : SameForChannel ch s s') (ht : stepOp s = .ok t)
    (ht' : stepOp s' = .ok t') : SameForChannel ch t t' := by
  obtain ⟨d, hd, hdp, hpar, hcfg⟩ := stepOp_dp ht
  obtain ⟨d', hd', hdp', hpar', hcfg'⟩ := stepOp_dp ht'
  rw [← h.par, ← h.cfg] at hd'
  have hsame := stepDatapath_sameChannel h.dp hd hd'
  refine ⟨by rw [hpar, hpar', h.par], by rw [hcfg, hcfg', h.cfg], ?_⟩
  rw [hdp, hdp']
  exact ⟨by cases ch <;> exact hsame.lane, hsame.words, congrArg (· + 1) hsame.i, hsame.inTransition⟩

/-- A relation that one turn keeps, any number of turns keeps. -/
theorem repeatOp_related {α : Type} {op : α → Except Fault α} (R : α → α → Prop)
    (hstep : ∀ a a' b b', R a a' → op a = .ok b → op a' = .ok b' → R b b') :
    ∀ (n : Nat) (a a' b b' : α), R a a' → repeatOp op n a = .ok b → repeatOp op n a' = .ok b' → R b b'
  | 0, a, a', b, b', h, hb, hb' => by
    cases hb
    cases hb'
    exact h
  | n + 1, a, a', b, b', h, hb, hb' => by
    unfold repeatOp at hb hb'
    split at hb
    · next c hc =>
      split at hb'
      · next c' hc' => exact repeatOp_related R hstep n c c' b b' (hstep a a' c c' h hc hc') hb hb'
      · cases hb'
    · cases hb

theorem takeFrame_sameChannel {ch : Channel} {d d' : Datapath} (h : SameChannel ch d d') :
    SameChannel ch (takeFrame d) (takeFrame d') := by
  have htake : ∀ e : Datapath, (takeFrame e).lane ch = { e.lane ch with cur := (e.lane ch).nxt } := fun e => by cases ch <;> rfl
  exact ⟨by rw [htake, htake, h.lane], h.words, h.i, rfl⟩

theorem transitionOp_sameForChannel {ch : Channel} {s s' t t' : State} (h : SameForChannel ch s s')
    (ht : transitionOp s = .ok t) (ht' : transitionOp s' = .ok t') : SameForChannel ch t t' := by
  obtain ⟨u, hu, rfl⟩ := transitionOp_cases ht
  obtain ⟨u', hu', rfl⟩ := transitionOp_cases ht'
  have hsteps := repeatOp_related (SameForChannel ch) (fun _ _ _ _ => stepOp_sameForChannel) 64 s s' u u' h hu hu'
  exact ⟨hsteps.par, hsteps.cfg, takeFrame_sameChannel hsteps.dp⟩

theorem exec_sameForChannel {ch : Channel} {i : Instr} (hi : i = .step ∨ i = .transition) {s s' t t' : State}
    (h : SameForChannel ch s s') (ht : exec i s = .next t) (ht' : exec i s' = .next t') : SameForChannel ch t t' := by
  obtain rfl | rfl := hi
  · exact stepOp_sameForChannel h (ofExcept_next.1 ht) (ofExcept_next.1 ht')
  · exact transitionOp_sameForChannel h (ofExcept_next.1 ht) (ofExcept_next.1 ht')

/-- Settles O51: states that look the same from one channel keep looking the same from it, and exchanging the other channel's
registers is not seen. -/
theorem channelsAreIndependent : Obligations.ChannelsAreIndependent := by
  intro s t t' other i hi ht
  have hsees : ∀ ch u, exec i u = .next t' → SameForChannel ch u s → SameChannel ch t'.dp t.dp :=
    fun _ _ ht' hstart => (exec_sameForChannel hi hstart ht' ht).dp
  refine ⟨fun ht' => ?left, fun ht' => ?right⟩
  case left =>
    obtain ⟨hlane, hwords, -, -⟩ := hsees .left _ ht' ⟨rfl, rfl, rfl, rfl, rfl, rfl⟩
    exact ⟨hlane, Prod.mk.inj hwords⟩
  case right =>
    obtain ⟨hlane, hwords, -, -⟩ := hsees .right _ ht' ⟨rfl, rfl, rfl, rfl, rfl, rfl⟩
    exact ⟨hlane, Prod.mk.inj hwords⟩

end Sys2Proof.Machine

/-! ## 20_memory.md R64, R67: the byte-stream adapter in front of the input port -/

namespace Sys2Proof.Machine

/-! ### Bytes and samples -/

/-- The four bytes of a sample, the most significant one first, are the sample. -/
theorem extractLsb'_append_bytes (x : Sample) :
    x.extractLsb' 24 8 ++ x.extractLsb' 16 8 ++ x.extractLsb' 8 8 ++ x.extractLsb' 0 8 = x := by
  rw [BitVec.extractLsb'_append_extractLsb'_eq_extractLsb' (show 24 = 16 + 8 from rfl),
    BitVec.extractLsb'_append_extractLsb'_eq_extractLsb' (show 16 = 8 + 8 from rfl),
    BitVec.extractLsb'_append_extractLsb'_eq_extractLsb' (show 8 = 0 + 8 from rfl), BitVec.extractLsb'_eq_self]

/-- In either byte order a sample is sent as four bytes, and reading these back gives the sample. -/
theorem exists_bytesOfSample (o : ByteOrder) (x : Sample) :
    ∃ b0 b1 b2 b3, bytesOfSample o x = [b0, b1, b2, b3] ∧ sampleOfBytes o b0 b1 b2 b3 = x := by
  cases o <;> exact ⟨_, _, _, _, rfl, extractLsb'_append_bytes x⟩

/-! ### The Frames of a byte stream -/

theorem framesOfBytes_frame_append (p : Params) (x : Frame) (rest : List Byte) :
    framesOfBytes p (bytesOfSample p.inByteOrder x.left ++ bytesOfSample p.inByteOrder x.right ++ rest) =
      x :: framesOfBytes p rest := by
  obtain ⟨b0, b1, b2, b3, hleftBytes, hleft⟩ := exists_bytesOfSample p.inByteOrder x.left
  obtain ⟨b4, b5, b6, b7, hrightBytes, hright⟩ := exists_bytesOfSample p.inByteOrder x.right
  rw [hleftBytes, hrightBytes]
  calc framesOfBytes p ([b0, b1, b2, b3] ++ [b4, b5, b6, b7] ++ rest)
      = ⟨sampleOfBytes p.inByteOrder b0 b1 b2 b3, sampleOfBytes p.inByteOrder b4 b5 b6 b7⟩ :: framesOfBytes p rest := rfl
    _ = x :: framesOfBytes p rest := by rw [hleft, hright]

theorem framesOfBytes_of_length_lt (p : Params) {residue : List Byte} (h : residue.length < 8) :
    framesOfBytes p residue = [] := by
  unfold framesOfBytes
  split
  · simp only [List.length_cons] at h
    omega
  · rfl

theorem framesOfBytes_flatMap_append (p : Params) (xs : List Frame) {residue : List Byte} (h : residue.length < 8) :
    framesOfBytes p (xs.flatMap (fun x =>
      bytesOfSample p.inByteOrder x.left ++ bytesOfSample p.inByteOrder x.right) ++ residue) = xs := by
  induction xs with
  | nil => exact framesOfBytes_of_length_lt p h
  | cons x xs ih => rw [List.flatMap_cons, List.append_assoc, framesOfBytes_frame_append, ih]

/-! ### The beats the adapter offers (30_encoding.md R92 to R94) -/

@[simp] theorem decode_encode_pushFrame (f : AccFmt) (l r : Sample) :
    decode f (encode f (.pushFrame l r)) = .ok (.pushFrame l r) := by
  have heos : ((0 : BitVec 1) ++ l ++ r).getLsbD 64 = false := by
    rw [BitVec.getLsbD_append, if_neg (by decide), BitVec.getLsbD_append, if_neg (by decide)]
    rfl
  have hleft : ((0 : BitVec 1) ++ l ++ r).extractLsb' 32 32 = l := by
    rw [BitVec.extractLsb'_append_eq_of_le le_rfl, BitVec.extractLsb'_append_eq_right]
  have hright : ((0 : BitVec 1) ++ l ++ r).extractLsb' 0 32 = r := BitVec.extractLsb'_append_eq_right
  calc decode f (encode f (.pushFrame l r)) = .ok (decodeIn ((0 : BitVec 1) ++ l ++ r)) := rfl
    _ = .ok (.pushFrame l r) := by rw [decodeIn, heos, if_neg Bool.false_ne_true, hleft, hright]

@[simp] theorem decode_encode_endStream (f : AccFmt) : decode f (encode f .endStream) = .ok .endStream := rfl

theorem map_decode_adapterBeats (p : Params) (bytes : List Byte) :
    (adapterBeats p bytes).map (decode p.accFmt) =
      (framesOfBytes p bytes).map (fun x => .ok (.pushFrame x.left x.right)) ++ [.ok .endStream] := by
  simp [adapterBeats]

/-- Settles O60, by induction on the Frames: each one's 8 bytes are taken off whole and give the Frame back, and what is left
is too short for another. The beats are those of the Frames found, whatever the bytes. -/
theorem adapterFindsTheFrames : Obligations.AdapterFindsTheFrames := by
  intro p xs residue hresidue o bytes
  have hframes : framesOfBytes p bytes = xs := framesOfBytes_flatMap_append p xs hresidue
  exact ⟨hframes, by rw [map_decode_adapterBeats, hframes]⟩

end Sys2Proof.Machine

/-! ## 30_encoding.md R97: the order of the bits in a half -/

namespace Sys2Proof.Machine

theorem concat_extractLsb'_eq_shiftConcat {n : Nat} (x : BitVec (n + 1)) (b : Bool) :
    (x.extractLsb' 0 n).concat b = x.shiftConcat b := by
  refine BitVec.eq_of_getLsbD_eq fun k hk => ?_
  rw [BitVec.getLsbD_concat, BitVec.getLsbD_shiftConcat, decide_eq_true hk, Bool.true_and]
  cases k with
  | zero => rfl
  | succ k => simp [Nat.lt_of_succ_lt_succ hk]

/-- Of the bits shifted in, as long as none has left the word, the last stands in bit 0, the one before it in bit 1, and so
on. -/
theorem getLsbD_foldl_shiftConcat {n : Nat} (x : BitVec n) {bits : List Bool} (hlen : bits.length ≤ n) {j : Nat}
    (hj : j < bits.length) :
    bits[j]? = some ((bits.foldl BitVec.shiftConcat x).getLsbD (bits.length - 1 - j)) := by
  induction bits using List.reverseRecOn with
  | nil => exact absurd hj (Nat.not_lt_zero j)
  | append_singleton bits b ih =>
    rw [List.length_append, List.length_singleton] at hlen hj ⊢
    rw [List.foldl_append, List.foldl_cons, List.foldl_nil, BitVec.getLsbD_shiftConcat, decide_eq_true (by omega),
      Bool.true_and]
    rcases Nat.lt_succ_iff_lt_or_eq.1 hj with hlt | rfl
    · rw [List.getElem?_append_left hlt, ih (by omega) hlt, if_neg (by omega), Nat.add_sub_cancel, Nat.sub_right_comm]
    · simp

theorem packLane_eq_shiftConcat (l : Lane) (b : Bool) : packLane l b = { l with sh := l.sh.shiftConcat b } :=
  congrArg (fun w => { l with sh := w }) (concat_extractLsb'_eq_shiftConcat l.sh b)

theorem exec_packBit (ch : Channel) (b : Bool) (s : State) :
    exec (.packBit ch b) s = .next { s with dp := s.dp.setLane ch (packLane (s.dp.lane ch) b) } := rfl

theorem execAll_map_packBit (ch : Channel) (bits : List Bool) (s : State) :
    execAll (bits.map (.packBit ch)) s = .next { s with
      dp := s.dp.setLane ch { s.dp.lane ch with sh := bits.foldl BitVec.shiftConcat (s.dp.lane ch).sh } } := by
  induction bits generalizing s with
  | nil => exact congrArg (fun dp => Host.Outcome.next { s with dp := dp }) (setLane_lane s.dp ch).symm
  | cons b bits ih => simp [execAll, exec_packBit, packLane_eq_shiftConcat, ih]

/-- Settles O29, by induction on the bits: each PACK_BIT moves the bits before it one place up. -/
theorem halfIsMsbFirst : Obligations.HalfIsMsbFirst := by
  intro s ch bits hlen
  refine ⟨_, execAll_map_packBit ch bits s, fun j hj => ?_⟩
  have hbit := getLsbD_foldl_shiftConcat (s.dp.lane ch).sh hlen.le (hlen ▸ hj)
  rwa [hlen] at hbit

end Sys2Proof.Machine

/-! ## 30_encoding.md: decoding and encoding are inverse -/

namespace Sys2Proof.Machine

/-! ### Words put together from fields -/

theorem append_eq_iff {m n : Nat} {a : BitVec (m + n)} {x : BitVec m} {y : BitVec n} :
    a = x ++ y ↔ a.extractLsb' n m = x ∧ a.extractLsb' 0 n = y := by
  constructor
  · rintro rfl
    exact ⟨BitVec.extractLsb'_append_eq_left, BitVec.extractLsb'_append_eq_right⟩
  · rintro ⟨rfl, rfl⟩
    exact BitVec.extractLsb'_append_extractLsb'.symm

theorem setWidth_eq_zero_append (m : Nat) {n : Nat} (x : BitVec n) : x.setWidth (m + n) = 0#m ++ x := by
  have hlt : x.toNat < 2 ^ (m + n) := x.isLt.trans_le (Nat.pow_le_pow_right Nat.two_pos (Nat.le_add_left n m))
  exact BitVec.eq_of_toNat_eq (by simp [Nat.mod_eq_of_lt hlt])

/-! ### Operand fields: each reader accepts exactly the field the encoder writes -/

@[simp] theorem whenClear_eq_ok_iff {clear : Bool} {v : Except Reject Instr} {i : Instr} :
    whenClear clear v = .ok i ↔ clear = true ∧ v = .ok i := by
  cases clear <;> simp [whenClear]

@[simp] theorem map_eq_ok_iff {α : Type} {v : Except Reject α} {g : α → Instr} {i : Instr} :
    v.map g = .ok i ↔ ∃ x, v = .ok x ∧ g x = i := by
  cases v <;> simp [Except.map]

@[simp] theorem decodeChannel_eq_ok_iff {a : BitVec 8} {ch : Channel} :
    decodeChannel a = .ok ch ↔ a = channelCode ch := by
  unfold decodeChannel channelCode
  cases ch <;> grind

@[simp] theorem decodeIdx_eq_ok_iff {a : BitVec 8} {idx : BitVec 4} :
    decodeIdx a = .ok idx ↔ a = idx.setWidth 8 := by
  rw [decodeIdx, setWidth_eq_zero_append 4 idx, append_eq_iff (m := 4) (n := 4)]
  split <;> simp_all

@[simp] theorem decodeSample_eq_ok_iff {b : BitVec 64} {x : Sample} :
    decodeSample b = .ok x ↔ b = x.setWidth 64 := by
  rw [decodeSample, setWidth_eq_zero_append 32 x, append_eq_iff (m := 32) (n := 32)]
  split <;> simp_all

@[simp] theorem decodeBit_eq_ok_iff {b : BitVec 64} {v : Bool} :
    decodeBit b = .ok v ↔ b = if v then 1 else 0 := by
  unfold decodeBit
  cases v <;> grind

/-! ### The OPID and its operands -/

theorem decodeOpid_packBit_eq_ok_iff {a : BitVec 8} {b : BitVec 64} {i : Instr} :
    decodeOpid 15 a b = .ok i ↔ ∃ ch v, a = channelCode ch ∧ (b = if v then 1 else 0) ∧ .packBit ch v = i := by
  simp only [decodeOpid, ← decodeChannel_eq_ok_iff, ← decodeBit_eq_ok_iff]
  cases decodeChannel a <;> cases decodeBit b <;> simp

/-- Under an operation's OPID the decoder reads that operation from its own operand fields and from no others. -/
theorem decodeOpid_opidOf_eq_ok_iff {i : Instr} {a : BitVec 8} {b : BitVec 64} :
    decodeOpid (opidOf i).toNat a b = .ok i ↔
      a = smallOperand i ∧ b = largeOperand i ∧ ∀ k, i = .claim k → k < 2 ^ 64 := by
  cases i
  case packBit ch v => simp [opidOf, decodeOpid_packBit_eq_ok_iff, smallOperand, largeOperand]
  case pushFrame l r => simp [opidOf, decodeOpid, smallOperand, largeOperand, append_eq_iff (m := 32) (n := 32)]
  case claim k => simp [opidOf, decodeOpid, smallOperand, largeOperand, BitVec.toNat_eq_nat, and_comm]
  all_goals simp [opidOf, decodeOpid, smallOperand, largeOperand, and_comm]

/-- Every operation that `v` can be has the OPID `op`. -/
def HasOpid (op : Nat) (v : Except Reject Instr) : Prop := ∀ i, v = .ok i → op = (opidOf i).toNat

theorem HasOpid.ok {op : Nat} {i : Instr} (h : op = (opidOf i).toNat) : HasOpid op (.ok i) := by
  rintro _ ⟨⟩
  exact h

theorem HasOpid.error (op : Nat) (r : Reject) : HasOpid op (.error r) := fun _ h => nomatch h

theorem HasOpid.whenClear {op : Nat} {clear : Bool} {v : Except Reject Instr} (h : HasOpid op v) :
    HasOpid op (whenClear clear v) :=
  fun i hi => h i (whenClear_eq_ok_iff.1 hi).2

theorem HasOpid.map {α : Type} {op : Nat} {v : Except Reject α} {g : α → Instr} (h : ∀ x, op = (opidOf (g x)).toNat) :
    HasOpid op (v.map g) := by
  intro i hi
  obtain ⟨x, -, rfl⟩ := map_eq_ok_iff.1 hi
  exact h x

/-- What the decoder reads under an OPID is an operation of that OPID, by the form of its arm: a single operation,
an operand that is mapped to one, PACK_BIT with its two operands, or nothing (30_encoding.md R110, R111). -/
theorem decodeOpid_hasOpid (op : Nat) (a : BitVec 8) (b : BitVec 64) : HasOpid op (decodeOpid op a b) := by
  unfold decodeOpid
  split
  case h_1 | h_4 | h_5 | h_6 | h_7 | h_16 | h_17 | h_19 | h_20 | h_21 | h_22 | h_23 | h_24 | h_25 | h_26 | h_27 | h_28 =>
    exact .whenClear (.ok rfl)
  case h_3 | h_8 | h_9 | h_12 | h_13 | h_14 => exact .whenClear (.map fun _ => rfl)
  case h_2 | h_10 | h_11 | h_18 => exact .map fun _ => rfl
  case h_15 =>
    intro i hi
    obtain ⟨ch, v, -, -, rfl⟩ := decodeOpid_packBit_eq_ok_iff.1 hi
    rfl
  case h_29 => exact .error _ _

/-! ### The trace record (log 4) -/

theorem record_eq_append_fields (r : BitVec 80) :
    r.extractLsb' 16 64 ++ r.extractLsb' 8 8 ++ r.extractLsb' 5 3 ++ r.extractLsb' 0 5 = r := by
  rw [BitVec.extractLsb'_append_extractLsb'_eq_extractLsb' (show 16 = 8 + 8 from rfl),
    BitVec.extractLsb'_append_extractLsb'_eq_extractLsb' (show 8 = 5 + 3 from rfl),
    BitVec.extractLsb'_append_extractLsb'_eq_extractLsb' (show 5 = 0 + 5 from rfl), BitVec.extractLsb'_eq_self]

theorem decodeRecord_append (b : BitVec 64) (a : BitVec 8) (op : BitVec 5) :
    decodeRecord (b ++ a ++ (0 : BitVec 3) ++ op) = decodeOpid op.toNat a b := by
  have hop : (b ++ a ++ (0 : BitVec 3) ++ op).extractLsb' 0 5 = op := BitVec.extractLsb'_append_eq_right
  have hclear : (b ++ a ++ (0 : BitVec 3) ++ op).extractLsb' 5 3 = 0 := by
    rw [BitVec.extractLsb'_append_eq_of_le (by decide), BitVec.extractLsb'_append_eq_right]
  have hsmall : (b ++ a ++ (0 : BitVec 3) ++ op).extractLsb' 8 8 = a := by
    rw [BitVec.extractLsb'_append_eq_of_le (by decide), BitVec.extractLsb'_append_eq_of_le (by decide),
      BitVec.extractLsb'_append_eq_right]
  have hlarge : (b ++ a ++ (0 : BitVec 3) ++ op).extractLsb' 16 64 = b := by
    rw [BitVec.extractLsb'_append_eq_of_le (by decide), BitVec.extractLsb'_append_eq_of_le (by decide),
      BitVec.extractLsb'_append_eq_left]
  rw [decodeRecord, hop, hclear, hsmall, hlarge]
  rfl

theorem decodeRecord_encodeRecord {i : Instr} (h : ∀ k, i = .claim k → k < 2 ^ 64) :
    decodeRecord (encodeRecord i) = .ok i := by
  rw [encodeRecord, decodeRecord_append]
  exact decodeOpid_opidOf_eq_ok_iff.2 ⟨rfl, rfl, h⟩

theorem encodeRecord_of_decodeRecord {r : BitVec 80} {i : Instr} (h : decodeRecord r = .ok i) : encodeRecord i = r := by
  obtain ⟨hclear, hop⟩ := whenClear_eq_ok_iff.1 h
  have hopid := decodeOpid_hasOpid _ _ _ i hop
  rw [hopid] at hop
  obtain ⟨hsmall, hlarge, -⟩ := decodeOpid_opidOf_eq_ok_iff.1 hop
  rw [encodeRecord, ← hsmall, ← hlarge, ← eq_of_beq hclear, ← BitVec.eq_of_toNat_eq hopid, record_eq_append_fields]

/-- Settles O37: the decoder takes a record apart at the places where the encoder puts it together, and under each OPID it
reads exactly the operands the encoder writes. -/
theorem recordRoundTrip : Obligations.RecordRoundTrip :=
  ⟨fun _ h => decodeRecord_encodeRecord h, fun _ _ h => encodeRecord_of_decodeRecord h⟩

/-- Settles O38: no arm of the decoder stands under a reserved OPID, and a step refuses what the decoder refuses so. -/
theorem reservedOpidsRefused : Obligations.ReservedOpidsRefused := by
  intro r s rest hop hclear
  have hdecode : decodeRecord r = .error .reservedOpid := by
    rw [decodeRecord, hclear]
    simp only [List.mem_cons, List.not_mem_nil, or_false] at hop
    rcases hop with hop | hop | hop | hop <;> rw [hop] <;> rfl
  refine ⟨hdecode, fun hscript => ?_⟩
  calc step s = perform (.opid r) { s.quiet with script := rest } := step_of_script_cons hscript
    _ = .refused .reservedOpid := perform_of_decode_error (b := .opid r) hdecode

/-! ### The configuration port (30_encoding.md R95) -/

theorem setWidth_setWidth_of_fits {v : Acc} (h : Acc.fits .binary32 v = true) : (v.setWidth 32).setWidth 64 = v := by
  have hlt : v.toNat < 2 ^ 32 := of_decide_eq_true h
  refine BitVec.eq_of_toNat_eq ?_
  rw [BitVec.toNat_setWidth, BitVec.toNat_setWidth, Nat.mod_eq_of_lt hlt, Nat.mod_eq_of_lt v.isLt]

theorem cfgBeat_fields {w : Nat} (wr : Bool) (idx : BitVec 4) (data : BitVec w) :
    (BitVec.ofBool wr ++ idx ++ data).getLsbD (w + 4) = wr ∧
    (BitVec.ofBool wr ++ idx ++ data).extractLsb' w 4 = idx ∧
    (BitVec.ofBool wr ++ idx ++ data).extractLsb' 0 w = data := by
  refine ⟨?_, ?_, BitVec.extractLsb'_append_eq_right⟩
  · rw [BitVec.getLsbD_append, if_neg (by omega), Nat.add_sub_cancel_left, BitVec.getLsbD_append, if_neg (by decide)]
    simp
  · rw [BitVec.extractLsb'_append_eq_of_le le_rfl, Nat.sub_self, BitVec.extractLsb'_append_eq_right]

/-- A beat of either kind is read back; what data a read carries the decoder leaves aside (U19). -/
theorem decodeCfg_encodeCfg (f : AccFmt) (wr : Bool) (idx : BitVec 4) {data : BitVec 64} (h : Acc.fits f data = true) :
    decodeCfg f (encodeCfg f wr idx data) = .ok (if wr then .loadCfg idx data else .readCsr idx) := by
  cases f with
  | binary32 =>
    obtain ⟨hwr, hidx, hdata⟩ := cfgBeat_fields wr idx (data.setWidth 32)
    have hclear : (encodeCfg .binary32 wr idx data).extractLsb' 37 32 = 0 :=
      (append_eq_iff.1 (setWidth_eq_zero_append 32 _)).1
    rw [decodeCfg, hclear, encodeCfg, BitVec.getLsbD_setWidth, BitVec.extractLsb'_setWidth_of_le (by decide),
      BitVec.extractLsb'_setWidth_of_le (by decide), hwr, hidx, hdata, setWidth_setWidth_of_fits h]
    rfl
  | binary64 =>
    obtain ⟨hwr, hidx, hdata⟩ := cfgBeat_fields wr idx data
    rw [encodeCfg, decodeCfg, hwr, hidx, hdata]

/-! ### Every beat -/

/-- Settles O36, by the beat each operation travels in: the pins and the IN and CFG beats have rules of their own, and every
other operation travels in its trace record, where O37's rule reads it back. -/
theorem decodeEncode : Obligations.DecodeEncode := by
  intro p i hwf
  cases i with
  | reset | endStream | popWord | popFail => rfl
  | loadCfg idx data => exact decodeCfg_encodeCfg p.accFmt true idx hwf
  | readCsr idx => exact decodeCfg_encodeCfg p.accFmt false idx (by simp [Acc.fits])
  | pushFrame l r => exact decode_encode_pushFrame p.accFmt l r
  | claim k =>
    obtain ⟨-, hk⟩ := Bool.and_eq_true_iff.1 hwf
    exact decodeRecord_encodeRecord (by rintro _ ⟨⟩; exact of_decide_eq_true hk)
  | _ => exact decodeRecord_encodeRecord (fun _ h => nomatch h)

/-- Settles O39, by running the decoder on each word. -/
theorem sampleWordsDecode : Obligations.SampleWordsDecode := by
  unfold Obligations.SampleWordsDecode
  decide

end Sys2Proof.Machine

/-! ## 40_modulator.md: the operations of the modulator -/

namespace Sys2Proof.Machine

/-! ### A computation on the registers, put into the state -/

theorem ofExcept_map_ok {α : Type} {r : Except Fault α} {g : α → State} {a : α} (h : r = .ok a) :
    ofExcept (r.map g) = .next (g a) := by
  rw [h]
  rfl

theorem ofExcept_map_error {α : Type} {r : Except Fault α} {g : α → State} {e : Fault} (h : r = .error e) :
    ofExcept (r.map g) = .fault e := by
  rw [h]
  rfl

theorem ofExcept_map_next {α : Type} {r : Except Fault α} {g : α → State} {t : State} :
    ofExcept (r.map g) = .next t ↔ ∃ a, r = .ok a ∧ g a = t :=
  ofExcept_next.trans except_map_ok

/-! ### SCALE (R126) and INTEGRATE (R128) -/

theorem abs_valueOf (f : AccFmt) (v : Acc) : |valueOf f v| = (unitsOf f v : Int) := by
  rw [Int.abs_eq_natAbs, valueOf_natAbs]

/-- Settles O18: the one product is with a GAIN of at most 1, which shrinks. -/
theorem scaleResult : Obligations.ScaleResult := by
  intro s ch x f hx hgain
  obtain ⟨hfinite, hunits⟩ := (legalGain_iff f _).1 hgain
  obtain ⟨hproduct, hshrinks⟩ := mulAcc_shrink f x s.cfg.gain hx hunits
  refine ⟨ofExcept_map_ok (fmul_ok f x _ hx hfinite), hproduct, ?_⟩
  rw [abs_valueOf, abs_valueOf]
  exact Int.ofNat_le.2 hshrinks

theorem integrateLane_ok {f : AccFmt} {cfg : CfgRegs} {l : Lane} {x : Acc} (hc : cfg.legal f = true)
    (hl : l.bounded f cfg.limit = true) (hx : isFinite f x = true) :
    integrateLane f cfg l x = .ok (integrated f cfg l x) ∧ ∀ v ∈ (integrated f cfg l x).accs, isFinite f v = true := by
  obtain ⟨l', hrun, hfinite, -⟩ := integrateLane_finite f cfg l x hc hl hx
  obtain rfl := integrateLane_integrated hrun
  exact ⟨hrun, hfinite⟩

/-- Settles O19: the five sums are those of `integrated`, and on a bounded channel every one of them is finite. -/
theorem integrateResult : Obligations.IntegrateResult := by
  intro s ch scaled f l sub qv s0 s1 s2 s3 s4 hc hl hx
  obtain ⟨hrun, hfinite⟩ := integrateLane_ok hc hl hx
  exact ⟨ofExcept_map_ok hrun, hfinite⟩

/-! ### PANIC_CHECK (R131) -/

/-- PANIC_MULT as an ACC_FMT value is the integer itself. -/
theorem cvtInt_byte_value (f : AccFmt) (m : BitVec 8) : valueOf f (cvtInt f m.toNat) = m.toNat * 2 ^ unitScale f := by
  have hall : ∀ n : Fin 256, valueOf f (cvtInt f n) = (n : Nat) * 2 ^ unitScale f := by cases f <;> decide +kernel
  exact hall ⟨m.toNat, m.isLt⟩

theorem panicLane_of_disabled {cfg : CfgRegs} (f : AccFmt) (l : Lane) (h : panicMult cfg.policy = 0) :
    panicLane f cfg l = .ok l := if_pos h

/-- PANIC_CHECK fires when it is enabled and `abs(s4)` is above the bound. -/
theorem panicFires_iff {f : AccFmt} {cfg : CfgRegs} {l : Lane} (hm : panicMult cfg.policy ≠ 0)
    (hlimit : legalLimit f cfg.limit = true) (hs : isFinite f l.s4 = true) :
    panicFires f cfg l = true ↔
      valueOf f (mulAcc f (cvtInt f (panicMult cfg.policy).toNat) cfg.limit) < |valueOf f l.s4| := by
  rw [panicFires, fgt_finite f _ _ (isFinite_absAcc f _ hs) (panicBound_finite f cfg hlimit), valueOf_absAcc f _ hs,
    abs_valueOf, bne_iff_ne.2 hm, Bool.true_and, decide_eq_true_eq]

theorem exec_panicCheck {s : State} {ch : Channel} {l : Lane}
    (h : panicLane s.par.accFmt s.cfg (s.dp.lane ch) = .ok l) :
    exec (.panicCheck ch) s = .next { s with dp := s.dp.setLane ch l } := ofExcept_map_ok h

theorem exec_panicCheck_same {s : State} {ch : Channel}
    (h : panicLane s.par.accFmt s.cfg (s.dp.lane ch) = .ok (s.dp.lane ch)) : exec (.panicCheck ch) s = .next s := by
  rw [exec_panicCheck h, setLane_lane]

/-- Settles O20: the comparison is between exact values, and writing the channel back unchanged is no change. -/
theorem panicCheckResult : Obligations.PanicCheckResult := by
  intro s ch f l m n bound
  refine ⟨fun hm => exec_panicCheck_same (panicLane_of_disabled f l hm), fun hm hlimit hs => ?_⟩
  have hrun := panicLane_ok f s.cfg l hlimit hs
  have hfires := panicFires_iff hm hlimit hs
  refine ⟨cvtInt_byte_value f m, panicBound_finite f s.cfg hlimit, fun habove => ?above, fun hbelow => ?below⟩
  case above =>
    rw [if_pos (hfires.2 habove)] at hrun
    exact exec_panicCheck hrun
  case below =>
    rw [if_neg fun hf => absurd (hfires.1 hf) hbelow.not_gt] at hrun
    exact exec_panicCheck_same hrun

/-! ### CLAMP (R133) -/

/-- `b` is what CLAMP makes of `a`: the bound it is past, or `a` itself. -/
def ClampsTo (f : AccFmt) (limit a b : Acc) : Prop :=
  (valueOf f limit < valueOf f a → b = limit) ∧ (valueOf f a < -valueOf f limit → b = setSign f limit) ∧
    (-valueOf f limit ≤ valueOf f a ∧ valueOf f a ≤ valueOf f limit → b = a)

theorem legalLimit_nonneg {f : AccFmt} {limit : Acc} (h : legalLimit f limit = true) : 0 ≤ valueOf f limit := by
  obtain ⟨-, hone, -⟩ := (legalLimit_iff f limit).1 h
  exact (Int.natCast_nonneg _).trans hone

theorem valueOf_setSign_limit {f : AccFmt} {limit : Acc} (h : legalLimit f limit = true) :
    valueOf f (setSign f limit) = -valueOf f limit := by
  rw [valueOf_setSign f limit ((legalLimit_iff f limit).1 h).1, valueOf_nonneg_units f limit (legalLimit_nonneg h)]

theorem clampsTo_of_clampAcc {f : AccFmt} {limit v r : Acc} (hlimit : legalLimit f limit = true)
    (hv : isFinite f v = true) (h : clampAcc f limit v = .ok r) : ClampsTo f limit v r := by
  have hfinite := ((legalLimit_iff f limit).1 hlimit).1
  have hpos := legalLimit_nonneg hlimit
  rw [clampAcc, hv, hfinite, fgt_finite f v limit hv hfinite, flt_finite f v _ hv (isFinite_setSign f limit hfinite),
    valueOf_setSign_limit hlimit] at h
  simp only [Bool.and_self, if_true, decide_eq_true_eq, Except.ok.injEq] at h
  subst h
  refine ⟨fun habove => if_pos habove, fun hbelow => ?_, fun ⟨hlo, hhi⟩ => ?_⟩
  · rw [if_neg (by omega), if_pos hbelow]
  · rw [if_neg (by omega), if_neg (by omega)]

theorem clampLane_eq_ok_iff {f : AccFmt} {cfg : CfgRegs} {l l' : Lane} :
    clampLane f cfg l = .ok l' ↔ ∃ r0 r1 r2 r3 r4, clampAcc f cfg.limit l.s0 = .ok r0 ∧ clampAcc f cfg.limit l.s1 = .ok r1 ∧
      clampAcc f cfg.limit l.s2 = .ok r2 ∧ clampAcc f cfg.limit l.s3 = .ok r3 ∧ clampAcc f cfg.limit l.s4 = .ok r4 ∧
      l' = { l with s0 := r0, s1 := r1, s2 := r2, s3 := r3, s4 := r4 } := by
  simp only [clampLane, except_bind_ok, Except.ok.injEq]
  grind

/-- Settles O21, accumulator by accumulator. -/
theorem clampResult : Obligations.ClampResult := by
  intro s ch f l hi one hlimit hfinite
  obtain ⟨l', hrun, hbounded, -⟩ := clampLane_ok f s.cfg l hlimit hfinite
  obtain ⟨r0, r1, r2, r3, r4, h0, h1, h2, h3, h4, rfl⟩ := clampLane_eq_ok_iff.1 hrun
  simp only [Lane.accs, List.mem_cons, List.not_mem_nil, or_false, forall_eq_or_imp, forall_eq] at hfinite
  obtain ⟨v0, v1, v2, v3, v4⟩ := hfinite
  exact ⟨_, ofExcept_map_ok hrun, rfl, clampsTo_of_clampAcc hlimit v0 h0, clampsTo_of_clampAcc hlimit v1 h1,
    clampsTo_of_clampAcc hlimit v2 h2, clampsTo_of_clampAcc hlimit v3 h3, clampsTo_of_clampAcc hlimit v4 h4, hbounded⟩

/-! ### QUANTIZE (R135) -/

/-- Settles O22: both zeros have the value 0, which is not negative. -/
theorem quantizeResult : Obligations.QuantizeResult := by
  intro s ch f l hs
  have hrun := quantizeLane_ok f l hs
  refine ⟨fun hnonneg => ?_, fun hneg => ?_⟩
  · rw [if_pos hnonneg, decide_eq_true hnonneg] at hrun
    exact ofExcept_map_ok hrun
  · rw [if_neg hneg.not_ge, decide_eq_false hneg.not_ge] at hrun
    exact ofExcept_map_ok hrun

/-! ### MODULATE (R137 to R140) -/

/-- MODULATE of a channel is the five operations in order (R137). -/
theorem modulateLane_eq_ok_iff {f : AccFmt} {cfg : CfgRegs} {l : Lane} {x : Acc} {r : Lane × Bool} :
    modulateLane f cfg l x = .ok r ↔ ∃ v l₁ l₂ l₃, scaleValue f cfg x = .ok v ∧ integrateLane f cfg l v = .ok l₁ ∧
      panicLane f cfg l₁ = .ok l₂ ∧ clampLane f cfg l₂ = .ok l₃ ∧ quantizeLane f l₃ = .ok r := by
  simp only [modulateLane, except_bind_ok]
  grind

theorem exec_clamp {s : State} {ch : Channel} {l : Lane} (h : clampLane s.par.accFmt s.cfg (s.dp.lane ch) = .ok l) :
    exec (.clamp ch) s = .next { s with dp := s.dp.setLane ch l } := ofExcept_map_ok h

theorem exec_quantize {s : State} {ch : Channel} {r : Lane × Bool} (h : quantizeLane s.par.accFmt (s.dp.lane ch) = .ok r) :
    exec (.quantize ch) s = .next { s with dp := s.dp.setLane ch r.1, ret := .bit r.2 } := ofExcept_map_ok h

theorem exec_modulate {s : State} {ch : Channel} {x : Acc} {r : Lane × Bool}
    (h : modulateLane s.par.accFmt s.cfg (s.dp.lane ch) x = .ok r) :
    exec (.modulate ch x) s = .next { s with dp := s.dp.setLane ch r.1, ret := .bit r.2 } := ofExcept_map_ok h

/-- `s` with `l` as channel `ch` and `r` on the result wire. -/
def State.withLane (s : State) (ch : Channel) (l : Lane) (r : OpResult) : State :=
  { s with dp := s.dp.setLane ch l, ret := r }

@[simp] theorem withLane_lane (s : State) (ch : Channel) (l : Lane) (r : OpResult) : (s.withLane ch l r).dp.lane ch = l :=
  lane_setLane_same s.dp ch l

theorem withLane_withLane (s : State) (ch : Channel) (l l' : Lane) (r r' : OpResult) :
    (s.withLane ch l r).withLane ch l' r' = s.withLane ch l' r' := by
  simp only [State.withLane, setLane_setLane]

section WithLane

variable {s : State} {ch : Channel} {l l' : Lane} {r : OpResult}

theorem exec_panicCheck_withLane (h : panicLane s.par.accFmt s.cfg l = .ok l') :
    exec (.panicCheck ch) (s.withLane ch l r) = .next (s.withLane ch l' r) := by
  rw [← withLane_lane s ch l r] at h
  exact (exec_panicCheck (s := s.withLane ch l r) h).trans (congrArg _ (withLane_withLane s ch l l' r r))

theorem exec_clamp_withLane (h : clampLane s.par.accFmt s.cfg l = .ok l') :
    exec (.clamp ch) (s.withLane ch l r) = .next (s.withLane ch l' r) := by
  rw [← withLane_lane s ch l r] at h
  exact (exec_clamp (s := s.withLane ch l r) h).trans (congrArg _ (withLane_withLane s ch l l' r r))

theorem exec_quantize_withLane {b : Bool} (h : quantizeLane s.par.accFmt l = .ok (l', b)) :
    exec (.quantize ch) (s.withLane ch l r) = .next (s.withLane ch l' (.bit b)) := by
  rw [← withLane_lane s ch l r] at h
  exact (exec_quantize (s := s.withLane ch l r) h).trans (congrArg _ (withLane_withLane s ch l l' r (.bit b)))

end WithLane

/-- Settles O24: each operation of the sequence reads the channel the one before it wrote, and all write the same channel. -/
theorem modulateIsItsParts : Obligations.ModulateIsItsParts := by
  intro s t ch x
  constructor
  · intro h
    obtain ⟨r, hrun, rfl⟩ := ofExcept_map_next.1 h
    obtain ⟨v, l₁, l₂, l₃, hscale, hintegrate, hpanic, hclamp, hquantize⟩ := modulateLane_eq_ok_iff.1 hrun
    exact ⟨v, { s with ret := .acc v }, s.withLane ch l₁ (.acc v), s.withLane ch l₂ (.acc v), s.withLane ch l₃ (.acc v),
      ofExcept_map_ok hscale, rfl, ofExcept_map_ok hintegrate, exec_panicCheck_withLane hpanic, exec_clamp_withLane hclamp,
      exec_quantize_withLane hquantize⟩
  · rintro ⟨v, a, b, c, d, ha, hv, hb, hc, hd, ht⟩
    obtain ⟨v', hscale, rfl⟩ := ofExcept_map_next.1 ha
    obtain ⟨l₁, hintegrate, rfl⟩ := ofExcept_map_next.1 hb
    obtain ⟨l₂, hpanic, rfl⟩ := ofExcept_map_next.1 hc
    obtain ⟨l₃, hclamp, rfl⟩ := ofExcept_map_next.1 hd
    obtain ⟨r, hquantize, rfl⟩ := ofExcept_map_next.1 ht
    cases hv
    simp only [lane_setLane_same, setLane_setLane] at hpanic hclamp hquantize ⊢
    exact exec_modulate (modulateLane_eq_ok_iff.2 ⟨v, l₁, l₂, l₃, hscale, hintegrate, hpanic, hclamp, hquantize⟩)

/-- On what R138 asks for, MODULATE answers with a bounded channel whose feedback value follows the bit (R138 to R140). -/
theorem modulateLane_ok {f : AccFmt} {cfg : CfgRegs} {l : Lane} {x : Acc} (hc : cfg.legal f = true)
    (hl : l.bounded f cfg.limit = true) (hx : isFinite f x = true) :
    ∃ l' b, modulateLane f cfg l x = .ok (l', b) ∧ l'.bounded f cfg.limit = true ∧ l'.q = (if b then .plus else .minus) ∧
      l'.cur = l.cur ∧ l'.nxt = l.nxt ∧ l'.sh = l.sh := by
  obtain ⟨hgain, -, -, -, -, hlimit⟩ := legal_parts f cfg hc
  obtain ⟨hgainFinite, hgainUnits⟩ := (legalGain_iff f _).1 hgain
  obtain ⟨hintegrate, hsums⟩ := integrateLane_ok hc hl (mulAcc_shrink f x _ hx hgainUnits).1
  generalize hl₁ : integrated f cfg l (mulAcc f x cfg.gain) = l₁ at hintegrate hsums
  have hpanic := panicLane_ok f cfg l₁ hlimit (hsums _ (by simp [Lane.accs]))
  generalize hl₂ : (if panicFires f cfg l₁ then zeroAccs l₁ else l₁) = l₂ at hpanic
  have hfinite : ∀ v ∈ l₂.accs, isFinite f v = true := by
    rw [← hl₂]
    split
    · simpa [Lane.accs] using zero_finite f
    · exact hsums
  have hkept : l₂.cur = l.cur ∧ l₂.nxt = l.nxt ∧ l₂.sh = l.sh := by
    rw [← hl₂, ← hl₁]
    split <;> exact ⟨rfl, rfl, rfl⟩
  obtain ⟨l₃, hclamp, hbounded, -, hcur, hnxt, hsh⟩ := clampLane_ok f cfg l₂ hlimit hfinite
  obtain ⟨-, -, -, -, hlast⟩ := bounded_accs f cfg.limit l₃ hbounded
  have hquantize := quantizeLane_ok f l₃ (withinLimit_units f _ _ hlimit hlast).1
  refine ⟨_, _, modulateLane_eq_ok_iff.2 ⟨_, l₁, l₂, l₃, fmul_ok f x _ hx hgainFinite, hintegrate, hpanic, hclamp,
    hquantize⟩, hbounded, ?_, hcur.trans hkept.1, hnxt.trans hkept.2.1, hsh.trans hkept.2.2⟩
  simp only [decide_eq_true_eq]

/-- Settles O23: the sums of INTEGRATE are finite, whether or not PANIC_CHECK zeroes them, and CLAMP bounds what it is given. -/
theorem modulateBounded : Obligations.ModulateBounded := by
  intro s ch x f hc hl hx
  obtain ⟨l, b, hrun, hbounded, hq, hcur, hnxt, hsh⟩ := modulateLane_ok hc hl hx
  have hready : modulateReady f s.cfg (s.dp.lane ch) x = true := by simp only [modulateReady, hc, hl, hx, Bool.and_self]
  refine ⟨?_, l, b, exec_modulate hrun, hbounded, hq, hcur, hnxt, hsh⟩
  rw [modulateFinite, hrun, Bool.and_eq_true, List.all_eq_true, List.all_eq_true]
  refine ⟨modulateWires_finite f s.cfg _ x hready, fun v hv => ?_⟩
  have hwithin := List.all_eq_true.1 hbounded v hv
  exact (Bool.and_eq_true_iff.1 hwithin).1

/-! ### What faults (R125 (a), 10_state.md R57, 93_implementation_defined.md U7) -/

/-- The computation can stop for no other reason than a NaN or an infinity. -/
def FaultsNonFinite {α : Type} (r : Except Fault α) : Prop := ∀ e, r = .error e → e = .nonFiniteOperand

theorem FaultsNonFinite.of_ite {α : Type} (c : Prop) [Decidable c] (a : α) :
    FaultsNonFinite (if c then .ok a else .error .nonFiniteOperand) := by
  intro e h
  split at h <;> cases h
  rfl

theorem fsub_faultsNonFinite (f : AccFmt) (a b : Acc) : FaultsNonFinite (fsub f a b) := .of_ite _ _

theorem fmul_faultsNonFinite (f : AccFmt) (a b : Acc) : FaultsNonFinite (fmul f a b) := .of_ite _ _

theorem needFinite_faultsNonFinite (f : AccFmt) (v : Acc) : FaultsNonFinite (needFinite f v) := .of_ite _ _

theorem clampAcc_faultsNonFinite (f : AccFmt) (limit v : Acc) : FaultsNonFinite (clampAcc f limit v) := .of_ite _ _

theorem sampleValue_faultsNonFinite (f : AccFmt) (x : Sample) : FaultsNonFinite (sampleValue f x) := .of_ite _ _

/-- A computation that goes on to a non-finite operand faults on it, or has faulted on one before. -/
theorem FaultsNonFinite.bind_eq_error {α β : Type} {x : Except Fault α} {g : α → Except Fault β} (hx : FaultsNonFinite x)
    (hg : ∀ a, g a = .error .nonFiniteOperand) : (x >>= g) = .error .nonFiniteOperand := by
  cases x with
  | ok a => exact hg a
  | error e => rw [except_error_bind, hx e rfl]

section NonFinite

variable {f : AccFmt} {v : Acc} (hv : isFinite f v = false)

include hv

theorem needFinite_nonFinite : needFinite f v = .error .nonFiniteOperand := by simp [needFinite, hv]

theorem scaleValue_nonFinite (cfg : CfgRegs) : scaleValue f cfg v = .error .nonFiniteOperand := by
  simp [scaleValue, fmul, hv]

theorem integrateLane_nonFinite (cfg : CfgRegs) (l : Lane) : integrateLane f cfg l v = .error .nonFiniteOperand := by
  simp [integrateLane, fsub, hv]

theorem modulateLane_nonFinite (cfg : CfgRegs) (l : Lane) : modulateLane f cfg l v = .error .nonFiniteOperand := by
  rw [modulateLane, scaleValue_nonFinite hv, except_error_bind]

theorem clampAcc_nonFinite (limit : Acc) : clampAcc f limit v = .error .nonFiniteOperand := by simp [clampAcc, hv]

end NonFinite

section NonFiniteLane

variable {f : AccFmt} {l : Lane} (hs : isFinite f l.s4 = false)

include hs

theorem quantizeLane_nonFinite : quantizeLane f l = .error .nonFiniteOperand := by
  rw [quantizeLane, needFinite_nonFinite hs, except_error_bind]

theorem clampLane_nonFinite (cfg : CfgRegs) : clampLane f cfg l = .error .nonFiniteOperand := by
  unfold clampLane
  refine (clampAcc_faultsNonFinite _ _ _).bind_eq_error fun _ => ?_
  refine (clampAcc_faultsNonFinite _ _ _).bind_eq_error fun _ => ?_
  refine (clampAcc_faultsNonFinite _ _ _).bind_eq_error fun _ => ?_
  refine (clampAcc_faultsNonFinite _ _ _).bind_eq_error fun _ => ?_
  rw [clampAcc_nonFinite hs, except_error_bind]

theorem panicLane_nonFinite {cfg : CfgRegs} (hm : panicMult cfg.policy ≠ 0) :
    panicLane f cfg l = .error .nonFiniteOperand := by
  rw [panicLane, if_neg hm]
  refine (fmul_faultsNonFinite _ _ _).bind_eq_error fun _ => ?_
  refine (needFinite_faultsNonFinite _ _).bind_eq_error fun _ => ?_
  rw [needFinite_nonFinite hs, except_error_bind]

end NonFiniteLane

/-- INTERP converts `nxt`, so a NaN or an infinity there faults whatever the step index. -/
theorem interpLane_nonFinite {dp : Datapath} {ch : Channel} (f : AccFmt) (ht : dp.inTransition = true)
    (hnxt : isFinite32 (dp.lane ch).nxt = false) : interpLane f dp ch = .error .nonFiniteOperand := by
  have hsample : sampleValue f (dp.lane ch).nxt = .error .nonFiniteOperand := by simp [sampleValue, hnxt]
  rw [interpLane, if_pos ht, interpValue]
  refine (fsub_faultsNonFinite _ _ _).bind_eq_error fun _ => ?_
  refine (sampleValue_faultsNonFinite _ _).bind_eq_error fun _ => ?_
  rw [hsample, except_error_bind]

section OutsideTransition

variable {s : State} (ht : s.dp.inTransition = false)

include ht

theorem interpLane_outside (f : AccFmt) (ch : Channel) : interpLane f s.dp ch = .error .nxtOutsideTransition := by
  simp [interpLane, ht]

theorem stepOp_outside : stepOp s = .error .nxtOutsideTransition := by
  rw [stepOp, stepDatapath, interpLane_outside ht]
  rfl

theorem transitionOp_outside : transitionOp s = .error .nxtOutsideTransition := by
  have hsteps : repeatOp stepOp (63 + 1) s = .error .nxtOutsideTransition := by rw [repeatOp, stepOp_outside ht]
  rw [transitionOp, hsteps, except_error_bind]

end OutsideTransition

theorem processFrameOp_unwritten {s : State} (h : (procSlot s).frame s.procIdx = none) :
    processFrameOp s = .error .slotDataUnwritten := by rw [processFrameOp, h]

theorem offeredWord_unwritten {s : State} (h : (emitSlot s).group (s.emitIdx / 4) = none) : offeredWord s = none := by
  rw [offeredWord, h, Option.map_none]

theorem exec_processFrame_enabled {s : State} (h : canProcess s = true) :
    exec .processFrame s = ofExcept (processFrameOp s) := if_pos h

theorem exec_popWord_unwritten {s : State} (h : canOffer s = true) (hnone : offeredWord s = none) :
    exec .popWord s = .fault .slotDataUnwritten := by
  rw [exec, execPopWord, if_pos h, hnone]

theorem emitGroupOp_full {s : State} (h : s.par.batchCap ≤ (procSlot s).nGroups) :
    emitGroupOp s = .error .noGroupElement := if_neg h.not_gt

/-- Settles O25, operand by operand: each operation reads the operand before it answers. -/
theorem stopsOfTheDatapath : Obligations.StopsOfTheDatapath := by
  intro s ch x f
  refine ⟨fun hx => ⟨?scale, ?integrate, ?modulate⟩, fun hs => ⟨?quantize, ?clamp, fun hm => ?panicCheck⟩,
    fun ht => ⟨?interp, ?step, ?transition⟩, fun ht hnxt => ?interpNonFinite, fun hguard hnone => ?processFrame,
    fun hguard hnone => ?popWord, fun hfull => ?emitGroup⟩
  case scale => exact ofExcept_map_error (scaleValue_nonFinite hx s.cfg)
  case integrate => exact ofExcept_map_error (integrateLane_nonFinite hx s.cfg _)
  case modulate => exact ofExcept_map_error (modulateLane_nonFinite hx s.cfg _)
  case quantize => exact ofExcept_map_error (quantizeLane_nonFinite hs)
  case clamp => exact ofExcept_map_error (clampLane_nonFinite hs s.cfg)
  case panicCheck => exact ofExcept_map_error (panicLane_nonFinite hs hm)
  case interp => exact ofExcept_map_error (interpLane_outside ht f ch)
  case step => exact congrArg ofExcept (stepOp_outside ht)
  case transition => exact congrArg ofExcept (transitionOp_outside ht)
  case interpNonFinite => exact ofExcept_map_error (interpLane_nonFinite f ht hnxt)
  case processFrame =>
    exact (exec_processFrame_enabled hguard).trans (congrArg ofExcept (processFrameOp_unwritten hnone))
  case popWord => exact exec_popWord_unwritten hguard (offeredWord_unwritten hnone)
  case emitGroup => exact congrArg ofExcept (emitGroupOp_full hfull)

end Sys2Proof.Machine

/-! ## 40_modulator.md R121: the correct rounding of sums and products -/

namespace Sys2Proof.Machine

/-! ### Rounding to an integer takes the nearest one -/

/-- `n` lies between two neighbouring multiples of `2 ^ j`, and rounding takes the nearer one, or of two equally near ones the
even one. -/
theorem roundShift_nearest (n j c : Nat) :
    Nat.dist (roundShift n j * 2 ^ j) n ≤ Nat.dist (c * 2 ^ j) n ∧
      (Nat.dist (roundShift n j * 2 ^ j) n = Nat.dist (c * 2 ^ j) n → c ≠ roundShift n j → roundShift n j % 2 = 0) := by
  have hsplit := Nat.div_add_mod' n (2 ^ j)
  have hrem := Nat.mod_lt n (Nat.two_pow_pos j)
  have hsucc := Nat.succ_mul (n / 2 ^ j) (2 ^ j)
  have hbelow : c < n / 2 ^ j → c * 2 ^ j + 2 ^ j ≤ n / 2 ^ j * 2 ^ j := fun h =>
    (Nat.succ_mul c _).symm.trans_le (Nat.mul_le_mul_right _ h)
  have habove : n / 2 ^ j + 1 < c → n / 2 ^ j * 2 ^ j + 2 * 2 ^ j ≤ c * 2 ^ j := fun h =>
    (Nat.add_mul _ 2 _).symm.trans_le (Nat.mul_le_mul_right _ h)
  have hquot : c = n / 2 ^ j → c * 2 ^ j = n / 2 ^ j * 2 ^ j := fun h => by rw [h]
  have hnext : c = n / 2 ^ j + 1 → c * 2 ^ j = n / 2 ^ j * 2 ^ j + 2 ^ j := fun h => by rw [h, hsucc]
  unfold roundShift
  generalize n / 2 ^ j = q at *
  generalize n % 2 ^ j = r at *
  generalize c * 2 ^ j = x at *
  split
  · next hup =>
    rw [Nat.succ_mul]
    generalize q * 2 ^ j = y at *
    generalize 2 ^ j = p at *
    simp only [Nat.dist]
    omega
  · next hdown =>
    generalize q * 2 ^ j = y at *
    generalize 2 ^ j = p at *
    simp only [Nat.dist]
    omega

/-! ### Rounding to a magnitude field takes the nearest one -/

/-- A field of binade `b` stands for a whole number of the binade's last places. -/
theorem unitsOfMag_binade (f : AccFmt) {b c : Nat} (hc : c ≤ 2 ^ (fracBits f + 1)) (hb : b = 0 ∨ 2 ^ fracBits f ≤ c) :
    unitsOfMag f (b * 2 ^ fracBits f + c) = c * 2 ^ b := by
  have hp := Nat.two_pow_pos (fracBits f)
  rw [Nat.pow_succ] at hc
  rcases Nat.lt_or_ge c (2 ^ fracBits f) with hsmall | hlarge
  · obtain rfl : b = 0 := hb.resolve_right (by omega)
    rw [Nat.zero_mul, Nat.zero_add, unitsOfMag_small f c hsmall, Nat.pow_zero, Nat.mul_one]
  · obtain ⟨d, rfl⟩ := Nat.exists_eq_add_of_le hlarge
    have hfield : b * 2 ^ fracBits f + (2 ^ fracBits f + d) = d + (b + 1) * 2 ^ fracBits f := by ring
    rw [hfield, unitsOfMag_large f _ (by nlinarith), Nat.add_mul_mod_self_right, Nat.add_mul_div_right _ _ hp]
    rcases Nat.lt_or_ge d (2 ^ fracBits f) with hd | hd
    · rw [Nat.mod_eq_of_lt hd, Nat.div_eq_of_lt hd, Nat.zero_add, Nat.add_sub_cancel]
    · obtain rfl : d = 2 ^ fracBits f := by omega
      rw [Nat.mod_self, Nat.div_self hp, Nat.add_comm 1, Nat.add_sub_cancel, Nat.pow_succ]
      ring

/-- Every field is a whole number of the last places of binade `b`, or stands for less than the binade's values. -/
theorem unitsOfMag_dvd_or_lt (f : AccFmt) (m b : Nat) :
    (∃ c, unitsOfMag f m = c * 2 ^ b) ∨ (0 < b ∧ unitsOfMag f m < 2 ^ fracBits f * 2 ^ b) := by
  have hp := Nat.two_pow_pos (fracBits f)
  rcases Nat.eq_zero_or_pos b with rfl | hb
  · exact .inl ⟨unitsOfMag f m, by rw [Nat.pow_zero, Nat.mul_one]⟩
  rcases Nat.lt_or_ge m (b * 2 ^ fracBits f + 2 ^ fracBits f) with hm | hm
  · have hlow : 2 ^ fracBits f ≤ 2 ^ (fracBits f + 1) := Nat.pow_le_pow_right Nat.two_pos (Nat.le_succ _)
    exact .inr ⟨hb, (unitsOfMag_strictMono f hm).trans_eq (unitsOfMag_binade f hlow (.inr le_rfl))⟩
  · have hquot : b + 1 ≤ m / 2 ^ fracBits f := by
      rw [Nat.le_div_iff_mul_le hp, Nat.succ_mul]
      exact hm
    have hexp : m / 2 ^ fracBits f - 1 = (m / 2 ^ fracBits f - 1 - b) + b := by omega
    refine .inl ⟨(2 ^ fracBits f + m % 2 ^ fracBits f) * 2 ^ (m / 2 ^ fracBits f - 1 - b), ?_⟩
    rw [unitsOfMag_large f m (by omega), Nat.mul_assoc, ← Nat.pow_add, ← hexp]

/-- Where the result is finite, rounding keeps the integer quotient within the binade. -/
theorem roundMag_of_lt {f : AccFmt} {n k : Nat} (h : roundMag f n k < infMag f) :
    roundMag f n k = binadeOf f n k * 2 ^ fracBits f + roundShift n (k + binadeOf f n k) := by
  unfold roundMag at h ⊢
  omega

theorem unitsOfMag_roundMag {f : AccFmt} {n k : Nat} (h : roundMag f n k < infMag f) :
    unitsOfMag f (roundMag f n k) * 2 ^ k = roundShift n (k + binadeOf f n k) * 2 ^ (k + binadeOf f n k) := by
  have hle : roundShift n (k + binadeOf f n k) ≤ 2 ^ (fracBits f + 1) :=
    (roundShift_le_succ _ _).trans (quot_lt_binade f n k)
  have hge : binadeOf f n k = 0 ∨ 2 ^ fracBits f ≤ roundShift n (k + binadeOf f n k) :=
    (Nat.eq_zero_or_pos _).imp_right fun hb => (binade_le_quot f n k hb).trans (roundShift_ge _ _)
  rw [roundMag_of_lt h, unitsOfMag_binade f hle hge, Nat.mul_assoc, ← Nat.pow_add, Nat.add_comm k]

theorem roundMag_mod_two {f : AccFmt} {n k : Nat} (h : roundMag f n k < infMag f) :
    roundMag f n k % 2 = roundShift n (k + binadeOf f n k) % 2 := by
  have heven : 2 ^ fracBits f % 2 = 0 := by cases f <;> rfl
  rw [roundMag_of_lt h, Nat.add_mod, Nat.mul_mod, heven]
  simp

/-- No field stands nearer to `n / 2 ^ k` units than the rounded one, and of two equally near ones the rounded one is even. -/
theorem roundMag_nearest {f : AccFmt} {n k : Nat} (h : roundMag f n k < infMag f) (m : Nat) :
    Nat.dist (unitsOfMag f (roundMag f n k) * 2 ^ k) n ≤ Nat.dist (unitsOfMag f m * 2 ^ k) n ∧
      (Nat.dist (unitsOfMag f (roundMag f n k) * 2 ^ k) n = Nat.dist (unitsOfMag f m * 2 ^ k) n →
        unitsOfMag f m ≠ unitsOfMag f (roundMag f n k) → roundMag f n k % 2 = 0) := by
  have hround := unitsOfMag_roundMag h
  rw [roundMag_mod_two h]
  rcases unitsOfMag_dvd_or_lt f m (binadeOf f n k) with ⟨c, hc⟩ | ⟨hb, hlt⟩
  · have hunits : unitsOfMag f m * 2 ^ k = c * 2 ^ (k + binadeOf f n k) := by
      rw [hc, Nat.mul_assoc, ← Nat.pow_add, Nat.add_comm]
    obtain ⟨hle, htie⟩ := roundShift_nearest n (k + binadeOf f n k) c
    rw [hround, hunits]
    refine ⟨hle, fun heq hne => htie heq fun hcr => hne ?_⟩
    rw [← hcr, ← hunits] at hround
    exact (Nat.eq_of_mul_eq_mul_right (Nat.two_pow_pos k) hround).symm
  · obtain ⟨hle, -⟩ := roundShift_nearest n (k + binadeOf f n k) (2 ^ fracBits f)
    have hfar : unitsOfMag f m * 2 ^ k < 2 ^ fracBits f * 2 ^ (k + binadeOf f n k) := by
      rw [Nat.add_comm, Nat.pow_add, ← Nat.mul_assoc]
      exact Nat.mul_lt_mul_of_pos_right hlt (Nat.two_pow_pos k)
    have hn : 2 ^ fracBits f * 2 ^ (k + binadeOf f n k) ≤ n :=
      (Nat.le_div_iff_mul_le (Nat.two_pow_pos _)).1 (binade_le_quot f n k hb)
    rw [hround]
    generalize roundShift n (k + binadeOf f n k) * 2 ^ (k + binadeOf f n k) = y at *
    simp only [Nat.dist] at hle ⊢
    omega

/-! ### Signed values -/

theorem valueOf_mul_two_pow (f : AccFmt) (v : Acc) (k : Nat) :
    valueOf f v * 2 ^ k = if signOf f v then -((unitsOf f v * 2 ^ k : Nat) : Int) else ((unitsOf f v * 2 ^ k : Nat) : Int) := by
  unfold valueOf
  split <;> push_cast <;> ring

theorem unitsOfMag_magOf (f : AccFmt) (v : Acc) : unitsOfMag f (magOf f v) = unitsOf f v := rfl

/-- The finite pattern `r` is the exact value `e / 2 ^ k`, in units, rounded: its magnitude is rounded and its sign is `e`'s, or
either one if `e` is 0. -/
structure RoundsTo (f : AccFmt) (k : Nat) (e : Int) (r : Acc) : Prop where
  finite : isFinite f r = true
  mag : magOf f r = roundMag f e.natAbs k
  sign : e = if signOf f r then -(e.natAbs : Int) else (e.natAbs : Int)

/-- No pattern's value is nearer to the exact one, and of two equally near ones the result has an even fraction. A pattern of the
other sign is no nearer than zero is. -/
theorem RoundsTo.nearest {f : AccFmt} {k : Nat} {e : Int} {r : Acc} (h : RoundsTo f k e r) (c : Acc) :
    |valueOf f r * 2 ^ k - e| ≤ |valueOf f c * 2 ^ k - e| ∧
      (|valueOf f r * 2 ^ k - e| = |valueOf f c * 2 ^ k - e| → valueOf f c ≠ valueOf f r → magOf f r % 2 = 0) := by
  obtain ⟨hfinite, hmag, hsign⟩ := h
  have hlt : roundMag f e.natAbs k < infMag f := hmag ▸ (isFinite_iff f r).1 hfinite
  obtain ⟨hle, htie⟩ := roundMag_nearest hlt (magOf f c)
  obtain ⟨hzero, -⟩ := roundMag_nearest hlt 0
  simp only [← hmag, unitsOfMag_magOf, unitsOfMag_zero, Nat.zero_mul] at hle htie hzero
  have hunits : ∀ v, unitsOf f v * 2 ^ k = 0 → unitsOf f v = 0 := fun v h0 =>
    (Nat.mul_eq_zero.1 h0).resolve_right (Nat.two_pow_pos k).ne'
  have hr := hunits r
  have hc := hunits c
  rw [hsign, Int.abs_eq_natAbs, Int.abs_eq_natAbs, valueOf_mul_two_pow, valueOf_mul_two_pow, valueOf, valueOf]
  generalize unitsOf f c * 2 ^ k = x at *
  generalize unitsOf f r * 2 ^ k = y at *
  generalize e.natAbs = n at *
  simp only [Nat.dist] at hle htie hzero
  cases signOf f r <;> cases signOf f c <;> simp only [if_true, Bool.false_eq_true, if_false] <;> omega

theorem addAcc_roundsTo {f : AccFmt} {a b : Acc} (h : isFinite f (addAcc f a b) = true) :
    RoundsTo f 0 (valueOf f a + valueOf f b) (addAcc f a b) where
  finite := h
  mag := magOf_addAcc f a b
  sign := by
    rw [signOf_addAcc, sumSign]
    by_cases hzero : valueOf f a + valueOf f b = 0
    · simp [hzero]
    · simp only [if_neg hzero, decide_eq_true_eq]
      split <;> omega

theorem mulAcc_roundsTo {f : AccFmt} {a b : Acc} (h : isFinite f (mulAcc f a b) = true) :
    RoundsTo f (unitScale f) (valueOf f a * valueOf f b) (mulAcc f a b) where
  finite := h
  mag := by rw [magOf_mulAcc, Int.natAbs_mul, valueOf_natAbs, valueOf_natAbs]
  sign := by
    rw [signOf_mulAcc, Int.natAbs_mul, valueOf_natAbs, valueOf_natAbs, valueOf, valueOf]
    cases signOf f a <;> cases signOf f b <;> simp

/-- Settles O58: the sum and the product are their exact values rounded, the product's in units of units. -/
theorem correctRounding : Obligations.CorrectRounding := by
  intro f a b c _ _ _ sum prod unit
  refine ⟨fun hsum => ?_, fun hprod => (mulAcc_roundsTo hprod).nearest c⟩
  have hnearest := (addAcc_roundsTo hsum).nearest c
  rwa [pow_zero, mul_one, mul_one] at hnearest

end Sys2Proof.Machine

/-! ## 41_interpolator.md: STEP and TRANSITION run on a bounded datapath with finite samples -/

namespace Sys2Proof.Machine

/-! ### INTERP on finite samples is finite (R154) -/

theorem isFinite32_iff (x : Sample) : isFinite32 x = true ↔ x.toNat % 2 ^ 31 < infMag .binary32 := by
  have hfield : x.extractLsb' 23 8 = 0xFF ↔ x.toNat / 2 ^ 23 % 2 ^ 8 = 255 := by
    rw [← BitVec.toNat_inj, BitVec.extractLsb'_toNat, Nat.shiftRight_eq_div_pow]
    rfl
  have hinf : infMag .binary32 = 255 * 2 ^ 23 := by decide
  rw [isFinite32, decide_eq_true_eq, ne_eq, hfield, hinf]
  omega

theorem isFinite_setWidth_sample {x : Sample} (h : isFinite32 x = true) : isFinite .binary32 (x.setWidth 64) = true := by
  have hlt : x.toNat < 2 ^ 64 := x.isLt.trans (by decide)
  rw [isFinite_iff, magOf, BitVec.toNat_setWidth, Nat.mod_eq_of_lt hlt]
  exact (isFinite32_iff x).1 h

/-- Every finite binary32 value lies far below the largest finite binary64 value. -/
theorem sample_room : 2 * (maxUnits .binary32 * 2 ^ (unitScale .binary64 - unitScale .binary32)) <
    (2 * (2 ^ (fracBits .binary64 + 1) - 1) + 1) * 2 ^ (0 + topBinade .binary64) := by decide +kernel

theorem isFinite_cvt (f : AccFmt) {x : Sample} (h : isFinite32 x = true) : isFinite f (cvt f x) = true := by
  have hx := isFinite_setWidth_sample h
  cases f with
  | binary32 => exact hx
  | binary64 =>
    refine isFinite_packSign _ _ _ (roundMag_finite _ _ _ (lt_of_le_of_lt ?_ sample_room))
    exact Nat.mul_le_mul_left 2 (Nat.mul_le_mul_right _ (unitsOf_le_max .binary32 _ hx))

/-- The units of a product are at most those of the largest finite value times the same weight. -/
theorem unitsOf_mulAcc_le_max (f : AccFmt) {x : Acc} (w : Acc) (hx : isFinite f x = true) :
    unitsOf f (mulAcc f x w) ≤ unitsOfMag f (roundMag f (maxUnits f * unitsOf f w) (unitScale f)) := by
  rw [unitsOf, magOf_mulAcc]
  exact unitsOfMag_mono f (roundMag_mono f _ (Nat.mul_le_mul_right _ (unitsOf_le_max f x hx)))

/-- The weight `1 - w` of `cur` (R152). -/
def restWeight (f : AccFmt) (i : BitVec 6) : Acc := addAcc f (presetOne f) (negAcc f (weight f i))

theorem restWeight_finite (f : AccFmt) (i : BitVec 6) :
    isFinite f (restWeight f i) = true ∧ unitsOf f (restWeight f i) ≤ 2 ^ unitScale f := by
  obtain ⟨-, hfinite, hunits⟩ := weights_exact f i
  have hle : (64 - i.toNat) * 2 ^ unitScale f ≤ 64 * 2 ^ unitScale f := Nat.mul_le_mul_right _ (Nat.sub_le _ _)
  exact ⟨hfinite, Nat.le_of_mul_le_mul_left (hunits.trans_le hle) (by decide)⟩

/-- Even the largest finite value, weighted and rounded twice, sums to less than half a last place past itself: checked for
every step index in both formats. -/
theorem interp_room (f : AccFmt) (i : BitVec 6) :
    2 * (unitsOfMag f (roundMag f (maxUnits f * unitsOf f (restWeight f i)) (unitScale f)) +
        unitsOfMag f (roundMag f (maxUnits f * unitsOf f (weight f i)) (unitScale f))) <
      (2 * (2 ^ (fracBits f + 1) - 1) + 1) * 2 ^ topBinade f := by
  have hall : ∀ n : Fin 64,
      2 * (unitsOfMag f (roundMag f (maxUnits f * unitsOf f (restWeight f ⟨n⟩)) (unitScale f)) +
          unitsOfMag f (roundMag f (maxUnits f * unitsOf f (weight f ⟨n⟩)) (unitScale f))) <
        (2 * (2 ^ (fracBits f + 1) - 1) + 1) * 2 ^ topBinade f := by
    cases f <;> decide +kernel
  exact hall i.toFin

theorem isFinite_interp (f : AccFmt) (i : BitVec 6) {c n : Acc} (hc : isFinite f c = true) (hn : isFinite f n = true) :
    isFinite f (addAcc f (mulAcc f c (restWeight f i)) (mulAcc f n (weight f i))) = true := by
  have hcur := unitsOf_mulAcc_le_max f (restWeight f i) hc
  have hnxt := unitsOf_mulAcc_le_max f (weight f i) hn
  have hroom := interp_room f i
  have habs := Int.natAbs_add_le (valueOf f (mulAcc f c (restWeight f i))) (valueOf f (mulAcc f n (weight f i)))
  rw [valueOf_natAbs, valueOf_natAbs] at habs
  refine isFinite_addAcc f _ _ (lt_of_le_of_lt (Nat.mul_le_mul_left 2 (habs.trans ?_)) hroom)
  exact Nat.add_le_add hcur hnxt

theorem sampleValue_ok (f : AccFmt) {x : Sample} (h : isFinite32 x = true) : sampleValue f x = .ok (cvt f x) := if_pos h

/-- Two weighted samples summed, three roundings (R152). -/
theorem interpValue_ok (f : AccFmt) (i : BitVec 6) {cur nxt : Sample} (hcur : isFinite32 cur = true)
    (hnxt : isFinite32 nxt = true) : interpValue f i cur nxt =
      .ok (addAcc f (mulAcc f (cvt f cur) (restWeight f i)) (mulAcc f (cvt f nxt) (weight f i))) := by
  obtain ⟨hweight, hweightUnits⟩ := weight_finite f i
  obtain ⟨hrest, hrestUnits⟩ := restWeight_finite f i
  have hc := isFinite_cvt f hcur
  have hn := isFinite_cvt f hnxt
  have hsum := fadd_ok f _ _ (mulAcc_shrink f _ _ hc hrestUnits).1 (mulAcc_shrink f _ _ hn hweightUnits).1
  have hone : fsub f (presetOne f) (weight f i) = .ok (restWeight f i) := fsub_ok f _ _ (presetOne_finite f) hweight
  rw [interpValue, hone, sampleValue_ok f hcur, sampleValue_ok f hnxt]
  simp only [except_ok_bind, fmul_ok f _ _ hc hrest, fmul_ok f _ _ hn hweight, hsum]

/-- INTERP inside a transition on finite samples answers, with a finite value (R152, R154). -/
theorem interpLane_ok (f : AccFmt) {dp : Datapath} {ch : Channel} (ht : dp.inTransition = true)
    (hsamples : (dp.lane ch).samplesFinite = true) : ∃ x, interpLane f dp ch = .ok x ∧ isFinite f x = true := by
  obtain ⟨hcur, hnxt⟩ := Bool.and_eq_true_iff.1 hsamples
  refine ⟨_, ?_, isFinite_interp f dp.i (isFinite_cvt f hcur) (isFinite_cvt f hnxt)⟩
  rw [interpLane, if_pos ht, interpValue_ok f dp.i hcur hnxt]

/-! ### STEP (R156) -/

/-- A channel that the datapath operations run on: bounded accumulators, finite samples. -/
def LaneReady (f : AccFmt) (cfg : CfgRegs) (l : Lane) : Prop := l.bounded f cfg.limit = true ∧ l.samplesFinite = true

/-- A datapath that they run on (40_modulator.md R138, R154). -/
def DatapathReady (f : AccFmt) (cfg : CfgRegs) (dp : Datapath) : Prop :=
  cfg.legal f = true ∧ ∀ ch, LaneReady f cfg (dp.lane ch)

theorem datapathReady_iff (s : State) : datapathReady s = true ↔ DatapathReady s.par.accFmt s.cfg s.dp := by
  simp only [datapathReady, DatapathReady, LaneReady, Bool.and_eq_true]
  refine ⟨fun ⟨⟨⟨⟨hc, hl⟩, hr⟩, hsl⟩, hsr⟩ => ⟨hc, fun ch => ?_⟩, fun ⟨hc, h⟩ => ?_⟩
  · cases ch
    · exact ⟨hl, hsl⟩
    · exact ⟨hr, hsr⟩
  · obtain ⟨hl, hsl⟩ := h .left
    obtain ⟨hr, hsr⟩ := h .right
    exact ⟨⟨⟨⟨hc, hl⟩, hr⟩, hsl⟩, hsr⟩

/-- What STEP does with one channel: it is interpolated, modulated and packed, and stays ready. -/
theorem stepLane_ok {f : AccFmt} {cfg : CfgRegs} {dp : Datapath} (h : DatapathReady f cfg dp) (ht : dp.inTransition = true)
    (ch : Channel) : ∃ x l b, interpLane f dp ch = .ok x ∧ modulateLane f cfg (dp.lane ch) x = .ok (l, b) ∧
      LaneReady f cfg (packLane l b) := by
  obtain ⟨hc, hlanes⟩ := h
  obtain ⟨hbounded, hsamples⟩ := hlanes ch
  obtain ⟨x, hinterp, hx⟩ := interpLane_ok f ht hsamples
  obtain ⟨l, b, hrun, hbounded', -, hcur, hnxt, -⟩ := modulateLane_ok hc hbounded hx
  exact ⟨x, l, b, hinterp, hrun, hbounded', by rwa [Lane.samplesFinite, packLane_cur, packLane_nxt, hcur, hnxt]⟩

theorem stepDatapath_ready {f : AccFmt} {cfg : CfgRegs} {dp dp' : Datapath} (h : DatapathReady f cfg dp)
    (ht : dp.inTransition = true) (hrun : stepDatapath f cfg dp = .ok dp') : DatapathReady f cfg dp' := by
  refine ⟨h.1, fun ch => ?_⟩
  obtain ⟨x, l, b, hx, hl, hready⟩ := stepLane_ok h ht ch
  obtain ⟨x', l', b', packed, hx', hl', hlane, -, -, -, rfl⟩ := stepDatapath_lane hrun ch
  rw [hx] at hx'
  cases hx'
  rw [hl] at hl'
  cases hl'
  split
  · rwa [closeHalfDp_lane, hlane]
  · rwa [hlane]

theorem stepDatapath_runs {f : AccFmt} {cfg : CfgRegs} {dp : Datapath} (h : DatapathReady f cfg dp)
    (ht : dp.inTransition = true) : ∃ dp', stepDatapath f cfg dp = .ok dp' := by
  obtain ⟨xL, l, bL, hxL, hl, -⟩ := stepLane_ok h ht .left
  obtain ⟨xR, r, bR, hxR, hr, -⟩ := stepLane_ok h ht .right
  rw [lane_left] at hl
  rw [lane_right] at hr
  exact ⟨_, by simp only [stepDatapath, hxL, hxR, except_ok_bind, hl, hr]; rfl⟩

theorem advanceStep_lane (dp : Datapath) (ch : Channel) : (advanceStep dp).lane ch = dp.lane ch := by cases ch <;> rfl

theorem emitGroupOp_ok {s : State} (h : (procSlot s).nGroups < s.par.batchCap) : emitGroupOp s =
    .ok { s with slots := s.slots.write (slotIndex s.par s.procSeq) ((procSlot s).appendGroup s.dp.wg) } := if_pos h

/-- STEP answers while there is an element for the group after step 63, and then appends it. -/
theorem stepOp_ok {s : State} (h : DatapathReady s.par.accFmt s.cfg s.dp) (ht : s.dp.inTransition = true)
    (hroom : s.dp.i = 63 → (procSlot s).nGroups < s.par.batchCap) :
    ∃ dp, DatapathReady s.par.accFmt s.cfg dp ∧ dp.i = s.dp.i + 1 ∧ dp.inTransition = true ∧
      stepOp s = .ok { s with
        dp := dp
        slots := if s.dp.i = 63 then s.slots.write (slotIndex s.par s.procSeq) ((procSlot s).appendGroup dp.wg)
          else s.slots } := by
  obtain ⟨dp, hdp⟩ := stepDatapath_runs h ht
  have hready := stepDatapath_ready h ht hdp
  obtain ⟨hi, -, htr⟩ := stepDatapath_frame hdp
  refine ⟨advanceStep dp, ⟨hready.1, fun ch => (advanceStep_lane dp ch).symm ▸ hready.2 ch⟩, by simp [hi], htr.trans ht, ?_⟩
  rw [stepOp, hdp, except_ok_bind, emitAfterStep]
  by_cases h63 : s.dp.i = 63
  · rw [if_pos h63, if_pos h63, emitGroupOp_ok (s := { s with dp := dp }) (hroom h63)]
    rfl
  · rw [if_neg h63, if_neg h63]
    rfl

/-! ### TRANSITION (R158) -/

theorem repeatOp_succ_ok {α : Type} {op : α → Except Fault α} {n : Nat} {a b c : α} (hn : repeatOp op n a = .ok b)
    (hlast : op b = .ok c) : repeatOp op (n + 1) a = .ok c := by
  have hone : repeatOp op 1 b = .ok c := by simp only [repeatOp, hlast]
  rw [repeatOp_add, hn, except_ok_bind, hone]

/-- Turns that are counted: if the turn from `m` to `m + 1` runs, `n` turns from 0 on run. -/
theorem repeatOp_runs_counted {α : Type} {op : α → Except Fault α} (P : Nat → α → Prop) {n : Nat}
    (hstep : ∀ m < n, ∀ a, P m a → ∃ b, op a = .ok b ∧ P (m + 1) b) {a : α} (ha : P 0 a) :
    ∃ b, repeatOp op n a = .ok b ∧ P n b := by
  induction n with
  | zero => exact ⟨a, rfl, ha⟩
  | succ n ih =>
    obtain ⟨b, hb, hP⟩ := ih fun m hm => hstep m (Nat.lt_succ_of_lt hm)
    obtain ⟨c, hc, hQ⟩ := hstep n (Nat.lt_succ_self n) b hP
    exact ⟨c, repeatOp_succ_ok hb hc, hQ⟩

/-- `m` STEPs into a TRANSITION that started in `s`: nothing but the datapath has changed, and the step index is `m`. -/
def StepsTaken (s : State) (m : Nat) (a : State) : Prop :=
  ∃ dp, a = { s with dp := dp } ∧ DatapathReady s.par.accFmt s.cfg dp ∧ dp.inTransition = true ∧ dp.i = BitVec.ofNat 6 m

theorem StepsTaken.step {s a : State} {m : Nat} (hm : m < 63) (h : StepsTaken s m a) :
    ∃ b, stepOp a = .ok b ∧ StepsTaken s (m + 1) b := by
  obtain ⟨dp, rfl, hready, ht, hi⟩ := h
  have hinner : dp.i ≠ 63 := by
    rw [hi, ne_eq, ← BitVec.toNat_inj, BitVec.toNat_ofNat, Nat.mod_eq_of_lt (by omega)]
    exact hm.ne
  obtain ⟨dp', hready', hi', ht', hrun⟩ := stepOp_ok (s := { s with dp := dp }) hready ht (fun h63 => absurd h63 hinner)
  rw [if_neg hinner] at hrun
  exact ⟨_, hrun, dp', rfl, hready', ht', hi'.trans (by rw [hi, BitVec.ofNat_add]; rfl)⟩

theorem takeFrame_ready {f : AccFmt} {cfg : CfgRegs} {dp : Datapath} (h : DatapathReady f cfg dp) :
    DatapathReady f cfg (takeFrame dp) := by
  refine ⟨h.1, fun ch => ?_⟩
  obtain ⟨hbounded, hsamples⟩ := h.2 ch
  obtain ⟨-, hnxt⟩ := Bool.and_eq_true_iff.1 hsamples
  have hlane : (takeFrame dp).lane ch = { dp.lane ch with cur := (dp.lane ch).nxt } := by cases ch <;> rfl
  rw [hlane]
  exact ⟨hbounded, Bool.and_eq_true_iff.2 ⟨hnxt, hnxt⟩⟩

/-- On a ready datapath TRANSITION from `i` = 0 appends one group, comes back to `i` = 0 and leaves the datapath ready. -/
theorem transitionOp_ok {s : State} (h : DatapathReady s.par.accFmt s.cfg s.dp) (ht : s.dp.inTransition = true)
    (hi : s.dp.i = 0) (hroom : (procSlot s).nGroups < s.par.batchCap) :
    ∃ dp, DatapathReady s.par.accFmt s.cfg dp ∧ dp.i = 0 ∧
      transitionOp s = .ok { s with
        dp := dp
        slots := s.slots.write (slotIndex s.par s.procSeq) ((procSlot s).appendGroup dp.wg) } := by
  obtain ⟨_, hsteps, dp, rfl, hready, ht', hi'⟩ :=
    repeatOp_runs_counted (StepsTaken s) (fun m hm a => StepsTaken.step hm) ⟨s.dp, rfl, h, ht, hi⟩
  obtain ⟨dp', hready', hi'', -, hlast⟩ := stepOp_ok (s := { s with dp := dp }) hready ht' (fun _ => hroom)
  rw [if_pos (show dp.i = 63 from hi')] at hlast
  have hall := repeatOp_succ_ok hsteps hlast
  refine ⟨takeFrame dp', takeFrame_ready hready', hi''.trans (by rw [hi']; rfl), ?_⟩
  rw [transitionOp, hall]
  rfl

end Sys2Proof.Machine

/-! ## 40_modulator.md R138, R140, 41_interpolator.md R154, 10_state.md R57: no run of the agents faults -/

namespace Sys2Proof.Machine

/-! ### PROCESS_FRAME on a finite Frame -/

theorem loadFrame_ready {f : AccFmt} {cfg : CfgRegs} {dp : Datapath} {x : Frame} (h : DatapathReady f cfg dp)
    (hleft : isFinite32 x.left = true) (hright : isFinite32 x.right = true) : DatapathReady f cfg (loadFrame dp x) := by
  have hcur : ∀ ch, isFinite32 (dp.lane ch).cur = true := fun ch => (Bool.and_eq_true_iff.1 (h.2 ch).2).1
  refine ⟨h.1, fun ch => ?_⟩
  cases ch with
  | left => exact ⟨(h.2 .left).1, Bool.and_eq_true_iff.2 ⟨hcur .left, hleft⟩⟩
  | right => exact ⟨(h.2 .right).1, Bool.and_eq_true_iff.2 ⟨hcur .right, hright⟩⟩

theorem storeFirst_ready {f : AccFmt} {cfg : CfgRegs} {dp : Datapath} (h : DatapathReady f cfg dp) :
    DatapathReady f cfg (storeFirst dp) :=
  have hlane : ∀ ch, (storeFirst dp).lane ch = (takeFrame dp).lane ch := fun ch => by cases ch <;> rfl
  ⟨h.1, fun ch => (hlane ch).symm ▸ (takeFrame_ready h).2 ch⟩

/-- PROCESS_FRAME stores the Frame or runs its TRANSITION, which appends one group (43_pipeline_coordinator.md R205). -/
theorem processFrameOp_ok {s : State} {x : Frame} (hx : (procSlot s).frame s.procIdx = some x)
    (hleft : isFinite32 x.left = true) (hright : isFinite32 x.right = true)
    (h : DatapathReady s.par.accFmt s.cfg s.dp) (hi : s.dp.i = 0) (hroom : (procSlot s).nGroups < s.par.batchCap) :
    ∃ dp m, DatapathReady s.par.accFmt s.cfg dp ∧ dp.i = 0 ∧
      (m = s.slots ∨ ∃ g, m = s.slots.write (slotIndex s.par s.procSeq) ((procSlot s).appendGroup g)) ∧
      processFrameOp s = .ok { s with dp := dp, slots := m, procIdx := s.procIdx + 1 } := by
  have hloaded := loadFrame_ready h hleft hright
  by_cases hcur : s.dp.haveCur = true
  · obtain ⟨dp, hready, hi', hrun⟩ := transitionOp_ok (s := { s with dp := loadFrame s.dp x }) hloaded rfl hi hroom
    have huse : useFrame { s with dp := loadFrame s.dp x } = _ := (if_pos hcur).trans hrun
    exact ⟨dp, _, hready, hi', .inr ⟨dp.wg, rfl⟩, by rw [processFrameOp, hx]; simp only [huse]; rfl⟩
  · have huse : useFrame { s with dp := loadFrame s.dp x } = _ := if_neg hcur
    exact ⟨_, _, storeFirst_ready hloaded, hi, .inl rfl, by rw [processFrameOp, hx]; simp only [huse]; rfl⟩

/-! ### What the slots hold in a run -/

/-- Frame `n` of the slot is there, and SANITIZE has passed both its samples. -/
def FrameHeld (v : Slot) (n : Nat) : Prop :=
  ∃ x, v.frame n = some x ∧ isFinite32 x.left = true ∧ isFinite32 x.right = true

/-- Every Frame and every group that the slot counts is there, and it counts no more Frames than fit. -/
structure SlotHeld (cap : Nat) (v : Slot) : Prop where
  count : v.nFrames ≤ cap
  frames : ∀ n < v.nFrames, FrameHeld v n
  groups : ∀ n < v.nGroups, v.group n ≠ none

theorem isFinite32_sanitizeValue (x : Sample) : isFinite32 (sanitizeValue x) = true := by
  unfold sanitizeValue
  split
  · assumption
  · decide

theorem FrameHeld.putFrame {v : Slot} {n k : Nat} {x : Frame} (hleft : isFinite32 x.left = true)
    (hright : isFinite32 x.right = true) (h : n = k ∨ FrameHeld v n) : FrameHeld (v.putFrame k x) n := by
  by_cases hn : n = k
  · exact ⟨x, by rw [hn, frame_putFrame_same], hleft, hright⟩
  · obtain ⟨y, hy, hfinite⟩ := h.resolve_left hn
    exact ⟨y, by rw [frame_putFrame_other _ _ _ _ hn, hy], hfinite⟩

theorem SlotHeld.putFrame {cap : Nat} {v : Slot} (h : SlotHeld cap v) (k : Nat) {x : Frame} (hleft : isFinite32 x.left = true)
    (hright : isFinite32 x.right = true) : SlotHeld cap (v.putFrame k x) where
  count := h.count
  frames := fun n hn => .putFrame hleft hright (.inr (h.frames n hn))
  groups := h.groups

theorem SlotHeld.appendGroup {cap : Nat} {v : Slot} (h : SlotHeld cap v) (g : WordGroup) : SlotHeld cap (v.appendGroup g) where
  count := h.count
  frames := h.frames
  groups := fun n hn => by
    rcases Nat.lt_succ_iff_lt_or_eq.1 hn with hlt | rfl
    · rw [group_appendGroup_other v g n hlt.ne]
      exact h.groups n hlt
    · rw [group_appendGroup_same]
      exact Option.some_ne_none g

theorem read_write_eq {m : Memory} (h : m.wf = true) (k j : Nat) (v : Slot) :
    (m.write k v).read j = if j = k then v else m.read j := by
  split
  · next hj => rw [hj, read_write_same m k v h]
  · next hj => exact read_write_other m k j v h hj

theorem slotHeld_write {cap : Nat} {m : Memory} {k : Nat} {v : Slot} (hwf : m.wf = true)
    (h : ∀ j, SlotHeld cap (m.read j)) (hv : SlotHeld cap v) (j : Nat) : SlotHeld cap ((m.write k v).read j) := by
  rw [read_write_eq hwf]
  split
  · exact hv
  · exact h j

/-! ### The invariant of the data -/

/-- What a run keeps of the registers and the slots until an ABORT frees them: between two Frames the datapath is ready and at
`i` = 0, what the slots count they hold, a Filled slot that nobody works on has no groups, and the one in work has no more groups
than Frames processed. -/
structure DataInv (s : State) : Prop where
  ready : DatapathReady s.par.accFmt s.cfg s.dp
  stepZero : s.dp.i = 0
  idle : s.phase = .idle → s.dp = Datapath.reset s.par.qReset
  filling : ∀ n < s.fillCnt, FrameHeld (fillSlot s) n
  slots : ∀ j, SlotHeld s.par.batchCap (s.slots.read j)
  waiting : ∀ j, (s.slots.read j).state = .filled → s.dpOwner = none ∨ j ≠ slotIndex s.par s.procSeq →
    (s.slots.read j).nGroups = 0
  working : s.dpOwner ≠ none → (procSlot s).nGroups ≤ s.procIdx

/-- Cleared accumulators are within every legal LIMIT, so the reset registers are ready whatever legal values are loaded. -/
theorem datapathReady_reset {f : AccFmt} {cfg : CfgRegs} (q : Quant) (hc : cfg.legal f = true) :
    DatapathReady f cfg (Datapath.reset q) := by
  obtain ⟨-, -, -, -, -, hlimit⟩ := legal_parts f cfg hc
  have hzero : withinLimit f cfg.limit 0 = true := by
    rw [withinLimit_iff f _ _ ((legalLimit_iff f _).1 hlimit).1, zero_units]
    exact ⟨zero_finite f, legalLimit_nonneg hlimit⟩
  have hlane : LaneReady f cfg (Lane.reset q) :=
    ⟨List.all_eq_true.2 (by simpa [Lane.reset, Lane.accs] using hzero), by cases q <;> decide⟩
  exact ⟨hc, fun ch => by cases ch <;> exact hlane⟩

theorem dataInv_resetOf (p : Params) (script : List Beat) (n : Nat) :
    DataInv { State.resetOf p with script := script, freeCount := n } where
  ready := datapathReady_reset p.qReset (cfgReset_legal p.accFmt)
  stepZero := rfl
  idle := fun _ => rfl
  filling := fun _ h => absurd h (Nat.not_lt_zero _)
  slots := fun _ => ⟨Nat.zero_le _, fun _ h => absurd h (Nat.not_lt_zero _), fun _ h => absurd h (Nat.not_lt_zero _)⟩
  waiting := fun _ h => nomatch h
  working := fun h => absurd rfl h

section Operations

variable {s : State}

theorem DataInv.noteSample (h : DataInv s) (ch : Option Channel) (x : Sample) : DataInv (noteSample ch x s) := by
  unfold Machine.noteSample
  split
  · exact h
  · exact { h with }

/-- In IDLE the registers are those of RESET, so any legal configuration suits them. -/
theorem DataInv.loaded (h : DataInv s) (hguard : canLoad s = true) {cfg : CfgRegs} (hc : cfg.legal s.par.accFmt = true) :
    DataInv { s with cfg := cfg } :=
  { h with ready := (h.idle ((canLoad_iff s).1 hguard)).symm ▸ datapathReady_reset s.par.qReset hc }

/-- A write to the pool that loses no Frame, makes no slot Filled and changes no count of groups. -/
theorem DataInv.of_write (h : DataInv s) (hwf : s.slots.wf = true) {k : Nat} {v : Slot} (hv : SlotHeld s.par.batchCap v)
    (hframes : ∀ n, FrameHeld (s.slots.read k) n → FrameHeld v n)
    (hstate : v.state = .filled → (s.slots.read k).state = .filled) (hgroups : v.nGroups = (s.slots.read k).nGroups) :
    DataInv { s with slots := s.slots.write k v } := by
  have hread := read_write_eq hwf k (v := v)
  have hcount : ∀ j, ((s.slots.write k v).read j).nGroups = (s.slots.read j).nGroups := by
    intro j
    rw [hread]
    split
    · next hj => rw [hj, hgroups]
    · rfl
  exact { h with
    filling := fun n hn => by
      have hheld : FrameHeld (s.slots.read (slotIndex s.par s.fillSeq)) n := h.filling n hn
      change FrameHeld ((s.slots.write k v).read (slotIndex s.par s.fillSeq)) n
      rw [hread]
      split
      · next hk => exact hframes n (hk ▸ hheld)
      · exact hheld
    slots := slotHeld_write hwf h.slots hv
    waiting := fun j (hfilled : ((s.slots.write k v).read j).state = .filled) hfree => by
      refine (hcount j).trans (h.waiting j ?_ hfree)
      rw [hread] at hfilled
      split at hfilled
      · next hj => exact hj ▸ hstate hfilled
      · exact hfilled
    working := fun howner => (hcount _).trans_le (h.working howner) }

/-- A slot's state moves on, to one that is not Filled. -/
theorem DataInv.relabelled (h : DataInv s) (hwf : s.slots.wf = true) (k : Nat) {st : SlotState} (hst : st ≠ .filled) :
    DataInv { s with slots := s.slots.write k { s.slots.read k with state := st } } :=
  have hk := h.slots k
  h.of_write hwf ⟨hk.count, hk.frames, hk.groups⟩ (fun _ hn => hn) (fun hfilled => absurd hfilled hst) rfl

theorem DataInv.framePushed (h : DataInv s) (hcoord : CoordInv s) (hguard : canTake s = true) (l r : Sample) :
    DataInv (framePushed l r s) := by
  obtain ⟨hphase, hempty, -⟩ := (canTake_iff s).1 hguard
  have hwf := hcoord.poolWf
  have hl := isFinite32_sanitizeValue l
  have hr := isFinite32_sanitizeValue r
  have hpool := h.of_write hwf (k := slotIndex s.par s.fillSeq)
    (v := (fillSlot s).putFrame s.fillCnt ⟨sanitizeValue l, sanitizeValue r⟩) ((h.slots _).putFrame _ hl hr)
    (fun n hn => .putFrame hl hr (.inr hn)) id rfl
  refine DataInv.noteSample (DataInv.noteSample ?_ _ _) _ _
  exact { hpool with
    idle := fun hidle => absurd hidle (by rcases hphase with hp | hp <;> simp [hp])
    filling := fun n (hn : n < s.fillCnt + 1) => by
      change FrameHeld ((s.slots.write (slotIndex s.par s.fillSeq) _).read (slotIndex s.par s.fillSeq)) n
      rw [read_write_same _ _ _ hwf]
      exact .putFrame hl hr ((Nat.lt_succ_iff_lt_or_eq.1 hn).symm.imp_right (h.filling n)) }

theorem batchClosed_read (hwf : s.slots.wf = true) (j : Nat) : (batchClosed s).slots.read j =
    if j = slotIndex s.par s.fillSeq then { fillSlot s with nFrames := s.fillCnt, nGroups := 0, state := .filled }
    else s.slots.read j := by
  rw [batchClosed, read_write_eq hwf]

/-- CLOSE_BATCH: the Frames counted are those put into the slot, and the slot starts without groups. -/
theorem DataInv.batchClosed (h : DataInv s) (hcoord : CoordInv s) (hguard : canClose s = true) :
    DataInv (batchClosed s) := by
  obtain ⟨hlive, -⟩ := (canClose_iff s).1 hguard
  obtain ⟨hidle, -, -⟩ := live_phase hlive
  have hread := batchClosed_read hcoord.poolWf
  exact { h with
    idle := fun hp => absurd hp hidle
    filling := fun _ hn => absurd hn (Nat.not_lt_zero _)
    slots := fun j => by
      rw [hread]
      split
      · exact ⟨hcoord.fillCntCap, h.filling, fun _ hn => absurd hn (Nat.not_lt_zero _)⟩
      · exact h.slots j
    waiting := fun j hfilled hfree => by
      rw [hread] at hfilled ⊢
      split at hfilled
      · next hj => rw [if_pos hj]
      · next hj => exact (if_neg hj).symm ▸ h.waiting j hfilled hfree
    working := fun howner => by
      rw [procSlot, hread]
      split
      · exact Nat.zero_le _
      · exact h.working howner }

theorem DataInv.claimed (h : DataInv s) {k : Nat} (hguard : canClaim s = true) :
    DataInv { s with dpOwner := some k, procIdx := 0 } := by
  obtain ⟨-, hfree, hfilled⟩ := (canClaim_iff s).1 hguard
  exact { h with
    waiting := fun j hj _ => h.waiting j hj (.inl hfree)
    working := fun _ => (h.waiting _ hfilled (.inl hfree)).le }

/-- PROCESS_FRAME appends at most one group, to the slot in work, for the Frame it counts. -/
theorem DataInv.frameProcessed (h : DataInv s) (hcoord : CoordInv s) (hguard : canProcess s = true) {dp : Datapath}
    {m : Memory} (hready : DatapathReady s.par.accFmt s.cfg dp) (hi : dp.i = 0)
    (hm : m = s.slots ∨ ∃ g, m = s.slots.write (slotIndex s.par s.procSeq) ((procSlot s).appendGroup g)) :
    DataInv { s with dp := dp, slots := m, procIdx := s.procIdx + 1 } := by
  obtain ⟨hlive, howner, -⟩ := (canProcess_iff s).1 hguard
  obtain ⟨hidle, -, -⟩ := live_phase hlive
  have hcounted := h.working howner
  rcases hm with rfl | ⟨g, rfl⟩
  · exact { h with
      ready := hready
      stepZero := hi
      idle := fun hp => absurd hp hidle
      working := fun _ => Nat.le_succ_of_le hcounted }
  · have hwf := hcoord.poolWf
    have hread := fun j => read_write_eq hwf (slotIndex s.par s.procSeq) j ((procSlot s).appendGroup g)
    exact {
      ready := hready
      stepZero := hi
      idle := fun hp => absurd hp hidle
      filling := fun n hn => by
        have hheld : FrameHeld (s.slots.read (slotIndex s.par s.fillSeq)) n := h.filling n hn
        change FrameHeld (Memory.read _ (slotIndex s.par s.fillSeq)) n
        rw [hread]
        split
        · next hk =>
          rw [hk] at hheld
          exact hheld
        · exact hheld
      slots := slotHeld_write hwf h.slots ((h.slots _).appendGroup g)
      waiting := fun j (hfilled : (Memory.read _ j).state = .filled) hfree => by
        have hne : j ≠ slotIndex s.par s.procSeq := hfree.resolve_left howner
        change (Memory.read _ j).nGroups = 0
        rw [hread, if_neg hne] at hfilled ⊢
        exact h.waiting j hfilled (.inr hne)
      working := fun _ => by
        change (Memory.read _ (slotIndex s.par s.procSeq)).nGroups ≤ s.procIdx + 1
        rw [hread, if_pos rfl]
        exact Nat.succ_le_succ hcounted }

theorem batchProcessed_read (hwf : s.slots.wf = true) (j : Nat) : (batchProcessed s).slots.read j =
    if j = slotIndex s.par s.procSeq then { procSlot s with state := .processed } else s.slots.read j := by
  rw [batchProcessed, read_write_eq hwf]

/-- PROCESS_DONE: the slot in work is Filled no more, and the Filled ones that are left have been waiting. -/
theorem DataInv.batchProcessed (h : DataInv s) (hcoord : CoordInv s) : DataInv (batchProcessed s) := by
  have hread := batchProcessed_read hcoord.poolWf
  have hpool := h.relabelled hcoord.poolWf (slotIndex s.par s.procSeq) (st := .processed) (fun hp => nomatch hp)
  exact { hpool with
    waiting := fun j hfilled _ => by
      rw [hread] at hfilled ⊢
      split at hfilled
      · exact nomatch hfilled
      · next hj => exact (if_neg hj).symm ▸ h.waiting j hfilled (.inr hj)
    working := fun howner => absurd rfl howner }

/-- While a word is offered, its group is in the slot. -/
theorem DataInv.offeredWord (h : DataInv s) (hguard : canOffer s = true) : ∃ w, offeredWord s = some w := by
  obtain ⟨-, -, hlt⟩ := (canOffer_iff s).1 hguard
  have hgroup : s.emitIdx / 4 < (emitSlot s).nGroups := by omega
  obtain ⟨g, hg⟩ := Option.ne_none_iff_exists'.1 ((h.slots (slotIndex s.par s.emitSeq)).groups _ hgroup)
  change (emitSlot s).group (s.emitIdx / 4) = some g at hg
  exact ⟨groupWord g s.emitIdx, by rw [Machine.offeredWord, hg, Option.map_some]⟩

/-- While Compute may process a Frame, the Frame is in the slot, finite, and there is an element for its group. -/
theorem DataInv.processFrameOp_ok (h : DataInv s) (hguard : canProcess s = true) :
    ∃ dp m, DatapathReady s.par.accFmt s.cfg dp ∧ dp.i = 0 ∧
      (m = s.slots ∨ ∃ g, m = s.slots.write (slotIndex s.par s.procSeq) ((procSlot s).appendGroup g)) ∧
      processFrameOp s = .ok { s with dp := dp, slots := m, procIdx := s.procIdx + 1 } := by
  obtain ⟨-, howner, hlt⟩ := (canProcess_iff s).1 hguard
  obtain ⟨hcount, hframes, -⟩ := h.slots (slotIndex s.par s.procSeq)
  obtain ⟨x, hx, hleft, hright⟩ := hframes s.procIdx hlt
  exact Machine.processFrameOp_ok hx hleft hright h.ready h.stepZero
    ((h.working howner).trans_lt (hlt.trans_le hcount))

end Operations

/-! ### Every operation of the agents keeps it, and none faults -/

/-- The outcome is no fault, and in the state it answers the data is in order, unless the run is aborted there. -/
def KeepsData : Host.Outcome State Fault Refusal → Prop
  | .next t => t.phase ≠ .aborted → DataInv t
  | .fault _ => False
  | .refused _ => True

theorem KeepsData.of_guard {s : State} {g : Bool} {o : Host.Outcome State Fault Refusal}
    (hwaits : s.phase ≠ .aborted → DataInv s) (hthen : g = true → KeepsData o) :
    KeepsData (if g = true then o else .next s) := by
  split
  · next hg => exact hthen hg
  · exact hwaits

theorem exec_keepsData {s : State} {i : Instr} (hi : agentOp i = true) (hcoord : CoordInv s)
    (hdata : s.phase ≠ .aborted → DataInv s) : KeepsData (exec i s) := by
  have hwhileLive : live s = true → DataInv s := fun h => hdata (live_phase h).2.2
  cases i with
  | reset => exact fun _ => dataInv_resetOf _ _ _
  | loadCfg idx data =>
    refine .of_guard hdata fun hguard => ?_
    have h := hdata (by rw [(canLoad_iff s).1 hguard]; exact fun hp => nomatch hp)
    split
    · next hlegal => exact fun _ => h.loaded hguard (cfgStore_legal h.ready.1 (fits_dataBits _ _) hlegal)
    · exact fun _ => { h.loaded hguard (cfgFallbackAt_legal idx h.ready.1) with }
  | readCsr idx => exact fun hphase => { hdata hphase with }
  | pushFrame l r =>
    exact .of_guard hdata fun hguard _ => (hdata (not_aborted_of_canTake hguard)).framePushed hcoord hguard l r
  | endStream =>
    exact .of_guard hdata fun hguard _ =>
      { hdata (not_aborted_of_canTake hguard) with idle := fun hp => nomatch hp }
  | popWord =>
    refine .of_guard hdata fun hguard => ?_
    have h := hwhileLive ((canOffer_iff s).1 hguard).1
    obtain ⟨w, hw⟩ := h.offeredWord hguard
    rw [hw]
    exact fun _ => { h with }
  | popFail => exact .of_guard hdata fun _ hphase => absurd rfl hphase
  | closeBatch =>
    exact .of_guard hdata fun hguard _ => (hwhileLive ((canClose_iff s).1 hguard).1).batchClosed hcoord hguard
  | claim k =>
    rw [exec, execClaim]
    split
    · exact .of_guard hdata fun hguard _ => (hwhileLive ((canClaim_iff s).1 hguard).1).claimed hguard
    · trivial
  | processFrame =>
    refine .of_guard hdata fun hguard => ?_
    have h := hwhileLive ((canProcess_iff s).1 hguard).1
    obtain ⟨dp, m, hready, hi, hm, hrun⟩ := h.processFrameOp_ok hguard
    rw [hrun]
    exact fun _ => h.frameProcessed hcoord hguard hready hi hm
  | processDone =>
    exact .of_guard hdata fun hguard _ => (hwhileLive ((canDone_iff s).1 hguard).1).batchProcessed hcoord
  | writeDone =>
    exact .of_guard hdata fun hguard _ =>
      (hwhileLive ((canWriteDone_iff s).1 hguard).1).relabelled hcoord.poolWf _ (fun hp => nomatch hp)
  | release =>
    refine .of_guard hdata fun hguard _ => ?_
    have h := hwhileLive ((canRelease_iff s).1 hguard).1
    exact { h.relabelled hcoord.poolWf (slotIndex s.par s.emitSeq) (st := .empty) (fun hp => nomatch hp) with }
  | finish =>
    refine .of_guard hdata fun hguard _ => ?_
    have h := hdata (by rw [((canFinish_iff s).1 hguard).1]; exact fun hp => nomatch hp)
    exact { h with idle := fun hp => nomatch hp }
  | _ => cases hi

/-! ### Every step of a run keeps it -/

theorem Effect.script_eq {s t : State} {i : Instr} (he : Effect s i t) : t.script = s.script := by
  cases he with
  | framePushed _ => simp [Machine.framePushed]
  | sanitized _ => exact noteSample_script ..
  | _ => rfl

/-- What every state of a run has: the coordinator's order, agents' operations to come, and, until an ABORT, the data in
order. -/
structure RunInv (s : State) : Prop where
  coord : CoordInv s
  agents : s.script.all (agentBeat s.par.accFmt) = true
  data : s.phase ≠ .aborted → DataInv s

/-- The outcome is no fault, and the state it answers is one of a run. -/
def KeepsRun : Host.Outcome State Fault Refusal → Prop
  | .next t => RunInv t
  | .fault _ => False
  | .refused _ => True

theorem exec_keepsRun {s : State} {i : Instr} (hi : agentOp i = true) (h : RunInv s) : KeepsRun (exec i s) := by
  have hdata := exec_keepsData hi h.coord h.data
  cases hx : exec i s with
  | next t =>
    have he := exec_effect hx
    rw [hx] at hdata
    exact ⟨he.coordInv h.coord, by rw [he.script_eq, he.par_eq]; exact h.agents, hdata⟩
  | fault e => rwa [hx] at hdata
  | refused r => trivial

theorem perform_keepsRun {s : State} {b : Beat} (hb : agentBeat s.par.accFmt b = true) (h : RunInv s) :
    KeepsRun (perform b s) := by
  cases hdecode : decode s.par.accFmt b with
  | ok i =>
    rw [perform_of_decode_ok hdecode]
    rw [agentBeat, hdecode] at hb
    exact exec_keepsRun hb h
  | error r =>
    rw [perform_of_decode_error hdecode]
    cases r with
    | noTransfer => exact h
    | reservedOpid | strayBits | badOperand => trivial

theorem step_keepsRun {s : State} (h : RunInv s) : KeepsRun (step s) := by
  obtain ⟨hcoord, hagents, hdata⟩ := h
  cases hscript : s.script with
  | nil =>
    rw [step_of_script_nil hscript]
    exact ⟨{ hcoord with }, hagents, fun hphase => { hdata hphase with }⟩
  | cons b rest =>
    rw [step_of_script_cons hscript]
    rw [hscript, List.all_cons, Bool.and_eq_true] at hagents
    exact perform_keepsRun hagents.1 ⟨{ hcoord with }, hagents.2, fun hphase => { hdata hphase with }⟩

theorem AgentRun.runInv {s : State} (h : AgentRun s) : RunInv s := by
  induction h with
  | start p schedule hp hschedule => exact ⟨coordInv_resetOf hp schedule 0, hschedule, fun _ => dataInv_resetOf p schedule 0⟩
  | next _ hstep ih =>
    have hkeeps := step_keepsRun ih
    rwa [hstep] at hkeeps

/-- Settles O56, by induction on the run: what a guard lets an operation read is there and finite. -/
theorem runsNeverFault : Obligations.RunsNeverFault := by
  intro s h e hfault
  have hkeeps := step_keepsRun h.runInv
  rwa [hfault] at hkeeps

end Sys2Proof.Machine

/-! ## 41_interpolator.md: the value of INTERP -/

namespace Sys2Proof.Machine

/-! ### Samples convert exactly (40_modulator.md R122) -/

/-- A number with at most one bit more than the fraction, times a power of two, rounds to itself. -/
theorem unitsOfMag_roundMag_exact {f : AccFmt} {c j : Nat} (hc : c < 2 ^ (fracBits f + 1))
    (hfinite : roundMag f (c * 2 ^ j) 0 < infMag f) : unitsOfMag f (roundMag f (c * 2 ^ j) 0) = c * 2 ^ j := by
  have hbinade : binadeOf f (c * 2 ^ j) 0 ≤ j := by
    rw [binadeOf, Nat.pow_zero, Nat.div_one]
    rcases Nat.eq_zero_or_pos c with rfl | hpos
    · simp
    · have hlog : Nat.log2 (c * 2 ^ j) < fracBits f + 1 + j := by
        rw [Nat.log2_lt (by positivity), Nat.pow_add]
        exact Nat.mul_lt_mul_of_pos_right hc (Nat.two_pow_pos j)
      omega
  have hunits := unitsOfMag_roundMag hfinite
  generalize binadeOf f (c * 2 ^ j) 0 = b at *
  obtain ⟨d, rfl⟩ := Nat.exists_eq_add_of_le hbinade
  have hsplit : c * 2 ^ (b + d) = c * 2 ^ d * 2 ^ (0 + b) := by rw [Nat.zero_add, Nat.mul_assoc, ← Nat.pow_add, Nat.add_comm b]
  rw [Nat.pow_zero, Nat.mul_one] at hunits
  calc unitsOfMag f (roundMag f (c * 2 ^ (b + d)) 0)
      = roundShift (c * 2 ^ d * 2 ^ (0 + b)) (0 + b) * 2 ^ (0 + b) := by rw [hunits, hsplit]
    _ = c * 2 ^ (b + d) := by rw [roundShift_exact, hsplit]

/-- A magnitude has one bit more than the fraction, times a power of two. -/
theorem exists_unitsOfMag_eq (f : AccFmt) (m : Nat) : ∃ c j, c < 2 ^ (fracBits f + 1) ∧ unitsOfMag f m = c * 2 ^ j := by
  rw [Nat.pow_succ]
  rcases Nat.lt_or_ge m (2 ^ fracBits f) with hm | hm
  · exact ⟨m, 0, by omega, by rw [unitsOfMag_small f m hm, Nat.pow_zero, Nat.mul_one]⟩
  · have hrem := Nat.mod_lt m (Nat.two_pow_pos (fracBits f))
    exact ⟨_, _, by omega, unitsOfMag_large f m hm⟩

theorem signOf_cvt (f : AccFmt) (x : Sample) : signOf f (cvt f x) = x.getLsbD 31 := by
  have hsign : signOf .binary32 (x.setWidth 64) = x.getLsbD 31 := by
    simp [signOf, AccFmt.width]
  cases f with
  | binary32 => exact hsign
  | binary64 => exact (signOf_packSign .binary64 _ _ (roundMag_le_inf _ _ _)).trans hsign

theorem unitsOf_cvt (f : AccFmt) {x : Sample} (h : isFinite32 x = true) :
    unitsOf f (cvt f x) = unitsOf .binary32 (x.setWidth 64) * 2 ^ (unitScale f - unitScale .binary32) := by
  cases f with
  | binary32 => exact (Nat.mul_one _).symm
  | binary64 =>
    obtain ⟨c, j, hc, hunits⟩ := exists_unitsOfMag_eq .binary32 (magOf .binary32 (x.setWidth 64))
    have hn : unitsOf .binary32 (x.setWidth 64) * 2 ^ (unitScale .binary64 - unitScale .binary32) =
        c * 2 ^ (j + (unitScale .binary64 - unitScale .binary32)) := by
      rw [unitsOf, hunits, Nat.mul_assoc, ← Nat.pow_add]
    have hmag := magOf_packSign .binary64 (signOf .binary32 (x.setWidth 64)) _
      (roundMag_le_inf .binary64 (unitsOf .binary32 (x.setWidth 64) * 2 ^ (unitScale .binary64 - unitScale .binary32)) 0)
    have hfinite := (isFinite_iff .binary64 _).1 (isFinite_cvt .binary64 h)
    rw [unitsOf, cvt, hmag]
    rw [cvt, hmag] at hfinite
    rw [hn] at hfinite ⊢
    exact unitsOfMag_roundMag_exact (hc.trans (by decide)) hfinite

theorem valueOf_cvt (f : AccFmt) {x : Sample} (h : isFinite32 x = true) :
    valueOf f (cvt f x) = valueOf .binary32 (x.setWidth 64) * 2 ^ (unitScale f - unitScale .binary32) := by
  have hsign : signOf .binary32 (x.setWidth 64) = signOf f (cvt f x) := (signOf_cvt .binary32 x).trans (signOf_cvt f x).symm
  rw [valueOf_mul_two_pow, hsign, ← unitsOf_cvt f h, valueOf]

/-! ### The weights (30_encoding.md R102, R151) -/

theorem valueOf_of_signOf {f : AccFmt} {v : Acc} (h : signOf f v = false) : valueOf f v = (unitsOf f v : Int) := by
  rw [valueOf, h]
  rfl

theorem signOf_ratioAcc (f : AccFmt) (n j : Nat) : signOf f (ratioAcc f n j) = false :=
  signOf_packSign f _ _ (roundMag_le_inf f _ _)

theorem signOf_weight (f : AccFmt) (i : BitVec 6) : signOf f (weight f i) = false := signOf_ratioAcc f i.toNat 6

theorem signOf_presetOne (f : AccFmt) : signOf f (presetOne f) = false := by cases f <;> decide

/-- A sum that is not negative, of which one operand has no sign, has none. -/
theorem signOf_addAcc_of_nonneg {f : AccFmt} {a b : Acc} (ha : signOf f a = false) (h : 0 ≤ valueOf f a + valueOf f b) :
    signOf f (addAcc f a b) = false := by
  rw [signOf_addAcc, sumSign, ha, Bool.false_and, decide_eq_false h.not_gt, ite_self]

theorem signOf_restWeight (f : AccFmt) (i : BitVec 6) : signOf f (restWeight f i) = false := by
  obtain ⟨hfinite, hunits⟩ := weight_finite f i
  refine signOf_addAcc_of_nonneg (signOf_presetOne f) ?_
  rw [presetOne_value, valueOf_negAcc f _ hfinite, valueOf_of_signOf (signOf_weight f i)]
  have hle : ((unitsOf f (weight f i) : Nat) : Int) ≤ (2 ^ unitScale f : Nat) := Int.ofNat_le.2 hunits
  exact Int.sub_nonneg_of_le hle

theorem valueOf_weight (f : AccFmt) (i : BitVec 6) : 64 * valueOf f (weight f i) = i.toNat * 2 ^ unitScale f := by
  obtain ⟨hunits, -⟩ := weights_exact f i
  rw [valueOf_of_signOf (signOf_weight f i)]
  exact_mod_cast hunits

theorem valueOf_restWeight (f : AccFmt) (i : BitVec 6) :
    64 * valueOf f (restWeight f i) = (64 - i.toNat) * 2 ^ unitScale f := by
  obtain ⟨-, -, hunits⟩ := weights_exact f i
  have hle : i.toNat ≤ 64 := i.isLt.le
  rw [valueOf_of_signOf (signOf_restWeight f i), restWeight, ← Nat.cast_ofNat (n := 64), ← Nat.cast_sub hle]
  exact_mod_cast hunits

/-! ### INTERP (R152, R154) -/

theorem exec_interp {s : State} {ch : Channel} (ht : s.dp.inTransition = true) (hcur : isFinite32 (s.dp.lane ch).cur = true)
    (hnxt : isFinite32 (s.dp.lane ch).nxt = true) :
    exec (.interp ch) s = .next { s with ret := .acc (addAcc s.par.accFmt
      (mulAcc s.par.accFmt (cvt s.par.accFmt (s.dp.lane ch).cur) (restWeight s.par.accFmt s.dp.i))
      (mulAcc s.par.accFmt (cvt s.par.accFmt (s.dp.lane ch).nxt) (weight s.par.accFmt s.dp.i))) } :=
  ofExcept_map_ok ((if_pos ht).trans (interpValue_ok _ s.dp.i hcur hnxt))

/-- Settles O26: on finite samples no operand faults, both conversions and both weights are exact. -/
theorem interpResult : Obligations.InterpResult := by
  intro s ch f l i c n w a ht hcur hnxt
  exact ⟨exec_interp ht hcur hnxt, isFinite_interp f s.dp.i (isFinite_cvt f hcur) (isFinite_cvt f hnxt), valueOf_cvt f hcur,
    valueOf_cvt f hnxt, signOf_cvt f l.cur, signOf_cvt f l.nxt, valueOf_weight f s.dp.i, valueOf_restWeight f s.dp.i⟩

/-! ### INTERP at step 0 (R153) -/

/-- A pattern of the format is its sign and its magnitude field. -/
theorem packSign_signOf_magOf {f : AccFmt} {v : Acc} (h : v.toNat < 2 ^ f.width) :
    packSign f (signOf f v) (magOf f v) = v := by
  have hwidth : 2 ^ f.width = 2 ^ (f.width - 1) * 2 := by cases f <;> rfl
  have hquot : v.toNat / 2 ^ (f.width - 1) < 2 := Nat.div_lt_of_lt_mul (hwidth ▸ h)
  have hsplit := Nat.div_add_mod v.toNat (2 ^ (f.width - 1))
  have hsum : (if signOf f v then 2 ^ (f.width - 1) else 0) + magOf f v = v.toNat := by
    rw [signOf, BitVec.getLsbD, Nat.testBit_eq_decide_div_mod_eq, Nat.mod_eq_of_lt hquot, magOf]
    generalize v.toNat / 2 ^ (f.width - 1) = q at *
    obtain rfl | rfl : q = 0 ∨ q = 1 := by omega
    all_goals simpa using hsplit
  rw [packSign, hsum, BitVec.ofNat_toNat, BitVec.setWidth_eq]

/-- A sample is converted to a pattern of the format. -/
theorem cvt_lt (f : AccFmt) (x : Sample) : (cvt f x).toNat < 2 ^ f.width := by
  cases f with
  | binary32 => exact (BitVec.toNat_setWidth 64 x).trans_lt ((Nat.mod_le _ _).trans_lt x.isLt)
  | binary64 => exact (cvt .binary64 x).isLt

theorem weight_zero (f : AccFmt) : weight f 0 = 0 := by cases f <;> decide +kernel

theorem restWeight_zero (f : AccFmt) : restWeight f 0 = presetOne f := by cases f <;> decide +kernel

/-- A pattern times one keeps its sign and its magnitude. -/
theorem mulAcc_presetOne {f : AccFmt} {v : Acc} (hv : isFinite f v = true) (hfits : v.toNat < 2 ^ f.width) :
    mulAcc f v (presetOne f) = v := by
  rw [mulAcc, signOf_presetOne, Bool.bne_false, presetOne_units, unitsOf,
    roundMag_exact f _ _ (magOf_le_inf_of_finite f v hv), packSign_signOf_magOf hfits]

/-- A pattern times +0.0 is a zero of the pattern's sign. -/
theorem mulAcc_zero (f : AccFmt) (v : Acc) : mulAcc f v 0 = packSign f (signOf f v) 0 := by
  have hsign : signOf f 0 = false := by cases f <;> decide
  have hround : roundMag f 0 (unitScale f) = 0 := by simpa using roundMag_exact f 0 (unitScale f) (Nat.zero_le _)
  rw [mulAcc, hsign, Bool.bne_false, zero_units, Nat.mul_zero, hround]

theorem magOf_eq_zero_iff {f : AccFmt} {v : Acc} : magOf f v = 0 ↔ valueOf f v = 0 := by
  rw [← Int.natAbs_eq_zero, valueOf_natAbs, unitsOf, ← (unitsOfMag_strictMono f).injective.eq_iff, unitsOfMag_zero]

theorem signOf_of_value_ne_zero {f : AccFmt} {v : Acc} (h : valueOf f v ≠ 0) : decide (valueOf f v < 0) = signOf f v := by
  unfold valueOf at h ⊢
  cases signOf f v with
  | false => simp
  | true =>
    simp only [if_true, ne_eq] at h ⊢
    rw [decide_eq_true_eq]
    omega

/-- A zero added to a finite pattern leaves its magnitude; of two zeros the sum is negative only if both are
(40_modulator.md R125 (b)). -/
theorem addAcc_signed_zero {f : AccFmt} {v : Acc} (b : Bool) (hv : isFinite f v = true) :
    addAcc f v (packSign f b 0) = packSign f (if valueOf f v = 0 then signOf f v && b else signOf f v) (magOf f v) := by
  have hzero : valueOf f (packSign f b 0) = 0 := magOf_eq_zero_iff.1 (magOf_packSign f b 0 (Nat.zero_le _))
  have hround : roundMag f (valueOf f v).natAbs 0 = magOf f v := by
    simpa [valueOf_natAbs, unitsOf] using roundMag_exact f (magOf f v) 0 (magOf_le_inf_of_finite f v hv)
  rw [addAcc, sumSign, hzero, Int.add_zero, hround, signOf_packSign f b 0 (Nat.zero_le _)]
  split
  · rfl
  · next hne => rw [signOf_of_value_ne_zero hne]

/-- The sample whose value is 0 and whose sign is set is the negative zero. -/
theorem eq_negative_zero {x : Sample} (hzero : valueOf .binary32 (x.setWidth 64) = 0) (hsign : x.getLsbD 31 = true) :
    x = 0x80000000 := by
  have hpack := packSign_signOf_magOf (cvt_lt .binary32 x)
  rw [signOf_cvt, hsign, cvt, magOf_eq_zero_iff.2 hzero] at hpack
  calc x = (x.setWidth 64).setWidth 32 := by simp
    _ = 0x80000000 := by rw [← hpack]; decide

/-- The value of INTERP at step 0: `cur`, or +0.0 where `cur` is the negative zero and `nxt` has no sign. -/
theorem interp_step_zero (f : AccFmt) {cur nxt : Sample} (hcur : isFinite32 cur = true) :
    addAcc f (mulAcc f (cvt f cur) (restWeight f 0)) (mulAcc f (cvt f nxt) (weight f 0)) = cvt f cur ∨
      (cur = 0x80000000 ∧ nxt.getLsbD 31 = false ∧
        addAcc f (mulAcc f (cvt f cur) (restWeight f 0)) (mulAcc f (cvt f nxt) (weight f 0)) = 0) := by
  have hfinite := isFinite_cvt f hcur
  rw [restWeight_zero, weight_zero, mulAcc_presetOne hfinite (cvt_lt f cur), mulAcc_zero, addAcc_signed_zero _ hfinite,
    signOf_cvt f nxt]
  by_cases hexcept : valueOf f (cvt f cur) = 0 ∧ signOf f (cvt f cur) = true ∧ nxt.getLsbD 31 = false
  · obtain ⟨hzero, hsign, hnxt⟩ := hexcept
    have hcurZero : valueOf .binary32 (cur.setWidth 64) = 0 := by
      rw [valueOf_cvt f hcur] at hzero
      exact (Int.mul_eq_zero.1 hzero).resolve_right (by positivity)
    refine .inr ⟨eq_negative_zero hcurZero (signOf_cvt f cur ▸ hsign), hnxt, ?_⟩
    rw [if_pos hzero, hnxt, Bool.and_false, magOf_eq_zero_iff.2 hzero]
    cases f <;> decide
  · left
    conv_rhs => rw [← packSign_signOf_magOf (cvt_lt f cur)]
    congr 1
    split
    · next hzero =>
      cases hsign : signOf f (cvt f cur) with
      | false => rfl
      | true => simpa using fun hnxt => hexcept ⟨hzero, hsign, hnxt⟩
    · rfl

/-- Settles O27: one times `cur` is `cur`, and the other product is a zero. -/
theorem interpAtStepZero : Obligations.InterpAtStepZero := by
  intro s ch f l ht hcur hnxt hi
  have hexec := exec_interp ht hcur hnxt
  rw [hi] at hexec
  exact ⟨_, hexec, interp_step_zero f hcur⟩

end Sys2Proof.Machine

/-! ## 41_interpolator.md: what STEP, TRANSITION and PROCESS_FRAME do -/

namespace Sys2Proof.Machine

/-! ### A channel through one STEP -/

theorem quantizeLane_cases {f : AccFmt} {l l' : Lane} {b : Bool} (h : quantizeLane f l = .ok (l', b)) :
    l' = { l with q := if b then .plus else .minus } := by
  obtain ⟨v, -, hrun⟩ := except_bind_ok.1 h
  cases hrun
  rfl

theorem panicLane_frame {f : AccFmt} {cfg : CfgRegs} {l l' : Lane} (h : panicLane f cfg l = .ok l') :
    l'.cur = l.cur ∧ l'.nxt = l.nxt ∧ l'.sh = l.sh := by
  obtain ⟨rfl, -⟩ | ⟨rfl, -⟩ := panicLane_cases f cfg l l' h <;> exact ⟨rfl, rfl, rfl⟩

/-- MODULATE leaves the samples and the shift register alone, and the feedback value follows the bit (R140). -/
theorem modulateLane_frame {f : AccFmt} {cfg : CfgRegs} {l l' : Lane} {x : Acc} {b : Bool}
    (h : modulateLane f cfg l x = .ok (l', b)) :
    l'.cur = l.cur ∧ l'.nxt = l.nxt ∧ l'.sh = l.sh ∧ l'.q = (if b then .plus else .minus) := by
  obtain ⟨v, l₁, l₂, l₃, -, hintegrate, hpanic, hclamp, hquantize⟩ := modulateLane_eq_ok_iff.1 h
  obtain rfl := integrateLane_integrated hintegrate
  obtain ⟨hcur, hnxt, hsh⟩ := panicLane_frame hpanic
  obtain ⟨_, _, _, _, _, -, -, -, -, -, rfl⟩ := clampLane_eq_ok_iff.1 hclamp
  obtain rfl := quantizeLane_cases hquantize
  exact ⟨hcur, hnxt, hsh, rfl⟩

/-- What one STEP makes of the registers of a channel beside its accumulators: the samples stay, and the bit that the feedback
value follows is shifted in (R156). -/
structure LaneStepped (l l' : Lane) : Prop where
  cur : l'.cur = l.cur
  nxt : l'.nxt = l.nxt
  q : l'.q ≠ .zero
  sh : l'.sh = l.sh.extractLsb' 0 31 ++ BitVec.ofBool (l'.q == .plus)

theorem laneStepped_packLane {f : AccFmt} {cfg : CfgRegs} {l l' : Lane} {x : Acc} {b : Bool}
    (h : modulateLane f cfg l x = .ok (l', b)) : LaneStepped l (packLane l' b) := by
  obtain ⟨hcur, hnxt, hsh, hq⟩ := modulateLane_frame h
  refine ⟨hcur, hnxt, ?_, ?_⟩
  · rw [packLane_q, hq]
    cases b <;> decide
  · rw [packLane_sh, packLane_q, hsh, hq]
    cases b <;> rfl

theorem stepDatapath_laneStepped {f : AccFmt} {cfg : CfgRegs} {dp dp' : Datapath} (h : stepDatapath f cfg dp = .ok dp')
    (ch : Channel) : LaneStepped (dp.lane ch) (dp'.lane ch) := by
  obtain ⟨x, l, b, packed, -, hl, hlane, -, -, -, rfl⟩ := stepDatapath_lane h ch
  have hstepped := laneStepped_packLane hl
  split
  · rwa [closeHalfDp_lane, hlane]
  · rwa [hlane]

theorem stepOp_laneStepped {s t : State} (h : stepOp s = .ok t) (ch : Channel) :
    LaneStepped (s.dp.lane ch) (t.dp.lane ch) := by
  obtain ⟨dp, hdp, ht, -⟩ := stepOp_dp h
  rw [ht, advanceStep_lane]
  exact stepDatapath_laneStepped hdp ch

/-! ### STEP (R156) -/

/-- `j` = 31 is the last position of a half. -/
theorem posOf_eq_31_iff (i : BitVec 6) : posOf i = 31 ↔ i.toNat % 32 = 31 := by
  rw [posOf, ← BitVec.toNat_inj, BitVec.extractLsb'_toNat, Nat.shiftRight_zero]
  rfl

theorem eq_63_iff (i : BitVec 6) : i = 63 ↔ i.toNat = 63 := BitVec.toNat_inj.symm

/-- STEP changes the datapath, and the slots by the group that step 63 appends. -/
theorem stepOp_slots {s t : State} (h : stepOp s = .ok t) {dp : Datapath}
    (hdp : stepDatapath s.par.accFmt s.cfg s.dp = .ok dp) :
    t = { s with dp := advanceStep dp, slots := t.slots } ∧ (s.dp.i ≠ 63 → t.slots = s.slots) ∧
      (s.dp.i = 63 → (procSlot s).nGroups < s.par.batchCap ∧
        t.slots = s.slots.write (slotIndex s.par s.procSeq) ((procSlot s).appendGroup dp.wg)) := by
  obtain ⟨dp', hdp', hcases⟩ := stepOp_cases h
  cases hdp.symm.trans hdp'
  obtain ⟨hi, rfl⟩ | ⟨hi, hroom, rfl⟩ := hcases
  · exact ⟨rfl, fun _ => rfl, fun h63 => absurd h63 hi⟩
  · exact ⟨rfl, fun hne => absurd hi hne, fun _ => ⟨hroom, rfl⟩⟩

section WithLane

variable {s : State} {ch : Channel} {l : Lane} {b : Bool}

theorem exec_modulate_withLane {x : Acc} (h : modulateLane s.par.accFmt s.cfg (s.dp.lane ch) x = .ok (l, b)) :
    exec (.modulate ch x) s = .next (s.withLane ch l (.bit b)) := exec_modulate h

theorem exec_packBit_withLane (hlane : s.dp.lane ch = l) :
    exec (.packBit ch b) s = .next (s.withLane ch (packLane l b) s.ret) := hlane ▸ rfl

end WithLane

/-- `s` after both channels have been modulated and packed, with the right channel's bit on the result wire. -/
def State.packed (s : State) (l r : Lane) (bL bR : Bool) : State :=
  { s with dp := { s.dp with left := packLane l bL, right := packLane r bR }, ret := .bit bR }

/-- MODULATE of both channels, then PACK_BIT of both: each reads the registers of its own channel only. -/
theorem exec_modulate_packBit {s : State} {xL xR : Acc} {l r : Lane} {bL bR : Bool}
    (hl : modulateLane s.par.accFmt s.cfg s.dp.left xL = .ok (l, bL))
    (hr : modulateLane s.par.accFmt s.cfg s.dp.right xR = .ok (r, bR)) :
    ∃ a b c, exec (.modulate .left xL) s = .next a ∧ a.ret = .bit bL ∧ exec (.modulate .right xR) a = .next b ∧
      b.ret = .bit bR ∧ exec (.packBit .left bL) b = .next c ∧ exec (.packBit .right bR) c = .next (s.packed l r bL bR) :=
  ⟨s.withLane .left l (.bit bL), _, _, exec_modulate_withLane hl, rfl, exec_modulate_withLane hr, rfl,
    exec_packBit_withLane rfl, exec_packBit_withLane (l := r) rfl⟩

/-- Settles O32: each operation answers what the part of STEP it stands for computes; between them only the result wire
differs. -/
theorem stepIsItsParts : Obligations.StepIsItsParts := by
  intro s t hstep
  have hrun := ofExcept_next.1 hstep
  obtain ⟨dp, hdp, -⟩ := stepOp_dp hrun
  obtain ⟨ht, hkept, hemit⟩ := stepOp_slots hrun hdp
  obtain ⟨hi, -⟩ := stepDatapath_frame hdp
  obtain ⟨xL, xR, l, bL, r, bR, hxL, hxR, hl, hr, hclose⟩ := stepDatapath_cases hdp
  obtain ⟨a, b, c, ha, hbL, hb, hbR, hc, hd⟩ := exec_modulate_packBit hl hr
  refine ⟨xL, xR, bL, bR, a, b, c, s.packed l r bL bR, { s.packed l r bL bR with dp := dp },
    { s.packed l r bL bR with dp := dp, slots := t.slots }, ofExcept_map_ok hxL, ofExcept_map_ok hxR,
    ha, hbL, hb, hbR, hc, hd, ?closeHalf, ?emitGroup, ?frame, ?datapath, ?index⟩
  case closeHalf =>
    rw [hclose]
    simp only [posOf_eq_31_iff]
    split <;> rfl
  case emitGroup =>
    simp only [← eq_63_iff]
    split
    · next h63 =>
      obtain ⟨hroom, hslots⟩ := hemit h63
      rw [hslots]
      exact congrArg ofExcept (emitGroupOp_ok (s := { s.packed l r bL bR with dp := dp }) hroom)
    · next hne => rw [hkept hne]; rfl
  case frame => rw [ht]; rfl
  case datapath => rw [ht]; rfl
  case index => rw [ht, advanceStep_i, hi, BitVec.toNat_add]; rfl

/-- Settles O33: what keeps the datapath ready is that MODULATE clamps and that no sample is written. -/
theorem stepCompletes : Obligations.StepCompletes := by
  intro s hready ht hroom
  obtain ⟨dp, hready', hi, htr, hrun⟩ := stepOp_ok ((datapathReady_iff s).1 hready) ht hroom
  obtain ⟨-, hcur, -, -⟩ := stepOp_frame hrun
  refine ⟨_, congrArg ofExcept hrun, rfl, (datapathReady_iff _).2 hready', htr, hcur, hi, fun ch => ?_, fun hne => if_neg hne⟩
  obtain ⟨hcur', hnxt, hq, hsh⟩ := stepOp_laneStepped hrun ch
  exact ⟨hcur', hnxt, hq, hsh⟩

/-! ### TRANSITION (R158) -/

theorem execAll_replicate_step (n : Nat) (s : State) :
    execAll (List.replicate n .step) s = ofExcept (repeatOp stepOp n s) := by
  induction n generalizing s with
  | zero => rfl
  | succ n ih =>
    have hstep : exec .step s = ofExcept (stepOp s) := rfl
    rw [List.replicate_succ, execAll, repeatOp, hstep]
    cases stepOp s with
    | ok u => exact ih u
    | error e => rfl

theorem transitionOp_eq_ok_iff {s t : State} :
    transitionOp s = .ok t ↔ ∃ u, repeatOp stepOp 64 s = .ok u ∧ t = { u with dp := takeFrame u.dp } := by
  refine ⟨transitionOp_cases, fun ⟨u, hu, ht⟩ => ?_⟩
  rw [transitionOp, hu, ht]
  rfl

/-- Settles O34: running 64 STEPs in a list is repeating STEP 64 times, and both stop at the same fault. -/
theorem transitionIsSteps : Obligations.TransitionIsSteps := by
  intro s t
  have hexec : exec .transition s = .next t ↔ transitionOp s = .ok t := ofExcept_next
  rw [hexec, transitionOp_eq_ok_iff, execAll_replicate_step]
  simp only [ofExcept_next]
  rfl

theorem takeFrame_lane (dp : Datapath) (ch : Channel) :
    (takeFrame dp).lane ch = { dp.lane ch with cur := (dp.lane ch).nxt } := by cases ch <;> rfl

/-- No STEP writes `nxt`, so after a TRANSITION both samples of a channel are the `nxt` it started with. -/
theorem transitionOp_samples {s t : State} (h : transitionOp s = .ok t) (ch : Channel) :
    (t.dp.lane ch).cur = (s.dp.lane ch).nxt ∧ (t.dp.lane ch).nxt = (s.dp.lane ch).nxt := by
  obtain ⟨u, hu, rfl⟩ := transitionOp_cases h
  have hnxt : (u.dp.lane ch).nxt = (s.dp.lane ch).nxt :=
    repeatOp_keeps (fun a => (a.dp.lane ch).nxt = (s.dp.lane ch).nxt)
      (fun a b ha hb => (stepOp_laneStepped hb ch).nxt.trans ha) 64 s u rfl hu
  rw [takeFrame_lane]
  exact ⟨hnxt, hnxt⟩

/-- After step 63 the second half's words are the shift registers (42_bit_packer.md R174). -/
theorem stepOp_closes_second_half {s t : State} (h : stepOp s = .ok t) (hi : s.dp.i = 63) (ch : Channel) :
    (channelWords t.dp.wg ch).2 = (t.dp.lane ch).sh := by
  obtain ⟨dp, hdp, ht, -⟩ := stepOp_dp h
  obtain ⟨x, l, b, packed, -, -, -, -, hpi, -, rfl⟩ := stepDatapath_lane hdp ch
  have hhalf : halfOf packed.i = true := by rw [hpi, hi]; decide
  rw [if_pos (show posOf s.dp.i = 31 by rw [hi]; decide)] at ht
  rw [ht, advanceStep_wg, advanceStep_lane, closeHalfDp_lane, channelWords_closeHalfDp, if_pos hhalf]

theorem repeatOp_one {α : Type} (op : α → Except Fault α) (a : α) : repeatOp op 1 a = op a := by
  rw [repeatOp]
  cases op a <;> rfl

/-- A TRANSITION that ends at `i` = 0 has closed the second half with its last STEP. -/
theorem transitionOp_second_half {s t : State} (h : transitionOp s = .ok t) (hi : t.dp.i = 0) (ch : Channel) :
    (channelWords t.dp.wg ch).2 = (t.dp.lane ch).sh := by
  obtain ⟨u, hu, rfl⟩ := transitionOp_cases h
  rw [show 64 = 63 + 1 from rfl, repeatOp_add] at hu
  obtain ⟨v, -, hlast⟩ := except_bind_ok.1 hu
  rw [repeatOp_one] at hlast
  obtain ⟨-, -, -, hnext⟩ := stepOp_frame hlast
  have h63 : v.dp.i = 63 := by
    have hzero : v.dp.i + 1 = 0 := hnext.symm.trans hi
    bv_omega
  rw [takeFrame_lane]
  exact stepOp_closes_second_half hlast h63 ch

/-- What the pool holds after a group has been appended to slot `j`: the group, counted, and everything else as before
(42_bit_packer.md R176). -/
theorem reads_of_appendGroup {m m' : Memory} {j : Nat} {g : WordGroup} (hwf : m.wf = true)
    (hm : m' = m.write j ((m.read j).appendGroup g)) :
    (m'.read j).group (m.read j).nGroups = some g ∧ (m'.read j).nGroups = (m.read j).nGroups + 1 ∧
      (∀ n, n ≠ (m.read j).nGroups → (m'.read j).group n = (m.read j).group n) ∧ (m'.read j).state = (m.read j).state ∧
      (m'.read j).nFrames = (m.read j).nFrames ∧ (m'.read j).frames = (m.read j).frames ∧
      ∀ k, k ≠ j → m'.read k = m.read k := by
  have hj : m'.read j = (m.read j).appendGroup g := hm ▸ read_write_same m j _ hwf
  rw [hj]
  exact ⟨group_appendGroup_same _ g, rfl, group_appendGroup_other _ g, rfl, rfl, rfl,
    fun k hk => hm ▸ read_write_other m j k _ hwf hk⟩

/-- Settles O35: the group is read back from the pool, and the samples and the words of the second half follow from what each
STEP does. -/
theorem transitionCompletes : Obligations.TransitionCompletes := by
  intro s j v hwf hready ht hi hroom
  obtain ⟨dp, hready', hi', hrun⟩ := transitionOp_ok ((datapathReady_iff s).1 hready) ht hi hroom
  obtain ⟨-, hcur, htr⟩ := transitionOp_frame hrun
  exact ⟨_, congrArg ofExcept hrun, rfl, (datapathReady_iff _).2 hready', hi', hcur, htr, transitionOp_samples hrun,
    transitionOp_second_half hrun hi' .left, transitionOp_second_half hrun hi' .right, reads_of_appendGroup hwf rfl⟩

/-! ### PROCESS_FRAME on the first Frame (R155) -/

theorem processFrameOp_first {s : State} {x : Frame} (hx : (procSlot s).frame s.procIdx = some x)
    (hcur : s.dp.haveCur = false) :
    processFrameOp s = .ok { s with dp := storeFirst (loadFrame s.dp x), procIdx := s.procIdx + 1 } := by
  have huse : useFrame { s with dp := loadFrame s.dp x } = .ok { s with dp := storeFirst (loadFrame s.dp x) } :=
    if_neg (Bool.eq_false_iff.1 hcur)
  rw [processFrameOp, hx]
  simp only [huse, except_ok_bind]

/-- Settles O10: without a previous Frame there is no transition to run. -/
theorem firstFrameStored : Obligations.FirstFrameStored := by
  intro s x v hphase howner hidx hx hcur
  have hguard : canProcess s = true := (canProcess_iff s).2 ⟨(live_iff s).2 hphase, howner, hidx⟩
  rw [exec_processFrame_enabled hguard, processFrameOp_first hx hcur]
  rfl

end Sys2Proof.Machine

/-! ## 42_bit_packer.md: packing bits, closing a half, emitting a group -/

namespace Sys2Proof.Machine

/-! ### EMIT_GROUP (R176) -/

theorem exec_emitGroup {s : State} (h : (procSlot s).nGroups < s.par.batchCap) :
    exec .emitGroup s = .next
      { s with slots := s.slots.write (slotIndex s.par s.procSeq) ((procSlot s).appendGroup s.dp.wg) } :=
  congrArg ofExcept (emitGroupOp_ok h)

/-- Settles O31: with room in the slot EMIT_GROUP is one write to the pool, and the reads after it are those of an appended
group. -/
theorem emitGroupResult : Obligations.EmitGroupResult := by
  intro s j v hwf hroom
  exact ⟨_, exec_emitGroup hroom, rfl, reads_of_appendGroup hwf rfl⟩

/-! ### The bytes of a group (R178, R181) -/

/-- Byte `k` of a word, counted from the most significant one. -/
theorem wordBytes_getElem? (w : OutWord) {k : Nat} (hk : k < 4) :
    (wordBytes w)[k]? = some (w.extractLsb' (24 - 8 * k) 8) := by
  match k with
  | 0 | 1 | 2 | 3 => rfl

theorem streamBytes_cons (w : OutWord) (ws : List OutWord) : streamBytes (w :: ws) = wordBytes w ++ streamBytes ws :=
  List.flatMap_cons

/-- Word `j` of the sequence is the bytes `4 * j` to `4 * j + 3` of the stream. -/
theorem streamBytes_getElem? (ws : List OutWord) (j : Nat) {k : Nat} (hk : k < 4) :
    (streamBytes ws)[4 * j + k]? = ws[j]?.map (·.extractLsb' (24 - 8 * k) 8) := by
  induction ws generalizing j with
  | nil => rfl
  | cons w ws ih =>
    have hlen : (wordBytes w).length = 4 := rfl
    rw [streamBytes_cons]
    cases j with
    | zero =>
      rw [Nat.mul_zero, Nat.zero_add, List.getElem?_append_left (hlen ▸ hk), wordBytes_getElem? w hk, List.getElem?_cons_zero,
        Option.map_some]
    | succ j =>
      rw [List.getElem?_append_right (by omega), hlen, show 4 * (j + 1) + k - 4 = 4 * j + k by omega, ih,
        List.getElem?_cons_succ]

/-- The word of a group that holds channel `ch`'s bit of step `t`: the left word of a half stands before the right one. -/
def groupWordIndex (ch : Channel) (t : Nat) : Nat := 2 * (t / 32) + (match ch with | .left => 0 | .right => 1)

theorem groupByteIndex_eq (ch : Channel) (t : Nat) : groupByteIndex ch t = 4 * groupWordIndex ch t + t % 32 / 8 := by
  cases ch <;> simp only [groupByteIndex, groupWordIndex] <;> omega

theorem words_getElem?_groupWordIndex (g : WordGroup) (ch : Channel) {t : Nat} (ht : t < 64) :
    g.words[groupWordIndex ch t]? = some (if t < 32 then (channelWords g ch).1 else (channelWords g ch).2) := by
  split
  · next hfirst =>
    simp only [groupWordIndex, Nat.div_eq_of_lt hfirst]
    cases ch <;> rfl
  · next hsecond =>
    have hhalf : t / 32 = 1 := by omega
    simp only [groupWordIndex, hhalf]
    cases ch <;> rfl

/-- The bit of step `t` in its byte is the bit of position `t mod 32` in its word (30_encoding.md R97). -/
theorem getLsbD_byte_of_step (w : OutWord) (t : Nat) :
    (w.extractLsb' (24 - 8 * (t % 32 / 8)) 8).getLsbD (7 - t % 8) = w.getLsbD (31 - t % 32) := by
  rw [BitVec.getLsbD_extractLsb', decide_eq_true (by omega), Bool.true_and]
  congr 1
  omega

theorem groupBit_streamBytes (g : WordGroup) (ch : Channel) {t : Nat} (ht : t < 64) :
    groupBit (streamBytes g.words) ch t =
      some ((if t < 32 then (channelWords g ch).1 else (channelWords g ch).2).getLsbD (31 - t % 32)) := by
  rw [groupBit, groupByteIndex_eq, streamBytes_getElem? _ _ (by omega), words_getElem?_groupWordIndex g ch ht,
    Option.map_some, Option.map_some, getLsbD_byte_of_step]

/-- Settles O59: the bit is looked up in its word, and the two channels' words are those of `channelWords`. -/
theorem groupBytesDecode : Obligations.GroupBytesDecode :=
  fun g _ ht => ⟨groupBit_streamBytes g .left ht, groupBit_streamBytes g .right ht⟩

/-! ### PACK_BIT (R172) -/

/-- Settles O28: PACK_BIT is the shift of the register by one place. -/
theorem packBitResult : Obligations.PackBitResult := by
  intro s ch b
  refine ⟨(s.dp.lane ch).sh.shiftConcat b, ?runs, ?newBit, fun k hk => ?oldBit⟩
  case runs => rw [exec_packBit, packLane_eq_shiftConcat]
  case newBit => rw [BitVec.getLsbD_shiftConcat, if_pos rfl, decide_eq_true (Nat.zero_lt_succ _), Bool.true_and]
  case oldBit =>
    rw [BitVec.getLsbD_shiftConcat, decide_eq_true (by omega), if_neg (Nat.succ_ne_zero k), Bool.true_and, Nat.add_sub_cancel]

/-! ### CLOSE_HALF (R174) -/

theorem halfOf_eq_decide (i : BitVec 6) : halfOf i = decide (32 ≤ i.toNat) := BitVec.msb_eq_decide i

theorem closeHalfDp_first {dp : Datapath} (h : dp.i.toNat < 32) :
    closeHalfDp dp = { dp with wg := { dp.wg with w0 := dp.left.sh, w1 := dp.right.sh } } :=
  if_neg (by rw [halfOf_eq_decide, decide_eq_true_eq]; omega)

theorem closeHalfDp_second {dp : Datapath} (h : 32 ≤ dp.i.toNat) :
    closeHalfDp dp = { dp with wg := { dp.wg with w2 := dp.left.sh, w3 := dp.right.sh } } :=
  if_pos (by rw [halfOf_eq_decide, decide_eq_true_eq]; exact h)

theorem exec_closeHalf (s : State) : exec .closeHalf s = .next { s with dp := closeHalfDp s.dp } := rfl

/-- Settles O30: bit 5 of the step index names the half. -/
theorem closeHalfResult : Obligations.CloseHalfResult := by
  refine fun s => ⟨fun hfirst => ?_, fun hsecond => ?_⟩
  · rw [exec_closeHalf, closeHalfDp_first hfirst]
  · rw [exec_closeHalf, closeHalfDp_second hsecond]

end Sys2Proof.Machine

/-! ## 43_pipeline_coordinator.md: the guards and what each operation of the coordinator does -/

namespace Sys2Proof.Machine

/-! ### An operation whose guard holds -/

section Enabled

variable {s : State}

theorem exec_pushFrame_enabled (h : canTake s = true) (l r : Sample) :
    exec (.pushFrame l r) s = .next (framePushed l r s) := if_pos h

theorem exec_endStream_enabled (h : canTake s = true) :
    exec .endStream s = .next (raiseEvent .endOfStream { s with eosSeen := true, phase := .drain }) := if_pos h

theorem exec_closeBatch_enabled (h : canClose s = true) : exec .closeBatch s = .next (batchClosed s) := if_pos h

theorem exec_processDone_enabled (h : canDone s = true) : exec .processDone s = .next (batchProcessed s) := if_pos h

theorem exec_popWord_enabled (h : canOffer s = true) {w : OutWord} (hw : offeredWord s = some w) :
    exec .popWord s = .next (wordDelivered w s) := by
  rw [exec, execPopWord, if_pos h, hw]
  rfl

theorem exec_popFail_enabled (h : canOffer s = true) :
    exec .popFail s = .next (enterOutputFailure (raiseEvent (.outputFailure s.emitSeq s.emitIdx) s)) := if_pos h

theorem exec_abort_enabled (h : canOffer s = true) : exec .abort s = .next (enterOutputFailure s) := if_pos h

theorem exec_writeDone_enabled (h : canWriteDone s = true) : exec .writeDone s = .next (batchEmitted s) := if_pos h

theorem exec_release_enabled (h : canRelease s = true) : exec .release s = .next (slotReleased s) := if_pos h

theorem exec_finish_enabled (h : canFinish s = true) : exec .finish s = .next { s with phase := .done } := if_pos h

end Enabled

/-! ### An operation whose guard does not hold (R193) -/

/-- The agent waits and no state changes (log 3); CLAIM by a role that does not exist is refused instead (log 15). -/
theorem exec_disabled {s : State} {i : Instr} (h : enabled s i = false)
    (hrole : ∀ k, i = .claim k → k < s.par.nCompute) : exec i s = .next s := by
  have hguard := Bool.eq_false_iff.1 h
  cases i with
  | loadCfg idx data => exact if_neg hguard
  | pushFrame l r => exact if_neg hguard
  | endStream => exact if_neg hguard
  | popWord => exact if_neg hguard
  | popFail => exact if_neg hguard
  | sanitize x => exact if_neg hguard
  | closeBatch => exact if_neg hguard
  | claim k => exact (if_pos (hrole k rfl)).trans (if_neg hguard)
  | processFrame => exact if_neg hguard
  | processDone => exact if_neg hguard
  | writeDone => exact if_neg hguard
  | release => exact if_neg hguard
  | finish => exact if_neg hguard
  | abort => exact if_neg hguard
  | _ => exact absurd rfl hguard

theorem ended_iff (s : State) : ended s = true ↔ s.phase = .done ∨ s.phase = .aborted := by
  simp only [ended, Bool.or_eq_true, beq_iff_eq]

/-- In DONE and ABORTED no operation of the coordinator is enabled. -/
theorem enabled_of_ended {s : State} (h : ended s = true) {i : Instr} (hi : coordinatorOp i = true) : enabled s i = false := by
  obtain ⟨htake, hclose, hclaim, hprocess, hdone, hoffer, hwriteDone, hrelease, hfinish, hsanitize, -⟩ := guards_of_ended h
  cases i with
  | pushFrame l r => exact htake
  | endStream => exact htake
  | popWord => exact hoffer
  | popFail => exact hoffer
  | sanitize x => exact hsanitize
  | closeBatch => exact hclose
  | claim k => exact hclaim
  | processFrame => exact hprocess
  | processDone => exact hdone
  | writeDone => exact hwriteDone
  | release => exact hrelease
  | finish => exact hfinish
  | abort => exact hoffer
  | _ => cases hi

/-- Nor is LOAD_CFG, so the agents can only reset and read (44_system.md R237). -/
theorem agentOp_of_ended {s : State} (h : ended s = true) {i : Instr} (hi : agentOp i = true) (hen : enabled s i = true) :
    i = .reset ∨ ∃ idx, i = .readCsr idx := by
  obtain ⟨-, -, -, -, -, -, -, -, -, -, hload⟩ := guards_of_ended h
  have hcoordinator : coordinatorOp i = false := by
    refine Bool.eq_false_iff.2 fun hc => ?_
    rw [enabled_of_ended h hc] at hen
    cases hen
  cases i with
  | reset => exact .inl rfl
  | readCsr idx => exact .inr ⟨idx, rfl⟩
  | loadCfg idx data => exact absurd (hload.symm.trans hen) Bool.false_ne_true
  | pushFrame | endStream | popWord | popFail | closeBatch | claim | processFrame | processDone | writeDone | release | finish =>
    cases hcoordinator
  | _ => cases hi

theorem mustClose_iff (s : State) :
    mustClose s = true ↔ canClose s = true ∧ (s.fillCnt = s.par.batchCap ∨ s.eosSeen = true) := by
  simp only [mustClose, Bool.and_eq_true, Bool.or_eq_true, decide_eq_true_eq]

/-- Settles O17: each row of the table is one guard, read as a proposition. -/
theorem guardTable : Obligations.GuardTable := by
  intro s live jf jp je take offer
  have hlive := live_iff s
  have htake : canTake s = true ↔ take := canTake_iff s
  have hoffer : canOffer s = true ↔ offer := (canOffer_iff s).trans (and_congr_left' hlive)
  have hclose : canClose s = true ↔ live ∧ 1 ≤ s.fillCnt := (canClose_iff s).trans (and_congr_left' hlive)
  exact ⟨fun _ _ => htake, htake, hclose, (mustClose_iff s).trans (and_congr_left' hclose),
    fun _ => (canClaim_iff s).trans (and_congr_left' hlive), (canProcess_iff s).trans (and_congr_left' hlive),
    (canDone_iff s).trans (and_congr_left' hlive), hoffer, hoffer, (canWriteDone_iff s).trans (and_congr_left' hlive),
    (canRelease_iff s).trans (and_congr_left' hlive), canFinish_iff s,
    fun hended _ hi => enabled_of_ended ((ended_iff s).2 hended) hi, fun _ h hrole => exec_disabled h hrole⟩

/-! ### SANITIZE (R197) -/

/-- A pattern is not finite exactly when its exponent field is all ones. -/
theorem isFinite32_eq_not_beq (x : Sample) : isFinite32 x = !(x.extractLsb' 23 8 == 0xFF) := decide_not

theorem sanitizeValue_eq_ite (x : Sample) : sanitizeValue x = if x.extractLsb' 23 8 = 0xFF then 0 else x := by
  simp only [sanitizeValue, isFinite32_eq_not_beq, Bool.not_eq_true', beq_eq_false_iff_ne, ite_not]

/-- The record SANITIZE makes, finite sample or not, as one update. -/
theorem noteSample_eq (ch : Option Channel) (x : Sample) (s : State) :
    noteSample ch x s = { s with
      nonfiniteSeen := s.nonfiniteSeen || !isFinite32 x
      raised := s.raised ++ if isFinite32 x then [] else [.nonfiniteInput ch x] } := by
  unfold noteSample
  split <;> simp [*, raiseEvent]

theorem exec_sanitize_enabled {s : State} (h : canSanitize s = true) (x : Sample) :
    exec (.sanitize x) s = .next { noteSample none x s with ret := .sample (sanitizeValue x) } := if_pos h

/-- Settles O6: SANITIZE waits in DONE and ABORTED, and what it answers elsewhere depends on whether the sample is finite. -/
theorem sanitizeResult : Obligations.SanitizeResult := by
  intro s x gone
  have hguard : canSanitize s = true ↔ ¬gone := (canSanitize_iff s).trans not_or.symm
  refine ⟨fun hgone => ?waits, fun hlive hfinite => ?passes, fun hlive hnonfinite => ?replaced⟩
  case waits => exact exec_disabled (Bool.eq_false_iff.2 fun h => hguard.1 h hgone) (fun _ h => nomatch h)
  case passes =>
    rw [exec_sanitize_enabled (hguard.2 hlive), noteSample_eq, sanitizeValue_eq_ite, if_neg hfinite, isFinite32_eq_not_beq,
      beq_false_of_ne hfinite]
    simp
  case replaced =>
    refine ⟨none, ?_⟩
    rw [exec_sanitize_enabled (hguard.2 hlive), noteSample_eq, sanitizeValue_eq_ite, if_pos hnonfinite,
      isFinite32_eq_not_beq, hnonfinite]
    simp

/-! ### PUSH_FRAME (R196) and END_STREAM (R198) -/

theorem framePushed_eq {s : State} (hphase : s.phase = .idle ∨ s.phase = .run) (l r : Sample) :
    framePushed l r s = { s with
      slots := s.slots.write (slotIndex s.par s.fillSeq)
        ((fillSlot s).putFrame s.fillCnt ⟨sanitizeValue l, sanitizeValue r⟩)
      fillCnt := s.fillCnt + 1
      nFramesIn := s.nFramesIn + 1
      inStream := s.inStream ++ [⟨l, r⟩]
      phase := .run
      nonfiniteSeen := s.nonfiniteSeen || !isFinite32 l || !isFinite32 r
      raised := s.raised ++ (if isFinite32 l then [] else [.nonfiniteInput (some .left) l]) ++
        if isFinite32 r then [] else [.nonfiniteInput (some .right) r] } := by
  have hrun : (if s.phase = .idle then .run else s.phase) = Phase.run := by rcases hphase with h | h <;> simp [h]
  rw [framePushed, noteSample_eq, noteSample_eq, hrun]

/-- The slot being filled, after PUSH_FRAME has put its Frame there. -/
theorem framePushed_slots (l r : Sample) (s : State) : (framePushed l r s).slots =
    s.slots.write (slotIndex s.par s.fillSeq) ((fillSlot s).putFrame s.fillCnt ⟨sanitizeValue l, sanitizeValue r⟩) := by
  simp only [framePushed, noteSample_slots]

/-- Settles O5: one write to the slot being filled, and the record SANITIZE makes of each sample. -/
theorem pushFrameResult : Obligations.PushFrameResult := by
  intro s l r j clean note hwf hphase hempty hroom
  have hguard : canTake s = true := (canTake_iff s).2 ⟨hphase, hempty, hroom⟩
  have hslots := framePushed_slots l r s
  rw [sanitizeValue_eq_ite, sanitizeValue_eq_ite] at hslots
  have hread : (framePushed l r s).slots.read j = (s.slots.read j).putFrame s.fillCnt ⟨clean l, clean r⟩ :=
    hslots ▸ read_write_same s.slots j _ hwf
  refine ⟨framePushed l r s, exec_pushFrame_enabled hguard l r, ?update, ?locked, ?stored, fun n hn => ?kept, ?_⟩
  case update =>
    rw [framePushed_eq hphase]
    simp only [isFinite32_eq_not_beq, Bool.not_not, Bool.not_eq_true', beq_eq_false_iff_ne, ite_not, note]
  case locked =>
    rw [framePushed_eq hphase]
    rfl
  case stored => rw [hread, frame_putFrame_same]
  case kept => rw [hread, frame_putFrame_other _ _ _ _ hn]
  rw [hread]
  exact ⟨hempty, rfl, rfl, rfl, fun k hk => hslots ▸ read_write_other s.slots j k _ hwf hk⟩

/-- Settles O7: END_STREAM leaves a phase in which a Batch with a Frame in it has to be closed and no Frame is taken. -/
theorem endStreamResult : Obligations.EndStreamResult := by
  intro s hphase hempty hroom
  have hguard : canTake s = true := (canTake_iff s).2 ⟨hphase, hempty, hroom⟩
  exact ⟨_, exec_endStream_enabled hguard, rfl, rfl,
    fun hcnt => (mustClose_iff _).2 ⟨(canClose_iff _).2 ⟨rfl, hcnt⟩, .inr rfl⟩⟩

/-! ### CLOSE_BATCH (R199) -/

/-- Settles O8: without a Frame the guard fails, and with one the slot is written once. -/
theorem closeBatchResult : Obligations.CloseBatchResult := by
  intro s j
  refine ⟨fun hzero => ?waits, fun hwf hphase hcnt => ?closes⟩
  case waits =>
    have hguard : canClose s = false := Bool.eq_false_iff.2 fun h => by
      have := ((canClose_iff s).1 h).2
      omega
    exact exec_disabled hguard (fun _ h => nomatch h)
  case closes =>
    have hguard : canClose s = true := (canClose_iff s).2 ⟨(live_iff s).2 hphase, hcnt⟩
    have hread := batchClosed_read hwf
    refine ⟨batchClosed s, exec_closeBatch_enabled hguard, rfl, (hread j).trans (if_pos rfl), ?_⟩
    rw [show j = slotIndex s.par s.fillSeq from rfl, hread, if_pos rfl]
    exact ⟨hcnt, fun hcoord => hcoord.fillCntCap, fun k hk => (hread k).trans (if_neg hk)⟩

/-! ### CLAIM (R203) and PROCESS_DONE (R206) -/

theorem exec_claim_enabled {s : State} {k : Nat} (hk : k < s.par.nCompute) (h : canClaim s = true) :
    exec (.claim k) s = .next { s with dpOwner := some k, procIdx := 0 } := (if_pos hk).trans (if_pos h)

/-- Settles O9: a role that exists takes the datapath or waits, as the guard says. -/
theorem claimResult : Obligations.ClaimResult := by
  intro s k g
  have hguard : canClaim s = true ↔ g := (canClaim_iff s).trans (and_congr_left' (live_iff s))
  exact ⟨fun hk hg => exec_claim_enabled hk (hguard.2 hg),
    fun hk hg => exec_disabled (Bool.eq_false_iff.2 (mt hguard.1 hg)) (fun _ h => by cases h; exact hk),
    fun hk => if_neg hk.not_gt⟩

/-- Settles O12: one write, to the slot at `proc_seq`. -/
theorem processDoneResult : Obligations.ProcessDoneResult := by
  intro s j hwf hphase howner hidx
  have hguard : canDone s = true := (canDone_iff s).2 ⟨(live_iff s).2 hphase, howner, hidx⟩
  have hread := batchProcessed_read hwf
  exact ⟨batchProcessed s, exec_processDone_enabled hguard, rfl, (hread j).trans (if_pos rfl),
    fun k hk => (hread k).trans (if_neg hk)⟩

/-! ### POP_WORD (R194, R212) -/

/-- Word `k mod 4` of a group is the one at that place of its emission order (30_encoding.md R98). -/
theorem words_getElem?_mod (g : WordGroup) (k : Nat) : g.words[k % 4]? = some (groupWord g k) := by
  have hlt : k % 4 < 4 := Nat.mod_lt k (by decide)
  unfold groupWord
  generalize k % 4 = n at hlt ⊢
  match n with
  | 0 | 1 | 2 | 3 => rfl

theorem offeredWord_eq_some {s : State} {g : WordGroup} (h : (emitSlot s).group (s.emitIdx / 4) = some g) :
    offeredWord s = some (groupWord g s.emitIdx) := by
  rw [offeredWord, h, Option.map_some]

/-- Settles O13: the word on the port is the one POP_WORD delivers. -/
theorem popWordResult : Obligations.PopWordResult := by
  intro s g w v hphase hstate hidx hgroup hw
  have hguard : canOffer s = true := (canOffer_iff s).2 ⟨(live_iff s).2 hphase, hstate, hidx⟩
  have hoffered : offeredWord s = some w := (offeredWord_eq_some hgroup).trans ((words_getElem?_mod g _).symm.trans hw)
  have hvalid : outValid false s = true := hguard
  exact ⟨hvalid, by rw [outWord, if_pos hvalid, hoffered, Option.getD_some], exec_popWord_enabled hguard hoffered⟩

/-! ### POP_FAIL and ABORT (R213, R218) -/

/-- Settles O14: both enter OUTPUT_FAILURE, and POP_FAIL raises the event first; the phase then shuts every guard. -/
theorem abortResult : Obligations.AbortResult := by
  intro s i hi v hphase hstate hidx
  have hguard : canOffer s = true := (canOffer_iff s).2 ⟨(live_iff s).2 hphase, hstate, hidx⟩
  have hshut : ∀ u, (enterOutputFailure u).dp.haveCur = u.dp.haveCur ∧ inReady false (enterOutputFailure u) = false ∧
      outValid false (enterOutputFailure u) = false ∧
      (∀ k, coordinatorOp k = true → enabled (enterOutputFailure u) k = false) ∧
      ∀ k, agentOp k = true → enabled (enterOutputFailure u) k = true → k = .reset ∨ ∃ idx, k = .readCsr idx :=
    fun u => ⟨rfl, rfl, rfl, fun _ => enabled_of_ended rfl, fun _ => agentOp_of_ended rfl⟩
  obtain rfl | rfl := hi
  · exact ⟨_, exec_popFail_enabled hguard, rfl, hshut _⟩
  · exact ⟨_, exec_abort_enabled hguard, by rw [if_neg (by decide), List.append_nil]; rfl, hshut _⟩

/-! ### WRITE_DONE (R214), RELEASE (R215) and FINISH (R217) -/

theorem batchEmitted_read {s : State} (hwf : s.slots.wf = true) (j : Nat) : (batchEmitted s).slots.read j =
    if j = slotIndex s.par s.emitSeq then { emitSlot s with state := .emitted } else s.slots.read j := by
  rw [batchEmitted, read_write_eq hwf]

theorem slotReleased_read {s : State} (hwf : s.slots.wf = true) (j : Nat) : (slotReleased s).slots.read j =
    if j = slotIndex s.par s.emitSeq then { emitSlot s with state := .empty } else s.slots.read j := by
  rw [slotReleased, read_write_eq hwf]

/-- Settles O15: each is one write, to the slot at `emit_seq`, of its state only. -/
theorem batchIsRecycled : Obligations.BatchIsRecycled := by
  intro s j hwf hphase
  have hlive := (live_iff s).2 hphase
  refine ⟨fun hstate hidx => ?writeDone, fun hstate => ?release⟩
  case writeDone =>
    have hguard : canWriteDone s = true := (canWriteDone_iff s).2 ⟨hlive, hstate, hidx⟩
    have hread := batchEmitted_read hwf
    exact ⟨batchEmitted s, exec_writeDone_enabled hguard, rfl, (hread j).trans (if_pos rfl),
      fun k hk => (hread k).trans (if_neg hk)⟩
  case release =>
    have hguard : canRelease s = true := (canRelease_iff s).2 ⟨hlive, hstate⟩
    have hread := slotReleased_read hwf
    exact ⟨slotReleased s, exec_release_enabled hguard, rfl, (hread j).trans (if_pos rfl),
      fun k hk => (hread k).trans (if_neg hk)⟩

/-- No Compute role holds the datapath while no Batch waits for one. -/
theorem CoordInv.dpOwner_eq_none {s : State} (h : CoordInv s) (hphase : s.phase ≠ .aborted) (hseq : s.procSeq = s.fillSeq) :
    s.dpOwner = none := by
  by_contra howner
  exact (h.owner_procSeq_lt hphase howner).ne hseq

/-- Settles O16: the guard puts all three counters at one number, so no Batch is between them. -/
theorem finishResult : Obligations.FinishResult := by
  intro s hphase hcnt hseq
  refine ⟨exec_finish_enabled ((canFinish_iff s).2 ⟨hphase, hcnt, hseq⟩), fun h => ?_⟩
  have hproc : s.procSeq = s.fillSeq := le_antisymm h.procLeFill (hseq ▸ h.emitLeProc)
  refine ⟨fun j hj => ?_, h.dpOwner_eq_none (by simp [hphase]) hproc, hproc⟩
  obtain ⟨n, hlo, -, -, -, -, -, hempty⟩ := slotStateNamesItsStage s j h hj
  exact hempty.2 (hseq ▸ hlo)

end Sys2Proof.Machine

/-! ## 43_pipeline_coordinator.md R192, R219: a slot's life cycle, and progress in DRAIN -/

namespace Sys2Proof.Machine

/-! ### A slot's life cycle (R192) -/

/-- The changes of a slot's state, with the operation that makes each. -/
def SlotStateMoves (i : Instr) (a b : SlotState) : Prop :=
  b = a ∨ (i = .closeBatch ∧ a = .empty ∧ b = .filled) ∨ (i = .processDone ∧ a = .filled ∧ b = .processed) ∨
    (i = .writeDone ∧ a = .processed ∧ b = .emitted) ∨ (i = .release ∧ a = .emitted ∧ b = .empty)

/-- One slot of the pool is written; the others keep their state. -/
theorem SlotStateMoves.of_read {i : Instr} {m m' : Memory} {k j : Nat} {v : Slot}
    (hread : m'.read j = if j = k then v else m.read j) (h : SlotStateMoves i (m.read k).state v.state) :
    SlotStateMoves i (m.read j).state (m'.read j).state := by
  rw [hread]
  split
  · next hj => rwa [hj]
  · exact .inl rfl

theorem PoolGrows.slotStateMoves {c : Nat} {m m' : Memory} (h : PoolGrows c m m') (i : Instr) (j : Nat) :
    SlotStateMoves i (m.read j).state (m'.read j).state := .inl (h.state j)

/-- The guard of each of the four operations names the state its slot is in; CLOSE_BATCH finds its slot Empty because the ring
has room for the Batch being filled, and PROCESS_DONE finds its slot Filled because the Batch is in work. -/
theorem Effect.slotStateMoves {s t : State} {i : Instr} (he : Effect s i t) (h : CoordInv s) (hi : i ≠ .reset) (j : Nat) :
    SlotStateMoves i (s.slots.read j).state (t.slots.read j).state := by
  cases he with
  | reset => exact absurd rfl hi
  | framePushed hguard =>
    rw [framePushed_slots]
    exact (h.poolGrows_putFrame _ _ _).slotStateMoves _ j
  | sanitized _ => exact .inl (by rw [noteSample_slots])
  | batchClosed hguard =>
    have hroom := h.fillHasSlot ((canClose_iff s).1 hguard).2
    exact .of_read (batchClosed_read h.poolWf j) (.inr (.inl ⟨rfl, h.emptySlots _ le_rfl hroom, rfl⟩))
  | datapath dp m r _ _ hm => exact (h.poolGrows_append hm).slotStateMoves _ j
  | frameProcessed dp m _ _ hm => exact (h.poolGrows_append hm).slotStateMoves _ j
  | batchProcessed hguard =>
    obtain ⟨hlive, howner, -⟩ := (canDone_iff s).1 hguard
    have hbatch := h.owner_procSeq_lt (live_phase hlive).2.2 howner
    exact .of_read (batchProcessed_read h.poolWf j) (.inr (.inr (.inl ⟨rfl, h.filledSlots _ le_rfl hbatch, rfl⟩)))
  | batchEmitted hguard =>
    exact .of_read (batchEmitted_read h.poolWf j) (.inr (.inr (.inr (.inl ⟨rfl, ((canWriteDone_iff s).1 hguard).2.1, rfl⟩))))
  | slotReleased hguard =>
    exact .of_read (slotReleased_read h.poolWf j) (.inr (.inr (.inr (.inr ⟨rfl, ((canRelease_iff s).1 hguard).2, rfl⟩))))
  | popFailed _ => exact .inl (freeSlots_state _ _ _ j _ h.poolWf)
  | aborted _ => exact .inl (freeSlots_state _ _ _ j _ h.poolWf)
  | _ => exact .inl rfl

/-- Settles O49, operation by operation. -/
theorem slotLifeCycle : Obligations.SlotLifeCycle :=
  fun _ _ _ j h hx hi => (exec_effect hx).slotStateMoves h hi j

/-! ### Progress in DRAIN (R219) -/

theorem live_of_drain {s : State} (h : s.phase = .drain) : live s = true := (live_iff s).2 (.inr h)

/-- The Writer's turn: a Batch is processed and not yet released. -/
theorem CoordInv.writer_moves {s : State} (h : CoordInv s) (hphase : s.phase = .drain) (hseq : s.emitSeq < s.procSeq) :
    canOffer s = true ∨ canWriteDone s = true ∨ canRelease s = true := by
  have hlive := live_of_drain hphase
  rcases h.emittingSlot hseq with hstate | hstate
  · have hcursor := h.emitCursor (by simp [hphase]) hseq
    rcases Nat.lt_or_eq_of_le hcursor with hlt | heq
    · exact .inl ((canOffer_iff s).2 ⟨hlive, hstate, hlt⟩)
    · exact .inr (.inl ((canWriteDone_iff s).2 ⟨hlive, hstate, heq⟩))
  · exact .inr (.inr ((canRelease_iff s).2 ⟨hlive, hstate⟩))

/-- Compute's turn: a Batch is closed and not yet processed. -/
theorem CoordInv.compute_moves {s : State} (h : CoordInv s) (hphase : s.phase = .drain) (hseq : s.procSeq < s.fillSeq) :
    canClaim s = true ∨ canProcess s = true ∨ canDone s = true := by
  have hlive := live_of_drain hphase
  by_cases howner : s.dpOwner = none
  · exact .inl ((canClaim_iff s).2 ⟨hlive, howner, h.filledSlots _ le_rfl hseq⟩)
  · have hcursor := h.procCursor (by simp [hphase]) howner
    rcases Nat.lt_or_eq_of_le hcursor with hlt | heq
    · exact .inr (.inl ((canProcess_iff s).2 ⟨hlive, howner, hlt⟩))
    · exact .inr (.inr ((canDone_iff s).2 ⟨hlive, howner, heq⟩))

theorem CoordInv.nCompute_pos {s : State} (h : CoordInv s) : 0 < s.par.nCompute := by
  have hlegal := h.params
  simp only [Params.legal, Bool.and_eq_true, decide_eq_true_eq] at hlegal
  obtain ⟨⟨-, hcompute⟩, -⟩ := hlegal
  exact hcompute

/-- Settles O52: a Batch with a Frame in it is the Reader's to close; otherwise the first of the Batches not yet released is
Compute's or the Writer's, and without one the stream is finished. -/
theorem drainAlwaysMoves : Obligations.DrainAlwaysMoves := by
  intro s h hphase
  have hclaim : (Instr.claim 0).wellFormed s.par = true := by simp [Instr.wellFormed, h.nCompute_pos]
  rcases Nat.eq_zero_or_pos s.fillCnt with hcnt | hcnt
  · rcases Nat.lt_or_eq_of_le h.emitLeProc with hwriter | hwritten
    · obtain hmove | hmove | hmove := h.writer_moves hphase hwriter
      · exact ⟨.popWord, by simp, rfl, hmove⟩
      · exact ⟨.writeDone, by simp, rfl, hmove⟩
      · exact ⟨.release, by simp, rfl, hmove⟩
    · rcases Nat.lt_or_eq_of_le h.procLeFill with hcompute | hcomputed
      · obtain hmove | hmove | hmove := h.compute_moves hphase hcompute
        · exact ⟨.claim 0, by simp, hclaim, hmove⟩
        · exact ⟨.processFrame, by simp, rfl, hmove⟩
        · exact ⟨.processDone, by simp, rfl, hmove⟩
      · exact ⟨.finish, by simp, rfl, (canFinish_iff s).2 ⟨hphase, hcnt, hwritten.trans hcomputed⟩⟩
  · exact ⟨.closeBatch, by simp, rfl, (canClose_iff s).2 ⟨live_of_drain hphase, hcnt⟩⟩

end Sys2Proof.Machine

/-! ## 43_pipeline_coordinator.md R205: PROCESS_FRAME on every later Frame -/

namespace Sys2Proof.Machine

/-- With a previous Frame, PROCESS_FRAME is the TRANSITION of the loaded Frame and a count. -/
theorem processFrameOp_later {s u : State} {x : Frame} (hx : (procSlot s).frame s.procIdx = some x)
    (hcur : s.dp.haveCur = true) (hrun : transitionOp { s with dp := loadFrame s.dp x } = .ok u) :
    processFrameOp s = .ok { u with procIdx := u.procIdx + 1 } := by
  have huse : useFrame { s with dp := loadFrame s.dp x } = .ok u := (if_pos hcur).trans hrun
  rw [processFrameOp, hx]
  simp only [huse, except_ok_bind]

/-- Whatever `nxt` held, loading a finite Frame over it makes a bounded datapath with finite `cur` ready. -/
theorem loadFrame_ready_of_cur {f : AccFmt} {cfg : CfgRegs} {dp : Datapath} {x : Frame} (hc : cfg.legal f = true)
    (hbounded : ∀ ch, (dp.lane ch).bounded f cfg.limit = true) (hcur : ∀ ch, isFinite32 (dp.lane ch).cur = true)
    (hleft : isFinite32 x.left = true) (hright : isFinite32 x.right = true) : DatapathReady f cfg (loadFrame dp x) := by
  refine ⟨hc, fun ch => ?_⟩
  cases ch with
  | left => exact ⟨hbounded .left, Bool.and_eq_true_iff.2 ⟨hcur .left, hleft⟩⟩
  | right => exact ⟨hbounded .right, Bool.and_eq_true_iff.2 ⟨hcur .right, hright⟩⟩

/-- Settles O11: the loaded Frame's TRANSITION runs, and PROCESS_FRAME adds the count to what it leaves. -/
theorem laterFrameRuns : Obligations.LaterFrameRuns := by
  intro s x f j v hwf hphase howner hidx hx hcur hi hroom hc hbl hbr hcl hcr hxl hxr
  have hguard : canProcess s = true := (canProcess_iff s).2 ⟨(live_iff s).2 hphase, howner, hidx⟩
  have hloaded : DatapathReady f s.cfg (loadFrame s.dp x) :=
    loadFrame_ready_of_cur hc (fun ch => by cases ch; exacts [hbl, hbr]) (fun ch => by cases ch; exacts [hcl, hcr]) hxl hxr
  obtain ⟨dp, hready, hi', hrun⟩ := transitionOp_ok (s := { s with dp := loadFrame s.dp x }) hloaded rfl hi hroom
  obtain ⟨-, hcur', htr⟩ := transitionOp_frame hrun
  have hsamples := transitionOp_samples hrun
  obtain ⟨hgroup, hcount, hgroups, hstate, hnFrames, hframes, hother⟩ :=
    reads_of_appendGroup (j := j) (g := dp.wg) hwf rfl
  exact ⟨_, _, (exec_processFrame_enabled hguard).trans (congrArg ofExcept (processFrameOp_later hx hcur hrun)),
    congrArg ofExcept hrun, rfl, rfl, hcur'.trans hcur, hi', htr, (hsamples .left).1, (hsamples .right).1,
    (hready.2 .left).1, (hready.2 .right).1, hcount, hgroup, hgroups, hstate, hnFrames, hframes, hother⟩

end Sys2Proof.Machine

/-! ## 43_pipeline_coordinator.md R220: the reference function -/

namespace Sys2Proof.Machine

/-- Taking the Frames `xs` one by one brings the reference function from `dp` to `dp'` and appends the words `ws`. -/
inductive GoldenRun (f : AccFmt) (cfg : CfgRegs) (dp : Datapath) : List Frame → Datapath → List OutWord → Prop where
  | start : GoldenRun f cfg dp [] dp []
  | frame {xs dp₁ ws x dp₂ vs} : GoldenRun f cfg dp xs dp₁ ws → goldenFrame f cfg dp₁ x = .ok (dp₂, vs) →
      GoldenRun f cfg dp (xs ++ [x]) dp₂ (ws ++ vs)

section Golden

variable {f : AccFmt} {cfg : CfgRegs} {dp dp' : Datapath}

theorem goldenFrom_cons {x : Frame} {vs : List OutWord} (h : goldenFrame f cfg dp x = .ok (dp', vs)) (ys : List Frame) :
    goldenFrom f cfg dp (x :: ys) = (goldenFrom f cfg dp' ys).map (vs ++ ·) := by
  rw [goldenFrom, h]
  cases hrest : goldenFrom f cfg dp' ys <;> simp [hrest, Except.map]

/-- After the Frames of a run the reference function goes on from the datapath the run has come to. -/
theorem GoldenRun.goldenFrom_append {xs : List Frame} {ws : List OutWord} (h : GoldenRun f cfg dp xs dp' ws) (ys : List Frame) :
    goldenFrom f cfg dp (xs ++ ys) = (goldenFrom f cfg dp' ys).map (ws ++ ·) := by
  induction h generalizing ys with
  | start =>
    rw [List.nil_append]
    cases goldenFrom f cfg dp ys <;> rfl
  | @frame xs dp₁ ws x dp₂ vs _ hframe ih =>
    rw [List.append_assoc, List.singleton_append, ih, goldenFrom_cons hframe]
    cases goldenFrom f cfg dp₂ ys with
    | ok us => simp only [Except.map, List.append_assoc]
    | error e => rfl

theorem GoldenRun.goldenFrom_eq {xs : List Frame} {ws : List OutWord} (h : GoldenRun f cfg dp xs dp' ws) :
    goldenFrom f cfg dp xs = .ok ws := by
  have hall := h.goldenFrom_append []
  rwa [List.append_nil, goldenFrom, Except.map, List.append_nil] at hall

/-! ### The reference function runs on a legal configuration (40_modulator.md R138, 41_interpolator.md R154) -/

theorem goldenStep_runs (h : DatapathReady f cfg dp) (ht : dp.inTransition = true) :
    ∃ d, goldenStep f cfg dp = .ok d ∧ DatapathReady f cfg d ∧ d.inTransition = true ∧ d.haveCur = dp.haveCur := by
  obtain ⟨d, hd⟩ := stepDatapath_runs h ht
  obtain ⟨-, hcur, htr⟩ := stepDatapath_frame hd
  have hready := stepDatapath_ready h ht hd
  exact ⟨advanceStep d, by rw [goldenStep, hd]; rfl, ⟨hready.1, fun ch => (advanceStep_lane d ch).symm ▸ hready.2 ch⟩,
    htr.trans ht, hcur⟩

theorem goldenTransition_runs (h : DatapathReady f cfg dp) (ht : dp.inTransition = true) :
    ∃ d, goldenTransition f cfg dp = .ok d ∧ DatapathReady f cfg d ∧ d.haveCur = dp.haveCur := by
  obtain ⟨d, hd, hready, -, hcur⟩ := repeatOp_runs
    (fun d => DatapathReady f cfg d ∧ d.inTransition = true ∧ d.haveCur = dp.haveCur)
    (fun d ⟨hready, htr, hcur⟩ => by
      obtain ⟨e, he, hready', htr', hcur'⟩ := goldenStep_runs hready htr
      exact ⟨e, he, hready', htr', hcur'.trans hcur⟩) 64 dp ⟨h, ht, rfl⟩
  exact ⟨takeFrame d, by rw [goldenTransition, hd]; rfl, takeFrame_ready hready, hcur⟩

/-- A Frame as PUSH_FRAME stores it (R196). -/
def cleanFrame (x : Frame) : Frame := ⟨sanitizeValue x.left, sanitizeValue x.right⟩

theorem goldenFrame_first (h : dp.haveCur = false) (x : Frame) :
    goldenFrame f cfg dp x = .ok (storeFirst (loadFrame dp (cleanFrame x)), []) := if_neg (Bool.eq_false_iff.1 h)

theorem goldenFrame_later (h : dp.haveCur = true) {x : Frame}
    (hrun : goldenTransition f cfg (loadFrame dp (cleanFrame x)) = .ok dp') :
    goldenFrame f cfg dp x = .ok (dp', dp'.wg.words) := by
  have hmap : goldenFrame f cfg dp x = (goldenTransition f cfg (loadFrame dp (cleanFrame x))).map (fun d => (d, d.wg.words)) :=
    if_pos h
  rw [hmap, hrun]
  rfl

/-- One Frame runs; it is stored, and if there is one before it, it gives four words. -/
theorem goldenFrame_runs (h : DatapathReady f cfg dp) (x : Frame) :
    ∃ d vs, goldenFrame f cfg dp x = .ok (d, vs) ∧ DatapathReady f cfg d ∧ d.haveCur = true ∧
      vs.length = if dp.haveCur then 4 else 0 := by
  have hloaded := loadFrame_ready (x := cleanFrame x) h (isFinite32_sanitizeValue _) (isFinite32_sanitizeValue _)
  by_cases hcur : dp.haveCur = true
  · obtain ⟨d, hd, hready, hcur'⟩ := goldenTransition_runs hloaded rfl
    exact ⟨d, _, goldenFrame_later hcur hd, hready, hcur'.trans hcur, by rw [if_pos hcur]; rfl⟩
  · exact ⟨_, _, goldenFrame_first (Bool.eq_false_iff.2 hcur) x, storeFirst_ready hloaded, rfl, by rw [if_neg hcur]; rfl⟩

/-- Any Frames run, with four words for each but the first of the stream. -/
theorem exists_goldenRun (h : DatapathReady f cfg dp) (xs : List Frame) :
    ∃ d ws, GoldenRun f cfg dp xs d ws ∧ DatapathReady f cfg d ∧ d.haveCur = (dp.haveCur || !xs.isEmpty) ∧
      ws.length = 4 * (xs.length - if dp.haveCur then 0 else 1) := by
  induction xs using List.reverseRecOn with
  | nil => exact ⟨dp, [], .start, h, by simp, by simp⟩
  | append_singleton xs x ih =>
    obtain ⟨d, ws, hrun, hready, hcur, hlen⟩ := ih
    obtain ⟨e, vs, hframe, hready', hcur', hvs⟩ := goldenFrame_runs hready x
    refine ⟨e, ws ++ vs, hrun.frame hframe, hready', by simp [hcur'], ?_⟩
    rw [List.length_append, hlen, hvs, hcur, List.length_append, List.length_singleton]
    cases dp.haveCur <;> cases xs <;> simp <;> omega

end Golden

/-- Settles O54: the run of the longer input is that of the shorter one, and on. -/
theorem goldenIsTotal : Obligations.GoldenIsTotal := by
  intro p c xs ys hc
  obtain ⟨d, ws, hrun, hready, -, hlen⟩ := exists_goldenRun (datapathReady_reset p.qReset hc) xs
  obtain ⟨_, vs, hrun', -⟩ := exists_goldenRun hready ys
  refine ⟨ws, vs, hrun.goldenFrom_eq, ?_, hlen⟩
  rw [golden, hrun.goldenFrom_append, hrun'.goldenFrom_eq]
  rfl

end Sys2Proof.Machine

/-! ## 43_pipeline_coordinator.md R221, R222: what a run delivers

A run has taken some of its Frames through the datapath (`seen`); the others stand in the slots (`framesAhead`). The words of the
Frames seen are delivered or stand in the slots (`wordsAhead`). So the pipeline is at every moment the reference function,
stopped after the Frames seen. -/

namespace Sys2Proof.Machine

/-! ### What a slot holds -/

/-- The first `n` Frames of the slot. An element that holds none stands as silence; in a run each one counted holds one
(`SlotHeld`). -/
def Slot.firstFrames (v : Slot) (n : Nat) : List Frame := (List.range n).map (fun k => (v.frame k).getD ⟨0, 0⟩)

/-- The words of the groups the slot counts, in emission order. -/
def Slot.countedWords (v : Slot) : List OutWord :=
  (List.range v.nGroups).flatMap (fun k => ((v.group k).getD ⟨0, 0, 0, 0⟩).words)

section Slot

variable {v w : Slot}

@[simp] theorem length_firstFrames (v : Slot) (n : Nat) : (v.firstFrames n).length = n := by simp [Slot.firstFrames]

theorem firstFrames_congr (h : w.frames = v.frames) (n : Nat) : w.firstFrames n = v.firstFrames n := by
  simp only [Slot.firstFrames, Slot.frame, h]

theorem firstFrames_getElem? {n k : Nat} {x : Frame} (hk : k < n) (hx : v.frame k = some x) :
    (v.firstFrames n)[k]? = some x := by
  simp [Slot.firstFrames, hk, hx]

theorem firstFrames_putFrame (v : Slot) (n : Nat) (x : Frame) :
    (v.putFrame n x).firstFrames (n + 1) = v.firstFrames n ++ [x] := by
  rw [Slot.firstFrames, List.range_succ, List.map_append, List.map_singleton, frame_putFrame_same, Option.getD_some]
  refine congrArg (· ++ [x]) (List.map_congr_left fun k hk => ?_)
  rw [frame_putFrame_other _ _ _ _ (List.mem_range.1 hk).ne]

theorem countedWords_congr (h : w.groups = v.groups) (hn : w.nGroups = v.nGroups) : w.countedWords = v.countedWords := by
  simp only [Slot.countedWords, Slot.group, h, hn]

theorem countedWords_of_nGroups_eq_zero (h : v.nGroups = 0) : v.countedWords = [] := by
  rw [Slot.countedWords, h]
  rfl

theorem length_flatMap_words (g : Nat → WordGroup) (n : Nat) :
    ((List.range n).flatMap fun k => (g k).words).length = 4 * n := by
  induction n with
  | zero => rfl
  | succ n ih => rw [List.range_succ, List.flatMap_append, List.length_append, ih]; rfl

@[simp] theorem length_countedWords (v : Slot) : v.countedWords.length = 4 * v.nGroups := length_flatMap_words _ _

/-- Word `k` of a sequence of groups is word `k mod 4` of group `k div 4` (R194). -/
theorem flatMap_words_getElem? (g : Nat → WordGroup) {n k : Nat} (hk : k < 4 * n) :
    ((List.range n).flatMap fun j => (g j).words)[k]? = some (groupWord (g (k / 4)) k) := by
  induction n with
  | zero => omega
  | succ n ih =>
    have hlen := length_flatMap_words g n
    rw [List.range_succ, List.flatMap_append, List.flatMap_singleton]
    rcases Nat.lt_or_ge k (4 * n) with hlt | hge
    · rw [List.getElem?_append_left (hlen ▸ hlt), ih hlt]
    · have hdiv : k / 4 = n := by omega
      rw [List.getElem?_append_right (hlen ▸ hge), hlen, show k - 4 * n = k % 4 by omega, hdiv, words_getElem?_mod]

theorem countedWords_getElem? {k : Nat} {g : WordGroup} (hk : k < 4 * v.nGroups) (hg : v.group (k / 4) = some g) :
    v.countedWords[k]? = some (groupWord g k) := by
  rw [Slot.countedWords, flatMap_words_getElem? _ hk, hg, Option.getD_some]

theorem countedWords_appendGroup (v : Slot) (g : WordGroup) : (v.appendGroup g).countedWords = v.countedWords ++ g.words := by
  rw [Slot.countedWords, appendGroup_nGroups, List.range_succ, List.flatMap_append, List.flatMap_singleton,
    group_appendGroup_same, Option.getD_some]
  refine congrArg (· ++ g.words) (List.flatMap_congr fun k hk => ?_)
  rw [group_appendGroup_other _ _ _ (List.mem_range.1 hk).ne]

end Slot

/-! ### What a Batch holds -/

/-- The Frames of Batch `n`, once it is closed. -/
def batchFrames (p : Params) (m : Memory) (n : Nat) : List Frame :=
  (m.read (slotIndex p n)).firstFrames (m.read (slotIndex p n)).nFrames

/-- The words Compute has made of Batch `n` so far. -/
def batchWords (p : Params) (m : Memory) (n : Nat) : List OutWord := (m.read (slotIndex p n)).countedWords

section Batch

variable {m : Memory} {k : Nat} {v : Slot}

/-- What a write leaves alone of the slot it writes, it leaves alone of every slot. -/
theorem read_write_keeps {α : Type} (F : Slot → α) (hwf : m.wf = true) (hv : F v = F (m.read k)) (j : Nat) :
    F ((m.write k v).read j) = F (m.read j) := by
  rw [read_write_eq hwf]
  split
  · next hj => rw [hv, hj]
  · rfl

/-- A write that keeps a slot's Frames changes no Batch's. -/
theorem batchFrames_write (p : Params) (hwf : m.wf = true) (hframes : v.frames = (m.read k).frames)
    (hcount : v.nFrames = (m.read k).nFrames) : batchFrames p (m.write k v) = batchFrames p m :=
  funext fun n => read_write_keeps (fun v => v.firstFrames v.nFrames) hwf (by rw [hcount, firstFrames_congr hframes])
    (slotIndex p n)

/-- A write that keeps a slot's groups changes no Batch's words. -/
theorem batchWords_write (p : Params) (hwf : m.wf = true) (hgroups : v.groups = (m.read k).groups)
    (hcount : v.nGroups = (m.read k).nGroups) : batchWords p (m.write k v) = batchWords p m :=
  funext fun n => read_write_keeps Slot.countedWords hwf (countedWords_congr hgroups hcount) (slotIndex p n)

end Batch

section WritesBatch

variable {s : State} {k a b : Nat} {v : Slot} {m : Memory}

/-- The Batches `a` to `b - 1` are others of the same turn of the ring than Batch `k`. -/
def OtherBatches (s : State) (k a b : Nat) : Prop :=
  ∀ n, a ≤ n → n < b → k < n ∧ n < k + s.par.nSlots ∨ n < k ∧ k < n + s.par.nSlots

theorem WritesBatch.flatMap_batches {α : Type} (F : Slot → List α) (hw : WritesBatch s k v m) (h : OtherBatches s k a b) :
    (List.Ico a b).flatMap (fun n => F (m.read (slotIndex s.par n))) =
      (List.Ico a b).flatMap (fun n => F (s.slots.read (slotIndex s.par n))) := by
  refine List.flatMap_congr fun n hn => ?_
  obtain ⟨ha, hb⟩ := List.Ico.mem.1 hn
  rw [hw.other n (h n ha hb)]

theorem WritesBatch.flatMap_batchFrames (hw : WritesBatch s k v m) (h : OtherBatches s k a b) :
    (List.Ico a b).flatMap (batchFrames s.par m) = (List.Ico a b).flatMap (batchFrames s.par s.slots) :=
  hw.flatMap_batches (fun v => v.firstFrames v.nFrames) h

theorem WritesBatch.flatMap_batchWords (hw : WritesBatch s k v m) (h : OtherBatches s k a b) :
    (List.Ico a b).flatMap (batchWords s.par m) = (List.Ico a b).flatMap (batchWords s.par s.slots) :=
  hw.flatMap_batches Slot.countedWords h

end WritesBatch

/-! ### What the pipeline holds -/

/-- The Frames of the Batches that Compute has not handed over, and of the Batch being filled. -/
def framesHeld (s : State) : List Frame :=
  (List.Ico s.procSeq s.fillSeq).flatMap (batchFrames s.par s.slots) ++ (fillSlot s).firstFrames s.fillCnt

/-- How many of them Compute has processed. -/
def framesTaken (s : State) : Nat := if s.dpOwner = none then 0 else s.procIdx

/-- The Frames accepted and not yet processed, in order. -/
def framesAhead (s : State) : List Frame := (framesHeld s).drop (framesTaken s)

/-- The Batch number after those that hold words: a Batch in work holds some already. -/
def wordsEnd (s : State) : Nat := if s.dpOwner = none then s.procSeq else s.procSeq + 1

/-- The words of the Batches that the Writer has not released. -/
def wordsHeld (s : State) : List OutWord := (List.Ico s.emitSeq (wordsEnd s)).flatMap (batchWords s.par s.slots)

/-- The words made and not yet delivered, in order. -/
def wordsAhead (s : State) : List OutWord := (wordsHeld s).drop s.emitIdx

theorem drop_eq_cons_of_getElem? {α : Type} {l : List α} {n : Nat} {a : α} (h : l[n]? = some a) :
    l.drop n = a :: l.drop (n + 1) := by
  rw [List.drop_eq_getElem?_toList_append, h]
  rfl

theorem flatMap_Ico_succ {α : Type} {a b : Nat} (h : a ≤ b) (g : Nat → List α) :
    (List.Ico a (b + 1)).flatMap g = (List.Ico a b).flatMap g ++ g b := by
  rw [List.Ico.succ_top h, List.flatMap_append, List.flatMap_singleton]

section Held

variable {s : State}

/-- The Batch at `proc_seq` is the first of those whose Frames are held. -/
theorem framesHeld_of_lt (h : s.procSeq < s.fillSeq) :
    framesHeld s = (procSlot s).firstFrames (procSlot s).nFrames ++ framesHeld { s with procSeq := s.procSeq + 1 } := by
  rw [framesHeld, List.Ico.eq_cons h, List.flatMap_cons, List.append_assoc]
  rfl

theorem framesTaken_le (h : CoordInv s) (hphase : s.phase ≠ .aborted) : framesTaken s ≤ (framesHeld s).length := by
  unfold framesTaken
  split
  · exact Nat.zero_le _
  · next howner =>
    rw [framesHeld_of_lt (h.owner_procSeq_lt hphase howner), List.length_append, length_firstFrames]
    exact (h.procCursor hphase howner).trans (Nat.le_add_right _ _)

theorem procSeq_le_wordsEnd (s : State) : s.procSeq ≤ wordsEnd s := by
  unfold wordsEnd
  split
  · exact le_rfl
  · exact Nat.le_succ _

theorem CoordInv.wordsEnd_le (h : CoordInv s) (hphase : s.phase ≠ .aborted) : wordsEnd s ≤ s.fillSeq := by
  unfold wordsEnd
  split
  · exact h.procLeFill
  · next howner => exact h.owner_procSeq_lt hphase howner

theorem framesHeld_write (hwf : s.slots.wf = true) {k : Nat} {v : Slot} (hframes : v.frames = (s.slots.read k).frames)
    (hcount : v.nFrames = (s.slots.read k).nFrames) : framesHeld { s with slots := s.slots.write k v } = framesHeld s := by
  have hclosed := batchFrames_write s.par hwf hframes hcount
  have hfilling := read_write_keeps (Slot.firstFrames · s.fillCnt) hwf (firstFrames_congr hframes _) (slotIndex s.par s.fillSeq)
  exact congrArg₂ (· ++ ·) (congrArg (fun g => (List.Ico s.procSeq s.fillSeq).flatMap g) hclosed) hfilling

theorem wordsHeld_write (hwf : s.slots.wf = true) {k : Nat} {v : Slot} (hgroups : v.groups = (s.slots.read k).groups)
    (hcount : v.nGroups = (s.slots.read k).nGroups) : wordsHeld { s with slots := s.slots.write k v } = wordsHeld s :=
  congrArg (fun g => (List.Ico s.emitSeq (wordsEnd s)).flatMap g) (batchWords_write s.par hwf hgroups hcount)

/-- The Batch at `emit_seq` is the first of those whose words are held. -/
theorem wordsHeld_of_lt (h : s.emitSeq < s.procSeq) :
    wordsHeld s = (emitSlot s).countedWords ++ wordsHeld { s with emitSeq := s.emitSeq + 1 } := by
  rw [wordsHeld, List.Ico.eq_cons (h.trans_le (procSeq_le_wordsEnd s)), List.flatMap_cons]
  rfl

theorem emitIdx_le (h : CoordInv s) (hphase : s.phase ≠ .aborted) : s.emitIdx ≤ (wordsHeld s).length := by
  rcases Nat.eq_or_lt_of_le h.emitLeProc with heq | hlt
  · rw [h.emitStart heq]
    exact Nat.zero_le _
  · rw [wordsHeld_of_lt hlt, List.length_append, length_countedWords]
    exact (h.emitCursor hphase hlt).trans (Nat.le_add_right _ _)

end Held

/-! ### How each operation moves them -/

section Moves

variable {s : State}

theorem otherBatches_fill (hroom : s.fillSeq < s.emitSeq + s.par.nSlots) {a : Nat} (ha : s.emitSeq ≤ a) :
    OtherBatches s s.fillSeq a s.fillSeq := fun _ _ _ => by omega

/-- The Frame put into the slot being filled stands behind the others. -/
theorem WritesBatch.framesHeld_putFrame {m : Memory} {x : Frame} (h : CoordInv s)
    (hroom : s.fillSeq < s.emitSeq + s.par.nSlots)
    (hw : WritesBatch s s.fillSeq ((fillSlot s).putFrame s.fillCnt x) m) :
    framesHeld { s with slots := m, fillCnt := s.fillCnt + 1 } = framesHeld s ++ [x] := by
  calc (List.Ico s.procSeq s.fillSeq).flatMap (batchFrames s.par m) ++
        (m.read (slotIndex s.par s.fillSeq)).firstFrames (s.fillCnt + 1)
      = (List.Ico s.procSeq s.fillSeq).flatMap (batchFrames s.par s.slots) ++
        ((fillSlot s).firstFrames s.fillCnt ++ [x]) := by
        rw [hw.flatMap_batchFrames (otherBatches_fill hroom h.emitLeProc), hw.same, firstFrames_putFrame]
    _ = framesHeld s ++ [x] := (List.append_assoc ..).symm

/-- The Frames of the Batch being filled become those of the last closed one. -/
theorem WritesBatch.framesHeld_close {m : Memory} (h : CoordInv s) (hroom : s.fillSeq < s.emitSeq + s.par.nSlots)
    (hw : WritesBatch s s.fillSeq { fillSlot s with nFrames := s.fillCnt, nGroups := 0, state := .filled } m) :
    framesHeld { s with slots := m, fillSeq := s.fillSeq + 1, fillCnt := 0 } = framesHeld s := by
  have hclosed : batchFrames s.par m s.fillSeq = (fillSlot s).firstFrames s.fillCnt := by
    rw [batchFrames, hw.same]
    exact firstFrames_congr rfl _
  calc (List.Ico s.procSeq (s.fillSeq + 1)).flatMap (batchFrames s.par m) ++ []
      = (List.Ico s.procSeq s.fillSeq).flatMap (batchFrames s.par m) ++ batchFrames s.par m s.fillSeq := by
        rw [List.append_nil, flatMap_Ico_succ h.procLeFill]
    _ = framesHeld s := by rw [hw.flatMap_batchFrames (otherBatches_fill hroom h.emitLeProc), hclosed, framesHeld]

/-- PUSH_FRAME puts its Frame behind those that are ahead. -/
theorem framesAhead_framePushed (h : CoordInv s) (hguard : canTake s = true) (l r : Sample) :
    framesAhead (framePushed l r s) = framesAhead s ++ [cleanFrame ⟨l, r⟩] := by
  obtain ⟨hphase, hempty, -⟩ := (canTake_iff s).1 hguard
  have hw := h.writesBatch s.fillSeq
    (Slot.putFrame_wf (fillSlot s) s.fillCnt (cleanFrame ⟨l, r⟩) (Memory.read_wf _ _ h.poolWf))
  have hheld : framesHeld (framePushed l r s) = framesHeld s ++ [cleanFrame ⟨l, r⟩] := by
    rw [framePushed_eq hphase]
    exact hw.framesHeld_putFrame h (h.fillSeq_lt hempty)
  have htaken : framesTaken (framePushed l r s) = framesTaken s := by rw [framePushed_eq hphase]; rfl
  rw [framesAhead, hheld, htaken, List.drop_append_of_le_length (framesTaken_le h (not_aborted_of_canTake hguard)),
    framesAhead]

theorem wordsAhead_framePushed (h : CoordInv s) (hguard : canTake s = true) (l r : Sample) :
    wordsAhead (framePushed l r s) = wordsAhead s := by
  have hheld := wordsHeld_write h.poolWf (k := slotIndex s.par s.fillSeq)
    (v := (fillSlot s).putFrame s.fillCnt (cleanFrame ⟨l, r⟩)) rfl rfl
  rw [framePushed_eq ((canTake_iff s).1 hguard).1]
  exact congrArg (List.drop s.emitIdx) hheld

theorem framesAhead_batchClosed (h : CoordInv s) (hguard : canClose s = true) :
    framesAhead (batchClosed s) = framesAhead s := by
  have hw := h.writesBatch s.fillSeq (v := { fillSlot s with nFrames := s.fillCnt, nGroups := 0, state := .filled })
    (Memory.read_wf _ _ h.poolWf)
  exact congrArg (List.drop (framesTaken s)) (hw.framesHeld_close h (h.fillHasSlot ((canClose_iff s).1 hguard).2))

/-- No Batch with words is in the slot being filled. -/
theorem wordsAhead_batchClosed (h : CoordInv s) (hguard : canClose s = true) : wordsAhead (batchClosed s) = wordsAhead s := by
  obtain ⟨hlive, hcnt⟩ := (canClose_iff s).1 hguard
  have hw := h.writesBatch s.fillSeq (v := { fillSlot s with nFrames := s.fillCnt, nGroups := 0, state := .filled })
    (Memory.read_wf _ _ h.poolWf)
  have hend := h.wordsEnd_le (live_phase hlive).2.2
  have hroom := h.fillHasSlot hcnt
  exact congrArg (List.drop s.emitIdx) (hw.flatMap_batchWords (a := s.emitSeq) (b := wordsEnd s) fun _ _ _ => by omega)

/-- CLAIM starts on a Batch from its first Frame. -/
theorem framesAhead_claimed (hguard : canClaim s = true) (k : Nat) :
    framesAhead { s with dpOwner := some k, procIdx := 0 } = framesAhead s := by
  have htaken : framesTaken s = 0 := if_pos ((canClaim_iff s).1 hguard).2.1
  rw [framesAhead, framesAhead, htaken]
  rfl

/-- The Batch that CLAIM starts on has no words yet. -/
theorem wordsAhead_claimed (h : CoordInv s) (hdata : DataInv s) (hguard : canClaim s = true) (k : Nat) :
    wordsAhead { s with dpOwner := some k, procIdx := 0 } = wordsAhead s := by
  obtain ⟨-, hfree, hfilled⟩ := (canClaim_iff s).1 hguard
  have hnone : batchWords s.par s.slots s.procSeq = [] :=
    countedWords_of_nGroups_eq_zero (hdata.waiting _ hfilled (.inl hfree))
  have hend : wordsEnd s = s.procSeq := if_pos hfree
  have hheld : wordsHeld { s with dpOwner := some k, procIdx := 0 } = wordsHeld s := by
    calc (List.Ico s.emitSeq (s.procSeq + 1)).flatMap (batchWords s.par s.slots)
        = (List.Ico s.emitSeq s.procSeq).flatMap (batchWords s.par s.slots) := by
          rw [flatMap_Ico_succ h.emitLeProc, hnone, List.append_nil]
      _ = wordsHeld s := by rw [wordsHeld, hend]
  exact congrArg (List.drop s.emitIdx) hheld

/-- While Compute may process a Frame, it is the first of those ahead. -/
theorem framesAhead_of_canProcess (h : CoordInv s) (hguard : canProcess s = true) {x : Frame}
    (hx : (procSlot s).frame s.procIdx = some x) :
    framesAhead s = x :: (framesHeld s).drop (s.procIdx + 1) := by
  obtain ⟨hlive, howner, hlt⟩ := (canProcess_iff s).1 hguard
  have hbatch := h.owner_procSeq_lt (live_phase hlive).2.2 howner
  have htaken : framesTaken s = s.procIdx := if_neg howner
  rw [framesAhead, htaken]
  refine drop_eq_cons_of_getElem? ?_
  rw [framesHeld_of_lt hbatch, List.getElem?_append_left (by rwa [length_firstFrames]), firstFrames_getElem? hlt hx]

/-- The pool that PROCESS_FRAME leaves: with the words `vs` behind those of the Batch in work. -/
def WordsAppended (s : State) (vs : List OutWord) (m : Memory) : Prop :=
  (vs = [] ∧ m = s.slots) ∨
    ∃ g : WordGroup, vs = g.words ∧ m = s.slots.write (slotIndex s.par s.procSeq) ((procSlot s).appendGroup g)

theorem framesAhead_frameProcessed (h : CoordInv s) (hguard : canProcess s = true) {vs : List OutWord} {m : Memory}
    (hm : WordsAppended s vs m) (dp : Datapath) :
    framesAhead { s with dp := dp, slots := m, procIdx := s.procIdx + 1 } = (framesHeld s).drop (s.procIdx + 1) := by
  obtain ⟨-, howner, -⟩ := (canProcess_iff s).1 hguard
  have hheld : framesHeld { s with slots := m } = framesHeld s := by
    obtain ⟨-, rfl⟩ | ⟨g, -, rfl⟩ := hm
    · rfl
    · exact framesHeld_write h.poolWf rfl rfl
  have htaken : framesTaken { s with dp := dp, slots := m, procIdx := s.procIdx + 1 } = s.procIdx + 1 := if_neg howner
  rw [framesAhead, htaken]
  exact congrArg (List.drop (s.procIdx + 1)) hheld

/-- The group appended to the slot in work stands behind the other words: its Batch is the last that has any. -/
theorem WritesBatch.wordsHeld_appendGroup {m : Memory} {g : WordGroup} (h : CoordInv s) (howner : s.dpOwner ≠ none)
    (hbatch : s.procSeq < s.fillSeq) (hw : WritesBatch s s.procSeq ((procSlot s).appendGroup g) m) :
    wordsHeld { s with slots := m } = wordsHeld s ++ g.words := by
  have hend : wordsEnd s = s.procSeq + 1 := if_neg howner
  have hring := h.fillInRing
  have hlast : batchWords s.par m s.procSeq = batchWords s.par s.slots s.procSeq ++ g.words := by
    rw [batchWords, hw.same, countedWords_appendGroup]
    rfl
  calc (List.Ico s.emitSeq (wordsEnd s)).flatMap (batchWords s.par m)
      = (List.Ico s.emitSeq s.procSeq).flatMap (batchWords s.par s.slots) ++
          (batchWords s.par s.slots s.procSeq ++ g.words) := by
        rw [hend, flatMap_Ico_succ h.emitLeProc, hlast, hw.flatMap_batchWords (fun _ _ _ => by omega)]
    _ = wordsHeld s ++ g.words := by rw [← List.append_assoc, ← flatMap_Ico_succ h.emitLeProc, wordsHeld, hend]

theorem wordsAhead_frameProcessed (h : CoordInv s) (hguard : canProcess s = true) {vs : List OutWord} {m : Memory}
    (hm : WordsAppended s vs m) (dp : Datapath) :
    wordsAhead { s with dp := dp, slots := m, procIdx := s.procIdx + 1 } = wordsAhead s ++ vs := by
  obtain ⟨hlive, howner, -⟩ := (canProcess_iff s).1 hguard
  have hrunning := (live_phase hlive).2.2
  have hheld : wordsHeld { s with slots := m } = wordsHeld s ++ vs := by
    obtain ⟨rfl, rfl⟩ | ⟨g, rfl, rfl⟩ := hm
    · rw [List.append_nil]
    · have hwf := Slot.appendGroup_wf (procSlot s) g (Memory.read_wf _ _ h.poolWf)
      exact (h.writesBatch s.procSeq hwf).wordsHeld_appendGroup h howner (h.owner_procSeq_lt hrunning howner)
  rw [wordsAhead, wordsAhead, ← List.drop_append_of_le_length (emitIdx_le h hrunning), ← hheld]
  rfl

/-- PROCESS_DONE: no Frame of the Batch handed over is left. -/
theorem framesAhead_batchProcessed (h : CoordInv s) (hguard : canDone s = true) :
    framesAhead (batchProcessed s) = framesAhead s := by
  obtain ⟨hlive, howner, hidx⟩ := (canDone_iff s).1 hguard
  have htaken : framesTaken s = (procSlot s).nFrames := (if_neg howner).trans hidx
  have hheld := framesHeld_write (s := { s with procSeq := s.procSeq + 1 }) h.poolWf (k := slotIndex s.par s.procSeq)
    (v := { procSlot s with state := .processed }) rfl rfl
  calc framesAhead (batchProcessed s) = framesHeld { s with procSeq := s.procSeq + 1 } := hheld
    _ = framesAhead s := by
      rw [framesAhead, framesHeld_of_lt (h.owner_procSeq_lt (live_phase hlive).2.2 howner), htaken,
        List.drop_left' (length_firstFrames ..)]

theorem wordsAhead_batchProcessed (h : CoordInv s) (hguard : canDone s = true) :
    wordsAhead (batchProcessed s) = wordsAhead s := by
  obtain ⟨-, howner, -⟩ := (canDone_iff s).1 hguard
  have hend : wordsEnd s = s.procSeq + 1 := if_neg howner
  have hwords := batchWords_write s.par h.poolWf (k := slotIndex s.par s.procSeq)
    (v := { procSlot s with state := .processed }) rfl rfl
  rw [wordsAhead, wordsAhead, wordsHeld, wordsHeld, hend]
  exact congrArg (fun g => ((List.Ico s.emitSeq (s.procSeq + 1)).flatMap g).drop s.emitIdx) hwords

/-- POP_WORD delivers the first of the words that are ahead. -/
theorem wordsAhead_of_canOffer (h : CoordInv s) (hguard : canOffer s = true) {w : OutWord} (hw : offeredWord s = some w) :
    wordsAhead s = w :: wordsAhead (wordDelivered w s) := by
  obtain ⟨-, hstate, hlt⟩ := (canOffer_iff s).1 hguard
  obtain ⟨g, hg, rfl⟩ := Option.map_eq_some_iff.1 hw
  refine drop_eq_cons_of_getElem? ?_
  rw [wordsHeld_of_lt (h.emitSeq_lt (.inl hstate)), List.getElem?_append_left (by rwa [length_countedWords]),
    countedWords_getElem? hlt hg]

theorem framesAhead_batchEmitted (h : CoordInv s) : framesAhead (batchEmitted s) = framesAhead s :=
  congrArg (List.drop (framesTaken s)) (framesHeld_write h.poolWf rfl rfl)

theorem wordsAhead_batchEmitted (h : CoordInv s) : wordsAhead (batchEmitted s) = wordsAhead s :=
  congrArg (List.drop s.emitIdx) (wordsHeld_write h.poolWf rfl rfl)

theorem framesAhead_slotReleased (h : CoordInv s) : framesAhead (slotReleased s) = framesAhead s :=
  congrArg (List.drop (framesTaken s)) (framesHeld_write h.poolWf rfl rfl)

/-- RELEASE: no word of the Batch given back is left. -/
theorem wordsAhead_slotReleased (h : CoordInv s) (hguard : canRelease s = true)
    (hall : s.emitIdx = 4 * (emitSlot s).nGroups) : wordsAhead (slotReleased s) = wordsAhead s := by
  have hlt := h.emitSeq_lt (.inr ((canRelease_iff s).1 hguard).2)
  have hheld := wordsHeld_write (s := { s with emitSeq := s.emitSeq + 1 }) h.poolWf (k := slotIndex s.par s.emitSeq)
    (v := { emitSlot s with state := .empty }) rfl rfl
  calc wordsAhead (slotReleased s) = wordsHeld { s with emitSeq := s.emitSeq + 1 } := hheld
    _ = wordsAhead s := by rw [wordsAhead, wordsHeld_of_lt hlt, hall, List.drop_left' (length_countedWords _)]

/-- In DONE every Batch has been closed, processed and released. -/
theorem ahead_of_done (h : CoordInv s) (hphase : s.phase = .done) : framesAhead s = [] ∧ wordsAhead s = [] := by
  obtain ⟨hcnt, hseq⟩ := h.doneEmpty hphase
  have hproc : s.procSeq = s.fillSeq := le_antisymm h.procLeFill (hseq ▸ h.emitLeProc)
  have hend : wordsEnd s = s.procSeq := if_pos (h.dpOwner_eq_none (by simp [hphase]) hproc)
  constructor
  · rw [framesAhead, framesHeld, hproc, hcnt, List.Ico.self_empty]
    exact List.drop_nil
  · rw [wordsAhead, wordsHeld, hend, hproc, hseq, List.Ico.self_empty]
    exact List.drop_nil

end Moves

end Sys2Proof.Machine

/-! ## 43_pipeline_coordinator.md R221, R222: the words delivered are the reference function's -/

namespace Sys2Proof.Machine

/-! ### The datapath makes what the reference function makes -/

/-- What one turn on the whole makes of a part, the turns make of it. -/
theorem repeatOp_part {α β : Type} {op : α → Except Fault α} {op' : β → Except Fault β} (part : α → β) (P : α → Prop)
    (hstep : ∀ a b, P a → op a = .ok b → P b ∧ op' (part a) = .ok (part b)) :
    ∀ (n : Nat) (a b : α), P a → repeatOp op n a = .ok b → repeatOp op' n (part a) = .ok (part b)
  | 0, a, b, _, h => by
    cases h
    rfl
  | n + 1, a, b, ha, h => by
    unfold repeatOp at h
    split at h
    · next c hc =>
      obtain ⟨hP, hpart⟩ := hstep a c ha hc
      rw [repeatOp, hpart]
      exact repeatOp_part part P hstep n c b hP h
    · cases h

theorem stepOp_goldenStep {s t : State} (h : stepOp s = .ok t) : goldenStep s.par.accFmt s.cfg s.dp = .ok t.dp := by
  obtain ⟨d, hd, hdp, -⟩ := stepOp_dp h
  rw [goldenStep, hd, hdp]
  rfl

theorem transitionOp_goldenTransition {s t : State} (h : transitionOp s = .ok t) :
    goldenTransition s.par.accFmt s.cfg s.dp = .ok t.dp := by
  obtain ⟨u, hu, rfl⟩ := transitionOp_cases h
  have hsteps := repeatOp_part State.dp (fun a => a.par = s.par ∧ a.cfg = s.cfg)
    (fun a b ⟨hpar, hcfg⟩ hab => by
      obtain ⟨-, -, -, hpar', hcfg'⟩ := stepOp_dp hab
      have hgolden := stepOp_goldenStep hab
      rw [hpar, hcfg] at hgolden
      exact ⟨⟨hpar'.trans hpar, hcfg'.trans hcfg⟩, hgolden⟩) 64 s u ⟨rfl, rfl⟩ hu
  rw [goldenTransition, hsteps]
  rfl

/-- PROCESS_FRAME on the stored form of Frame `y` takes the datapath where the reference function goes with `y`, and appends the
words it gives (R205, R220). -/
theorem processFrameOp_goldenFrame {s : State} {y : Frame} (hx : (procSlot s).frame s.procIdx = some (cleanFrame y))
    (h : DatapathReady s.par.accFmt s.cfg s.dp) (hi : s.dp.i = 0) (hroom : (procSlot s).nGroups < s.par.batchCap) :
    ∃ dp vs m, goldenFrame s.par.accFmt s.cfg s.dp y = .ok (dp, vs) ∧ WordsAppended s vs m ∧
      processFrameOp s = .ok { s with dp := dp, slots := m, procIdx := s.procIdx + 1 } := by
  have hloaded := loadFrame_ready (x := cleanFrame y) h (isFinite32_sanitizeValue _) (isFinite32_sanitizeValue _)
  by_cases hcur : s.dp.haveCur = true
  · obtain ⟨dp, -, -, hrun⟩ := transitionOp_ok (s := { s with dp := loadFrame s.dp (cleanFrame y) }) hloaded rfl hi hroom
    exact ⟨dp, _, _, goldenFrame_later hcur (transitionOp_goldenTransition hrun), .inr ⟨dp.wg, rfl, rfl⟩,
      processFrameOp_later hx hcur hrun⟩
  · have hfirst := Bool.eq_false_iff.2 hcur
    exact ⟨_, _, _, goldenFrame_first hfirst y, .inl ⟨rfl, rfl⟩, processFrameOp_first hx hfirst⟩

/-! ### The invariant of the output -/

/-- The pipeline is the reference function, stopped after some of the Frames accepted: the others are ahead, and what it has given
is delivered or ahead. -/
def GoldenSoFar (s : State) : Prop :=
  ∃ seen ahead, s.inStream = seen ++ ahead ∧ ahead.map cleanFrame = framesAhead s ∧
    GoldenRun s.par.accFmt s.cfg (Datapath.reset s.par.qReset) seen s.dp (s.outStream ++ wordsAhead s)

/-- What a run keeps of its streams until an ABORT: in IDLE nothing has come in, a Batch marked Emitted is delivered whole, and
the pipeline is the reference function. -/
structure OutputInv (s : State) : Prop where
  idle : s.phase = .idle → s.inStream = []
  emitted : (emitSlot s).state = .emitted → s.emitIdx = 4 * (emitSlot s).nGroups
  golden : GoldenSoFar s

theorem GoldenRun.of_nil {f : AccFmt} {cfg : CfgRegs} {dp dp' : Datapath} {xs : List Frame} {ws : List OutWord}
    (h : GoldenRun f cfg dp xs dp' ws) (hxs : xs = []) : dp' = dp ∧ ws = [] := by
  cases h with
  | start => exact ⟨rfl, rfl⟩
  | frame => simp at hxs

section Golden

variable {s t : State}

/-- An operation that moves no Frame and no word past the datapath. -/
theorem GoldenSoFar.of_moved (h : GoldenSoFar s) (hpar : t.par = s.par) (hcfg : t.cfg = s.cfg) (hdp : t.dp = s.dp)
    (hin : t.inStream = s.inStream) (hframes : framesAhead t = framesAhead s)
    (hwords : t.outStream ++ wordsAhead t = s.outStream ++ wordsAhead s) : GoldenSoFar t := by
  obtain ⟨seen, ahead, hstream, hahead, hrun⟩ := h
  exact ⟨seen, ahead, hin.trans hstream, hahead.trans hframes.symm, by rwa [hpar, hcfg, hdp, hwords]⟩

/-- A Frame accepted is one more Frame ahead. -/
theorem GoldenSoFar.framePushed (h : GoldenSoFar s) (hcoord : CoordInv s) (hguard : canTake s = true) (l r : Sample) :
    GoldenSoFar (framePushed l r s) := by
  obtain ⟨seen, ahead, hstream, hahead, hrun⟩ := h
  have hframes := framesAhead_framePushed hcoord hguard l r
  have hwords := wordsAhead_framePushed hcoord hguard l r
  refine ⟨seen, ahead ++ [⟨l, r⟩], ?_, ?_, ?_⟩
  · simp [Machine.framePushed, hstream]
  · rw [hframes, List.map_append, List.map_singleton, hahead]
  · rw [hwords, framePushed_eq ((canTake_iff s).1 hguard).1]
    exact hrun

/-- The first Frame ahead is the next one the reference function takes. -/
theorem GoldenSoFar.frameProcessed (h : GoldenSoFar s) (hcoord : CoordInv s) (hdata : DataInv s)
    (hguard : canProcess s = true) (hrun : processFrameOp s = .ok t) : GoldenSoFar t := by
  obtain ⟨seen, ahead, hstream, hahead, hgolden⟩ := h
  obtain ⟨-, howner, hlt⟩ := (canProcess_iff s).1 hguard
  obtain ⟨hcount, hframes, -⟩ := hdata.slots (slotIndex s.par s.procSeq)
  obtain ⟨x, hx, -⟩ := hframes s.procIdx hlt
  rw [framesAhead_of_canProcess hcoord hguard hx] at hahead
  obtain ⟨y, rest, rfl, rfl, hrest⟩ := List.map_eq_cons_iff.1 hahead
  obtain ⟨dp, vs, m, hframe, hm, hrun'⟩ := processFrameOp_goldenFrame hx hdata.ready hdata.stepZero
    ((hdata.working howner).trans_lt (hlt.trans_le hcount))
  cases hrun.symm.trans hrun'
  refine ⟨seen ++ [y], rest, by simpa using hstream, ?_, ?_⟩
  · rw [framesAhead_frameProcessed hcoord hguard hm, hrest]
  · rw [wordsAhead_frameProcessed hcoord hguard hm, ← List.append_assoc]
    exact hgolden.frame hframe

/-- In IDLE nothing has come in, so the reference function may as well be that of another configuration. -/
theorem GoldenSoFar.loaded (h : GoldenSoFar s) (hempty : s.inStream = []) (cfg : CfgRegs) :
    GoldenSoFar { s with cfg := cfg } := by
  obtain ⟨seen, ahead, hstream, hahead, hrun⟩ := h
  obtain ⟨rfl, rfl⟩ := List.append_eq_nil_iff.1 (hstream.symm.trans hempty)
  obtain ⟨hdp, hwords⟩ := hrun.of_nil rfl
  have hstart : GoldenRun s.par.accFmt cfg (Datapath.reset s.par.qReset) [] s.dp (s.outStream ++ wordsAhead s) := by
    rw [hdp, hwords]
    exact .start
  exact ⟨[], [], hempty, hahead, hstart⟩

theorem OutputInv.loaded (h : OutputInv s) (hguard : canLoad s = true) (cfg : CfgRegs) :
    OutputInv { s with cfg := cfg } :=
  have hidle := (canLoad_iff s).1 hguard
  { h with golden := h.golden.loaded (h.idle hidle) cfg }

theorem outputInv_resetOf (p : Params) (script : List Beat) (n : Nat) :
    OutputInv { State.resetOf p with script := script, freeCount := n } where
  idle := fun _ => rfl
  emitted := fun h => nomatch h
  golden := ⟨[], [], rfl, rfl, .start⟩

/-- One slot is written: the Batch at `emit_seq` is still delivered whole if its slot is Emitted. -/
theorem OutputInv.emitted_of_read (h : OutputInv s) {m : Memory} {k : Nat} {v : Slot}
    (hread : m.read (slotIndex s.par s.emitSeq) = if slotIndex s.par s.emitSeq = k then v else emitSlot s)
    (hv : v.state = .emitted → s.emitIdx = 4 * v.nGroups) (he : (m.read (slotIndex s.par s.emitSeq)).state = .emitted) :
    s.emitIdx = 4 * (m.read (slotIndex s.par s.emitSeq)).nGroups := by
  rw [hread] at he ⊢
  split at he
  · next hk => rw [if_pos hk]; exact hv he
  · next hk => rw [if_neg hk]; exact h.emitted he

theorem OutputInv.framePushed (h : OutputInv s) (hcoord : CoordInv s) (hguard : canTake s = true) (l r : Sample) :
    OutputInv (framePushed l r s) := by
  obtain ⟨hphase, hempty, -⟩ := (canTake_iff s).1 hguard
  have hgolden := h.golden.framePushed hcoord hguard l r
  rw [framePushed_eq hphase] at hgolden ⊢
  exact {
    idle := fun hidle => nomatch hidle
    emitted := h.emitted_of_read (read_write_eq hcoord.poolWf _ _ _) (fun hv => nomatch hempty.symm.trans hv)
    golden := hgolden }

theorem OutputInv.batchClosed (h : OutputInv s) (hcoord : CoordInv s) (hguard : canClose s = true) :
    OutputInv (batchClosed s) where
  idle := fun hidle => absurd hidle (live_phase ((canClose_iff s).1 hguard).1).1
  emitted := h.emitted_of_read (batchClosed_read hcoord.poolWf _) (fun hv => nomatch hv)
  golden := h.golden.of_moved rfl rfl rfl rfl (framesAhead_batchClosed hcoord hguard)
    (congrArg (s.outStream ++ ·) (wordsAhead_batchClosed hcoord hguard))

theorem OutputInv.claimed (h : OutputInv s) (hcoord : CoordInv s) (hdata : DataInv s) (hguard : canClaim s = true) (k : Nat) :
    OutputInv { s with dpOwner := some k, procIdx := 0 } :=
  { h with
    golden := h.golden.of_moved rfl rfl rfl rfl (framesAhead_claimed hguard k)
      (congrArg (s.outStream ++ ·) (wordsAhead_claimed hcoord hdata hguard k)) }

/-- The slot in work is Filled, not Emitted. -/
theorem OutputInv.frameProcessed (h : OutputInv s) (hcoord : CoordInv s) (hdata : DataInv s) (hguard : canProcess s = true)
    (hrun : processFrameOp s = .ok t) : OutputInv t := by
  obtain ⟨hlive, howner, -⟩ := (canProcess_iff s).1 hguard
  obtain ⟨hidle, -, hrunning⟩ := live_phase hlive
  have hfilled : (procSlot s).state = .filled := hcoord.filledSlots _ le_rfl (hcoord.owner_procSeq_lt hrunning howner)
  have hgolden := h.golden.frameProcessed hcoord hdata hguard hrun
  obtain ⟨dp, m, -, -, hm, hrun'⟩ := hdata.processFrameOp_ok hguard
  cases hrun.symm.trans hrun'
  refine ⟨fun hp => absurd hp hidle, ?_, hgolden⟩
  obtain rfl | ⟨g, rfl⟩ := hm
  · exact h.emitted
  · exact h.emitted_of_read (read_write_eq hcoord.poolWf _ _ _) (fun hv => nomatch hfilled.symm.trans hv)

theorem OutputInv.batchProcessed (h : OutputInv s) (hcoord : CoordInv s) (hguard : canDone s = true) :
    OutputInv (batchProcessed s) where
  idle := fun hidle => absurd hidle (live_phase ((canDone_iff s).1 hguard).1).1
  emitted := h.emitted_of_read (batchProcessed_read hcoord.poolWf _) (fun hv => nomatch hv)
  golden := h.golden.of_moved rfl rfl rfl rfl (framesAhead_batchProcessed hcoord hguard)
    (congrArg (s.outStream ++ ·) (wordsAhead_batchProcessed hcoord hguard))

/-- A word moves from those ahead to those delivered. -/
theorem OutputInv.wordDelivered (h : OutputInv s) (hcoord : CoordInv s) (hguard : canOffer s = true) {w : OutWord}
    (hw : offeredWord s = some w) : OutputInv (wordDelivered w s) where
  idle := h.idle
  emitted := fun he => nomatch ((canOffer_iff s).1 hguard).2.1.symm.trans he
  golden := h.golden.of_moved rfl rfl rfl rfl rfl (by
    rw [wordsAhead_of_canOffer hcoord hguard hw, Machine.wordDelivered, List.append_assoc, List.singleton_append])

theorem OutputInv.batchEmitted (h : OutputInv s) (hcoord : CoordInv s) (hguard : canWriteDone s = true) :
    OutputInv (batchEmitted s) where
  idle := h.idle
  emitted := h.emitted_of_read (batchEmitted_read hcoord.poolWf _) (fun _ => ((canWriteDone_iff s).1 hguard).2.2)
  golden := h.golden.of_moved rfl rfl rfl rfl (framesAhead_batchEmitted hcoord)
    (congrArg (s.outStream ++ ·) (wordsAhead_batchEmitted hcoord))

/-- The Batch after the one given back is not Emitted: all between `emit_seq` and `proc_seq` are Processed. -/
theorem CoordInv.emitSlot_slotReleased_ne (h : CoordInv s) (hguard : canRelease s = true) :
    (emitSlot (Machine.slotReleased s)).state ≠ .emitted := by
  intro he
  have hlt : s.emitSeq + 1 < s.procSeq := (h.slotReleased hguard).emitSeq_lt (.inr he)
  have hpf := h.procLeFill
  have hring := h.fillInRing
  have hprocessed := h.processedSlots (s.emitSeq + 1) (Nat.lt_succ_self _) hlt
  have hread := (slotReleased_read h.poolWf (slotIndex s.par (s.emitSeq + 1))).trans (if_neg (slotIndex_ne (by omega)))
  exact nomatch (hprocessed.symm.trans (congrArg Slot.state hread).symm).trans he

theorem OutputInv.slotReleased (h : OutputInv s) (hcoord : CoordInv s) (hguard : canRelease s = true) :
    OutputInv (slotReleased s) where
  idle := h.idle
  emitted := fun he => absurd he (hcoord.emitSlot_slotReleased_ne hguard)
  golden := h.golden.of_moved rfl rfl rfl rfl (framesAhead_slotReleased hcoord)
    (congrArg (s.outStream ++ ·) (wordsAhead_slotReleased hcoord hguard (h.emitted ((canRelease_iff s).1 hguard).2)))

/-! ### Every operation of the agents keeps it -/

/-- In the state the outcome answers, if any, the output is in order, unless the run is aborted there. -/
def KeepsOutput : Host.Outcome State Fault Refusal → Prop
  | .next t => t.phase ≠ .aborted → OutputInv t
  | .fault _ => True
  | .refused _ => True

theorem KeepsOutput.of_guard {g : Bool} {o : Host.Outcome State Fault Refusal} (hwaits : s.phase ≠ .aborted → OutputInv s)
    (hthen : g = true → KeepsOutput o) : KeepsOutput (if g = true then o else .next s) := by
  split
  · next hg => exact hthen hg
  · exact hwaits

theorem exec_keepsOutput {i : Instr} (hi : agentOp i = true) (hrun : RunInv s) (h : s.phase ≠ .aborted → OutputInv s) :
    KeepsOutput (exec i s) := by
  obtain ⟨hcoord, -, hdata⟩ := hrun
  have hwhileLive : live s = true → OutputInv s := fun hlive => h (live_phase hlive).2.2
  have hdataLive : live s = true → DataInv s := fun hlive => hdata (live_phase hlive).2.2
  cases i with
  | reset => exact fun _ => outputInv_resetOf _ _ _
  | loadCfg idx data =>
    refine .of_guard h fun hguard => ?_
    have hloaded := (h (by rw [(canLoad_iff s).1 hguard]; exact fun hp => nomatch hp)).loaded hguard
    split
    · exact fun _ => hloaded _
    · exact fun _ => { hloaded _ with }
  | readCsr idx => exact fun hphase => { h hphase with }
  | pushFrame l r => exact .of_guard h fun hguard _ => (h (not_aborted_of_canTake hguard)).framePushed hcoord hguard l r
  | endStream =>
    exact .of_guard h fun hguard _ => { h (not_aborted_of_canTake hguard) with idle := fun hp => nomatch hp }
  | popWord =>
    refine .of_guard h fun hguard => ?_
    split
    · next w hw => exact fun _ => (hwhileLive ((canOffer_iff s).1 hguard).1).wordDelivered hcoord hguard hw
    · trivial
  | popFail => exact .of_guard h fun _ hphase => absurd rfl hphase
  | closeBatch => exact .of_guard h fun hguard _ => (hwhileLive ((canClose_iff s).1 hguard).1).batchClosed hcoord hguard
  | claim k =>
    rw [exec, execClaim]
    split
    · refine .of_guard h fun hguard _ => ?_
      have hlive := ((canClaim_iff s).1 hguard).1
      exact (hwhileLive hlive).claimed hcoord (hdataLive hlive) hguard k
    · trivial
  | processFrame =>
    refine .of_guard h fun hguard => ?_
    have hlive := ((canProcess_iff s).1 hguard).1
    cases hframe : processFrameOp s with
    | ok t => exact fun _ => (hwhileLive hlive).frameProcessed hcoord (hdataLive hlive) hguard hframe
    | error e => trivial
  | processDone =>
    exact .of_guard h fun hguard _ => (hwhileLive ((canDone_iff s).1 hguard).1).batchProcessed hcoord hguard
  | writeDone =>
    exact .of_guard h fun hguard _ => (hwhileLive ((canWriteDone_iff s).1 hguard).1).batchEmitted hcoord hguard
  | release =>
    exact .of_guard h fun hguard _ => (hwhileLive ((canRelease_iff s).1 hguard).1).slotReleased hcoord hguard
  | finish =>
    refine .of_guard h fun hguard _ => ?_
    have hdrain := ((canFinish_iff s).1 hguard).1
    exact { h (by simp [hdrain]) with idle := fun hp => nomatch hp }
  | _ => cases hi

/-! ### What has been delivered begins the reference output, after an ABORT too -/

/-- The reference output of the Frames accepted begins with the words delivered. -/
def OutputIsPrefix (s : State) : Prop := ∃ ws, golden s.par s.cfg s.inStream = .ok ws ∧ s.outStream <+: ws

/-- The reference function goes on from where the pipeline is through the Frames ahead. -/
theorem GoldenSoFar.golden_eq (h : GoldenSoFar s) (hready : DatapathReady s.par.accFmt s.cfg s.dp) :
    ∃ vs, golden s.par s.cfg s.inStream = .ok (s.outStream ++ wordsAhead s ++ vs) ∧ (framesAhead s = [] → vs = []) := by
  obtain ⟨seen, ahead, hstream, hahead, hrun⟩ := h
  obtain ⟨dp, vs, hrest, -⟩ := exists_goldenRun hready ahead
  refine ⟨vs, ?_, fun hnone => (hrest.of_nil (List.map_eq_nil_iff.1 (hahead.trans hnone))).2⟩
  rw [golden, hstream, hrun.goldenFrom_append, hrest.goldenFrom_eq]
  rfl

theorem OutputInv.isPrefix (h : OutputInv s) (hdata : DataInv s) : OutputIsPrefix s := by
  obtain ⟨vs, hgolden, -⟩ := h.golden.golden_eq hdata.ready
  exact ⟨_, hgolden, wordsAhead s ++ vs, (List.append_assoc ..).symm⟩

/-- An operation that leaves the block aborted found it so, or aborts it, and in either case touches neither the configuration
nor the streams. -/
theorem Effect.streams_of_aborted {i : Instr} (he : Effect s i t) (ht : t.phase = .aborted) :
    t.par = s.par ∧ t.cfg = s.cfg ∧ t.inStream = s.inStream ∧ t.outStream = s.outStream := by
  cases he with
  | reset => cases ht
  | loaded hguard _ => exact nomatch ((canLoad_iff s).1 hguard).symm.trans ht
  | fellBack hguard _ => exact nomatch ((canLoad_iff s).1 hguard).symm.trans ht
  | framePushed hguard =>
    rw [framePushed_eq ((canTake_iff s).1 hguard).1] at ht
    cases ht
  | sanitized _ => simp
  | wordDelivered _ hguard _ => exact absurd ht (live_phase ((canOffer_iff s).1 hguard).1).2.2
  | _ => exact ⟨rfl, rfl, rfl, rfl⟩

theorem OutputIsPrefix.of_aborted (h : OutputIsPrefix s) {i : Instr} (he : Effect s i t) (ht : t.phase = .aborted) :
    OutputIsPrefix t := by
  obtain ⟨hpar, hcfg, hin, hout⟩ := he.streams_of_aborted ht
  rwa [OutputIsPrefix, hpar, hcfg, hin, hout]

end Golden

/-! ### Induction over the runs of the agents -/

/-- What becomes of an agent's beat that answers: its operation runs, or it carries none. -/
theorem perform_agentBeat_cases {u t : State} {b : Beat} (hb : agentBeat u.par.accFmt b = true) (h : perform b u = .next t) :
    t = u ∨ ∃ i, agentOp i = true ∧ exec i u = .next t := by
  cases hdecode : decode u.par.accFmt b with
  | ok i =>
    rw [perform_of_decode_ok hdecode] at h
    rw [agentBeat, hdecode] at hb
    exact .inr ⟨i, hb, h⟩
  | error r =>
    rw [perform_of_decode_error hdecode] at h
    cases r <;> cases h
    exact .inl rfl

/-- What a step of a run is: the wires are cleared, and then an operation of the agents runs or none does. -/
theorem RunInv.step_cases {s t : State} (h : RunInv s) (hstep : step s = .next t) :
    ∃ rest, RunInv { s.quiet with script := rest } ∧
      (t = { s.quiet with script := rest } ∨ ∃ i, agentOp i = true ∧ exec i { s.quiet with script := rest } = .next t) := by
  obtain ⟨hcoord, hagents, hdata⟩ := h
  cases hscript : s.script with
  | nil =>
    rw [step_of_script_nil hscript, quiet_eq_of_script_nil hscript] at hstep
    cases hstep
    exact ⟨[], ⟨{ hcoord with }, rfl, fun hphase => { hdata hphase with }⟩, .inl rfl⟩
  | cons b rest =>
    rw [hscript, List.all_cons, Bool.and_eq_true] at hagents
    rw [step_of_script_cons hscript] at hstep
    exact ⟨rest, ⟨{ hcoord with }, hagents.2, fun hphase => { hdata hphase with }⟩,
      perform_agentBeat_cases hagents.1 hstep⟩

/-- What holds at reset, does not look at the wires and the schedule, and is kept by every operation of the agents, holds in
every state of every run. -/
theorem AgentRun.keeps {P : State → Prop} (hreset : ∀ p script n, P { State.resetOf p with script := script, freeCount := n })
    (hfetch : ∀ s rest, P s → P { s.quiet with script := rest })
    (hop : ∀ s t i, agentOp i = true → RunInv s → P s → exec i s = .next t → P t) {s : State} (h : AgentRun s) : P s := by
  induction h with
  | start p schedule _ _ => exact hreset p schedule 0
  | next hrun hstep ih =>
    obtain ⟨rest, hinv, rfl | ⟨i, hi, hx⟩⟩ := hrun.runInv.step_cases hstep
    · exact hfetch _ rest ih
    · exact hop _ _ i hi hinv (hfetch _ rest ih) hx

/-- In every state of a run the reference output begins with the words delivered, and until an ABORT the pipeline is the
reference function. -/
theorem AgentRun.output {s : State} (h : AgentRun s) : OutputIsPrefix s ∧ (s.phase ≠ .aborted → OutputInv s) := by
  refine h.keeps (P := fun s => OutputIsPrefix s ∧ (s.phase ≠ .aborted → OutputInv s)) (fun p script n => ?_)
    (fun s rest ⟨hprefix, hinv⟩ => ⟨hprefix, fun hphase => { hinv hphase with }⟩) (fun s t i hi hrun ⟨hprefix, hinv⟩ hx => ?_)
  · exact ⟨⟨[], rfl, List.nil_prefix⟩, fun _ => outputInv_resetOf p script n⟩
  · have hout := exec_keepsOutput hi hrun hinv
    have hkeeps := exec_keepsRun hi hrun
    rw [hx] at hout hkeeps
    refine ⟨?_, hout⟩
    by_cases hphase : t.phase = .aborted
    · exact hprefix.of_aborted (exec_effect hx) hphase
    · exact (hout hphase).isPrefix (hkeeps.data hphase)

/-- Settles O55: until an ABORT the pipeline is the reference function, stopped after the Frames processed, and in DONE nothing
is ahead; an ABORT leaves the streams as they are. -/
theorem outputIsGolden : Obligations.OutputIsGolden := by
  intro s h
  obtain ⟨⟨ws, hgolden, hprefix⟩, hinv⟩ := h.output
  refine ⟨ws, hgolden, hprefix, fun hdone => ?_⟩
  have hrunning : s.phase ≠ .aborted := by simp [hdone]
  obtain ⟨hcoord, -, hdata⟩ := h.runInv
  obtain ⟨hframes, hwords⟩ := ahead_of_done hcoord hdone
  obtain ⟨vs, hall, hvs⟩ := (hinv hrunning).golden.golden_eq (hdata hrunning).ready
  rw [hwords, hvs hframes, List.append_nil, List.append_nil] at hall
  cases hall.symm.trans hgolden
  rfl

/-! ### Counting the words (R222) -/

/-- The ghost counters count the streams (10_state.md R38). -/
theorem AgentRun.counts {s : State} (h : AgentRun s) : s.nFramesIn = s.inStream.length ∧ s.nWordsOut = s.outStream.length := by
  refine h.keeps (P := fun s => s.nFramesIn = s.inStream.length ∧ s.nWordsOut = s.outStream.length)
    (fun _ _ _ => ⟨rfl, rfl⟩) (fun _ _ h => h) (fun s t i _ _ ⟨hin, hout⟩ hx => ?_)
  by_cases hi : i = .reset
  · subst hi
    cases hx
    exact ⟨rfl, rfl⟩
  · have he := exec_effect hx
    constructor
    · obtain ⟨hn, hs⟩ | ⟨l, r, -, hn, hs⟩ := he.inStream_rises hi <;> simp [hn, hs, hin]
    · obtain ⟨hn, hs⟩ | ⟨w, -, hn, hs⟩ := he.outStream_rises hi <;> simp [hn, hs, hout]

theorem AgentRun.cfg_legal {s : State} (h : AgentRun s) : s.cfg.legal s.par.accFmt = true := by
  refine h.keeps (P := fun s => s.cfg.legal s.par.accFmt = true) (fun p _ _ => cfgReset_legal p.accFmt) (fun _ _ h => h)
    (fun s t i _ _ hlegal hx => ?_)
  have he := exec_effect hx
  rw [he.par_eq]
  exact he.cfg_legal hlegal

/-- Settles O57: the reference output of N Frames has 4 * (N - 1) words. -/
theorem bitCountLaw : Obligations.BitCountLaw := by
  intro s h
  obtain ⟨hin, hout⟩ := h.counts
  obtain ⟨ws, hgolden, hprefix, hdone⟩ := outputIsGolden s h
  obtain ⟨vs, -, hgolden', -, hlen⟩ := goldenIsTotal s.par s.cfg s.inStream [] h.cfg_legal
  cases hgolden.symm.trans hgolden'
  rw [hin, hout, ← hlen]
  exact ⟨rfl, rfl, hprefix.length_le, fun hphase => congrArg List.length (hdone hphase)⟩

end Sys2Proof.Machine

/-! ## 44_system.md: RESET, LOAD_CFG, READ_CSR and the moves of PHASE -/

namespace Sys2Proof.Machine

/-! ### RESET (R230) -/

/-- While `rst` is 1 the cycle transfers nothing but RESET. -/
theorem cycle_of_rst {p : PinsIn} (h : p.rst = true) (s : State) : cycle p s = exec .reset s := by
  rw [cycle, transfers, if_pos h]
  rfl

/-- Settles O2: every port's readiness has `rst` = 0 in it. -/
theorem resetRuns : Obligations.ResetRuns := by
  intro s
  refine ⟨rfl, fun p hrst => ⟨?inReady, ?outValid, ?cfgReady, cycle_of_rst hrst s⟩⟩
  case inReady => simp only [pinsOut, inReady, hrst, Bool.not_true, Bool.false_and]
  case outValid => simp only [pinsOut, outValid, hrst, Bool.not_true, Bool.false_and]
  case cfgReady => simp only [pinsOut, cfgReady, hrst, Bool.not_true, Bool.false_and]

/-! ### LOAD_CFG (R233) -/

section LoadCfg

variable {s : State} {idx : BitVec 4} {data : BitVec 64}

theorem exec_loadCfg_legal (hphase : s.phase = .idle)
    (hlegal : cfgLegalAt s.par.accFmt idx (dataBits s.par.accFmt data) = true) :
    exec (.loadCfg idx data) s = .next { s with cfg := cfgStore idx (dataBits s.par.accFmt data) s.cfg } := by
  rw [exec, execLoadCfg, if_pos ((canLoad_iff s).2 hphase), if_pos hlegal]

theorem exec_loadCfg_illegal (hphase : s.phase = .idle)
    (hillegal : ¬cfgLegalAt s.par.accFmt idx (dataBits s.par.accFmt data) = true) :
    exec (.loadCfg idx data) s = .next (noteConfigError idx { s with cfg := cfgFallbackAt s.par.accFmt idx s.cfg }) := by
  rw [exec, execLoadCfg, if_pos ((canLoad_iff s).2 hphase), if_neg hillegal]

/-- In IDLE, with `legal` what the register asks of its data: a write or the fall-back. -/
theorem exec_loadCfg_of_legal_iff {legal : Prop} (hphase : s.phase = .idle)
    (hlegal : cfgLegalAt s.par.accFmt idx (dataBits s.par.accFmt data) = true ↔ legal) :
    (legal → exec (.loadCfg idx data) s = .next { s with cfg := cfgStore idx (dataBits s.par.accFmt data) s.cfg }) ∧
    (¬legal → exec (.loadCfg idx data) s =
      .next (noteConfigError idx { s with cfg := cfgFallbackAt s.par.accFmt idx s.cfg })) :=
  ⟨fun h => exec_loadCfg_legal hphase (hlegal.2 h), fun h => exec_loadCfg_illegal hphase (mt hlegal.1 h)⟩

end LoadCfg

theorem legalGain_iff_abs (f : AccFmt) (v : Acc) :
    legalGain f v = true ↔ isFinite f v = true ∧ |valueOf f v| ≤ 2 ^ unitScale f := by
  rw [legalGain_iff, Int.abs_eq_natAbs, valueOf_natAbs]
  exact and_congr_right fun _ => by exact_mod_cast Iff.rfl

theorem legalCoef_iff_value (f : AccFmt) (v : Acc) :
    legalCoef f v = true ↔ isFinite f v = true ∧ 0 ≤ valueOf f v ∧ valueOf f v ≤ 2 ^ unitScale f := by
  rw [legalCoef_iff]
  push_cast
  rfl

theorem legalLimit_iff_value (f : AccFmt) (v : Acc) :
    legalLimit f v = true ↔
      isFinite f v = true ∧ 2 ^ unitScale f ≤ valueOf f v ∧ valueOf f v ≤ 65536 * 2 ^ unitScale f := by
  rw [legalLimit_iff]
  push_cast
  rfl

theorem legalPolicy_iff (d : BitVec 64) :
    legalPolicy d = true ↔ d.extractLsb' 0 2 = 0 ∧ d.extractLsb' 8 8 ≠ 1 := by
  simp only [legalPolicy, Bool.and_eq_true, beq_iff_eq, bne_iff_ne]

/-- A legal CLAMP_POLICY is 0, so POLICY then holds PANIC_MULT alone. -/
theorem policyBits_of_clampPolicy_zero {d : BitVec 64} (h : d.extractLsb' 0 2 = 0) :
    policyBits d = (0 : BitVec 16) ++ d.extractLsb' 8 8 ++ (0 : BitVec 8) := by
  rw [policyBits, h]
  generalize d.extractLsb' 8 8 = mult
  exact BitVec.append_assoc

/-- Indices 7 to 15 take any data (30_encoding.md R112). -/
theorem cfgLegalAt_of_seven_le {idx : BitVec 4} (h : 7 ≤ idx.toNat) (f : AccFmt) (v : Acc) : cfgLegalAt f idx v = true := by
  unfold cfgLegalAt
  generalize idx.toNat = k at h ⊢
  match k, h with
  | _ + 7, _ => rfl

theorem cfgStore_of_seven_le {idx : BitVec 4} (h : 7 ≤ idx.toNat) (v : Acc) (c : CfgRegs) : cfgStore idx v c = c := by
  unfold cfgStore
  generalize idx.toNat = k at h ⊢
  match k, h with
  | _ + 7, _ => rfl

theorem cfgReady_write_iff (s : State) : cfgReady false true s = true ↔ s.phase = .idle := canLoad_iff s

/-- Settles O3, register by register: what each asks of its data, as a condition on the value. -/
theorem loadCfgResult : Obligations.LoadCfgResult := by
  intro s idx data f one v put fall coef go
  have hcoef : legalCoef f v = true ↔ coef := legalCoef_iff_value f v
  refine ⟨cfgReady_write_iff s, fun hphase => if_neg (mt (canLoad_iff s).1 hphase), fun hphase => ?_⟩
  refine ⟨?gain, ?c1, ?c2, ?c3, ?c4, ?limit, ?policy, ?reserved⟩
  case gain => rintro rfl; exact exec_loadCfg_of_legal_iff hphase (legalGain_iff_abs f v)
  case c1 => rintro rfl; exact exec_loadCfg_of_legal_iff hphase hcoef
  case c2 => rintro rfl; exact exec_loadCfg_of_legal_iff hphase hcoef
  case c3 => rintro rfl; exact exec_loadCfg_of_legal_iff hphase hcoef
  case c4 => rintro rfl; exact exec_loadCfg_of_legal_iff hphase hcoef
  case limit => rintro rfl; exact exec_loadCfg_of_legal_iff hphase (legalLimit_iff_value f v)
  case policy =>
    rintro rfl
    obtain ⟨hwrite, hfall⟩ := exec_loadCfg_of_legal_iff (idx := 6) hphase (legalPolicy_iff v)
    refine ⟨fun h => ?_, hfall⟩
    rw [← policyBits_of_clampPolicy_zero h.1]
    exact hwrite h
  case reserved =>
    intro hidx
    have hwrite := exec_loadCfg_legal (data := data) hphase (cfgLegalAt_of_seven_le hidx f v)
    rwa [cfgStore_of_seven_le hidx] at hwrite

/-! ### READ_CSR (R236) and the STATUS register (10_state.md R46) -/

theorem getLsbD_append_ofBool_zero {n : Nat} (x : BitVec n) (b : Bool) : (x ++ BitVec.ofBool b).getLsbD 0 = b := by
  simp [BitVec.getElem_append]

theorem getLsbD_append_ofBool_succ {n : Nat} (x : BitVec n) (b : Bool) (k : Nat) :
    (x ++ BitVec.ofBool b).getLsbD (k + 1) = x.getLsbD k := by
  simp [BitVec.getLsbD_append]

section Status

variable (s : State)

theorem statusWord_phase : (statusWord s).extractLsb' 0 3 = s.phase.code := BitVec.extractLsb'_append_eq_right

/-- The bits of STATUS above PHASE are those of its flags, the lowest first. -/
theorem statusWord_getLsbD_add (k : Nat) : (statusWord s).getLsbD (3 + k) =
    ((0 : BitVec 24) ++ BitVec.ofBool s.cfgFallback ++ BitVec.ofBool s.nonfiniteSeen ++ BitVec.ofBool s.outFailed ++
      BitVec.ofBool s.eosSeen ++ BitVec.ofBool s.dp.haveCur).getLsbD k := by
  rw [statusWord, BitVec.getLsbD_append, if_neg (by omega), Nat.add_sub_cancel_left]

theorem statusWord_flags :
    (statusWord s).getLsbD 3 = s.dp.haveCur ∧ (statusWord s).getLsbD 4 = s.eosSeen ∧ (statusWord s).getLsbD 5 = s.outFailed ∧
      (statusWord s).getLsbD 6 = s.nonfiniteSeen ∧ (statusWord s).getLsbD 7 = s.cfgFallback := by
  refine ⟨(statusWord_getLsbD_add s 0).trans ?haveCur, (statusWord_getLsbD_add s 1).trans ?eosSeen,
    (statusWord_getLsbD_add s 2).trans ?outFailed, (statusWord_getLsbD_add s 3).trans ?nonfiniteSeen,
    (statusWord_getLsbD_add s 4).trans ?cfgFallback⟩
  case haveCur => rw [getLsbD_append_ofBool_zero]
  case eosSeen => rw [getLsbD_append_ofBool_succ, getLsbD_append_ofBool_zero]
  case outFailed =>
    iterate 2 rw [getLsbD_append_ofBool_succ]
    rw [getLsbD_append_ofBool_zero]
  case nonfiniteSeen =>
    iterate 3 rw [getLsbD_append_ofBool_succ]
    rw [getLsbD_append_ofBool_zero]
  case cfgFallback =>
    iterate 4 rw [getLsbD_append_ofBool_succ]
    rw [getLsbD_append_ofBool_zero]

theorem statusWord_high : (statusWord s).extractLsb' 8 24 = 0 := by
  ext j hj
  rw [BitVec.getElem_extractLsb', show 8 + j = 3 + (j + 5) by omega, statusWord_getLsbD_add]
  iterate 5 rw [getLsbD_append_ofBool_succ]
  simp

end Status

/-- The registers of indices 9 to 15 read 0. -/
theorem csrRead_of_nine_le {idx : BitVec 4} (h : 9 ≤ idx.toNat) (s : State) : csrRead s idx = 0 := by
  unfold csrRead
  generalize idx.toNat = k at h ⊢
  match k, h with
  | _ + 9, _ => rfl

theorem csrRead_c0 (s : State) : isFinite s.par.accFmt (csrRead s 8) = true ∧
    valueOf s.par.accFmt (csrRead s 8) = 2 ^ unitScale s.par.accFmt :=
  ⟨presetOne_finite _, (presetOne_value _).trans (Nat.cast_pow 2 _)⟩

/-- Settles O4: the register map index by index, and STATUS field by field. -/
theorem readCsrResult : Obligations.ReadCsrResult := by
  intro s idx p w
  obtain ⟨hcur, heos, hfailed, hnonfinite, hfallback⟩ := statusWord_flags s
  refine ⟨rfl, ⟨csrRead s idx, rfl, ?gain, ?c1, ?c2, ?c3, ?c4, ?limit, ?policy, ?status, ?c0, ?reserved⟩,
    statusWord_phase s, hcur, heos, hfailed, hnonfinite, hfallback, statusWord_high s⟩
  case gain => rintro rfl; rfl
  case c1 => rintro rfl; rfl
  case c2 => rintro rfl; rfl
  case c3 => rintro rfl; rfl
  case c4 => rintro rfl; rfl
  case limit => rintro rfl; rfl
  case policy => rintro rfl; exact setWidth_eq_zero_append 32 s.cfg.policy
  case status => rintro rfl; exact setWidth_eq_zero_append 32 (statusWord s)
  case c0 => rintro rfl; exact csrRead_c0 s
  case reserved => exact fun hidx => csrRead_of_nine_le hidx s

/-! ### The moves of PHASE (R237) -/

theorem canOffer_live {s : State} (h : canOffer s = true) : s.phase = .run ∨ s.phase = .drain :=
  (live_iff s).1 ((canOffer_iff s).1 h).1

theorem canTake_phase {s : State} (h : canTake s = true) : s.phase = .idle ∨ s.phase = .run := ((canTake_iff s).1 h).1

/-- The operations that HOST and SRC put forward (30_encoding.md R110). -/
def hostOrSrcOp (i : Instr) : Prop :=
  i = .reset ∨ (∃ idx, i = .readCsr idx) ∨ (∃ idx data, i = .loadCfg idx data) ∨ (∃ l r, i = .pushFrame l r) ∨ i = .endStream

/-- The operations of Compute, the Writer and SINK, and the Reader's CLOSE_BATCH, are enabled in RUN and DRAIN only. -/
theorem live_of_enabled {s : State} {i : Instr} (hi : agentOp i = true) (hen : enabled s i = true) :
    hostOrSrcOp i ∨ live s = true := by
  cases i with
  | reset => exact .inl (.inl rfl)
  | readCsr idx => exact .inl (.inr (.inl ⟨idx, rfl⟩))
  | loadCfg idx data => exact .inl (.inr (.inr (.inl ⟨idx, data, rfl⟩)))
  | pushFrame l r => exact .inl (.inr (.inr (.inr (.inl ⟨l, r, rfl⟩))))
  | endStream => exact .inl (.inr (.inr (.inr (.inr rfl))))
  | popWord => exact .inr ((canOffer_iff s).1 hen).1
  | popFail => exact .inr ((canOffer_iff s).1 hen).1
  | closeBatch => exact .inr ((canClose_iff s).1 hen).1
  | claim k => exact .inr ((canClaim_iff s).1 hen).1
  | processFrame => exact .inr ((canProcess_iff s).1 hen).1
  | processDone => exact .inr ((canDone_iff s).1 hen).1
  | writeDone => exact .inr ((canWriteDone_iff s).1 hen).1
  | release => exact .inr ((canRelease_iff s).1 hen).1
  | finish => exact .inr ((live_iff s).2 (.inr ((canFinish_iff s).1 hen).1))
  | _ => cases hi

/-- Settles O46: the moves by the effect of the operation, the possible operations by the phase their guards ask for. -/
theorem phaseMoves : Obligations.PhaseMoves := by
  refine ⟨fun s t i hx => ?moves, fun s i hi hen hreset hread => ?possible⟩
  case moves =>
    cases exec_effect hx with
    | reset => exact .inr (.inl ⟨rfl, rfl⟩)
    | @framePushed l r hguard =>
      have hphase : (framePushed l r s).phase = if s.phase = .idle then .run else s.phase := by simp [framePushed]
      by_cases hidle : s.phase = .idle
      · exact .inr (.inr (.inl ⟨⟨l, r, rfl⟩, hidle, hphase.trans (if_pos hidle)⟩))
      · exact .inl (hphase.trans (if_neg hidle))
    | streamEnded hguard => exact .inr (.inr (.inr (.inl ⟨rfl, canTake_phase hguard, rfl⟩)))
    | finished hguard => exact .inr (.inr (.inr (.inr (.inl ⟨rfl, ((canFinish_iff s).1 hguard).1, rfl⟩))))
    | popFailed hguard => exact .inr (.inr (.inr (.inr (.inr ⟨.inl rfl, canOffer_live hguard, rfl⟩))))
    | aborted hguard => exact .inr (.inr (.inr (.inr (.inr ⟨.inr rfl, canOffer_live hguard, rfl⟩))))
    | sanitized _ => exact .inl (noteSample_phase ..)
    | _ => exact .inl rfl
  case possible =>
    have hended : ¬(s.phase = .done ∨ s.phase = .aborted) := fun h =>
      (agentOp_of_ended ((ended_iff s).2 h) hi hen).elim hreset fun ⟨idx, heq⟩ => hread idx heq
    have hload : ∀ idx data, i = .loadCfg idx data → s.phase = .idle := by
      rintro idx data rfl
      exact (canLoad_iff s).1 hen
    have hpush : ∀ l r, i = .pushFrame l r → s.phase = .idle ∨ s.phase = .run := by
      rintro l r rfl
      exact canTake_phase hen
    have hend : i = .endStream → s.phase = .idle ∨ s.phase = .run := by
      rintro rfl
      exact canTake_phase hen
    refine ⟨mt .inl hended, mt .inr hended, fun hidle => ?_, fun hrun idx data h => ?_,
      fun hdrain => ⟨fun idx data h => ?_, fun l r h => ?_, fun h => ?_⟩⟩
    · obtain (h | ⟨idx, h⟩ | h) | hlive := live_of_enabled hi hen
      · exact absurd h hreset
      · exact absurd h (hread idx)
      · exact h
      · simp [live_iff, hidle] at hlive
    · simpa [hrun] using hload idx data h
    · simpa [hdrain] using hload idx data h
    · simpa [hdrain] using hpush l r h
    · simpa [hdrain] using hend h

end Sys2Proof.Machine

/-! ## 60_exceptions.md R261, R270: what each role writes, and the cycle in which a stream ends and fails -/

namespace Sys2Proof.Machine

/-! ### What the roles leave to each other (R270, 10_state.md R28) -/

section Roles

variable {s t : State} {i : Instr}

/-- The fill counters, `eos_seen` and `nonfinite_seen` are the Reader's. -/
theorem Effect.reader_owns (he : Effect s i t) (hi : i ≠ .reset) (hagent : agentOf i ≠ .reader) :
    t.fillSeq = s.fillSeq ∧ t.fillCnt = s.fillCnt ∧ t.eosSeen = s.eosSeen ∧ t.nonfiniteSeen = s.nonfiniteSeen := by
  cases he with
  | reset => exact absurd rfl hi
  | framePushed _ | streamEnded _ | sanitized _ | batchClosed _ => exact absurd rfl hagent
  | _ => exact ⟨rfl, rfl, rfl, rfl⟩

/-- The datapath, its cursors and its owner are the Compute role's, until an ABORT frees them (43_pipeline_coordinator.md
R218). -/
theorem Effect.compute_owns (he : Effect s i t) (hi : i ≠ .reset) (hfail : i ≠ .popFail) (habort : i ≠ .abort)
    (hagent : agentOf i ≠ .compute) :
    t.dp = s.dp ∧ t.procSeq = s.procSeq ∧ t.procIdx = s.procIdx ∧ t.dpOwner = s.dpOwner := by
  cases he with
  | reset => exact absurd rfl hi
  | popFailed _ => exact absurd rfl hfail
  | aborted _ => exact absurd rfl habort
  | datapath _ _ _ hcompute => exact absurd hcompute hagent
  | claimed _ _ | frameProcessed _ _ _ _ _ | batchProcessed _ => exact absurd rfl hagent
  | framePushed _ => simp [Machine.framePushed]
  | sanitized _ => exact ⟨noteSample_dp .., noteSample_procSeq .., noteSample_procIdx .., noteSample_dpOwner ..⟩
  | _ => exact ⟨rfl, rfl, rfl, rfl⟩

/-- The emit counters and the output stream are the Writer's; an ABORT keeps them too. -/
theorem Effect.writer_owns (he : Effect s i t) (hi : i ≠ .reset) (hagent : agentOf i ≠ .writer) :
    t.emitSeq = s.emitSeq ∧ t.emitIdx = s.emitIdx ∧ t.outStream = s.outStream := by
  cases he with
  | reset => exact absurd rfl hi
  | wordDelivered _ _ _ | slotReleased _ => exact absurd rfl hagent
  | framePushed _ => simp [Machine.framePushed]
  | sanitized _ => exact ⟨noteSample_emitSeq .., noteSample_emitIdx .., noteSample_outStream ..⟩
  | _ => exact ⟨rfl, rfl, rfl⟩

/-- The configuration and the record of its errors are HOST's. -/
theorem Effect.host_owns (he : Effect s i t) (hagent : agentOf i ≠ .host) :
    t.cfg = s.cfg ∧ t.cfgFallback = s.cfgFallback := by
  cases he with
  | reset | loaded _ _ | fellBack _ _ => exact absurd rfl hagent
  | framePushed _ => simp [Machine.framePushed]
  | sanitized _ => exact ⟨noteSample_cfg .., noteSample_cfgFallback ..⟩
  | _ => exact ⟨rfl, rfl⟩

/-! ### The one slot of a role (20_memory.md R66) -/

theorem eq_of_read_ne {m m' : Memory} {k j : Nat} {v : Slot} (hread : m'.read j = if j = k then v else m.read j)
    (hj : m'.read j ≠ m.read j) : j = k :=
  by_contra fun hne => hj (hread.trans (if_neg hne))

theorem GroupsAppended.wf_and_read_other {k : Nat} {m m' : Memory} (h : GroupsAppended k m m') (hwf : m.wf = true) :
    m'.wf = true ∧ ∀ j, j ≠ k → m'.read j = m.read j := by
  induction h with
  | none => exact ⟨hwf, fun _ _ => rfl⟩
  | more g _ ih =>
    obtain ⟨hwf', hread⟩ := ih
    exact ⟨Memory.write_wf _ _ _ hwf' (Slot.appendGroup_wf _ _ (Memory.read_wf _ _ hwf')),
      fun j hj => (read_write_other _ _ _ _ hwf' hj).trans (hread j hj)⟩

theorem GroupsAppended.eq_of_read_ne {k j : Nat} {m m' : Memory} (h : GroupsAppended k m m') (hwf : m.wf = true)
    (hj : m'.read j ≠ m.read j) : j = k :=
  by_contra fun hne => hj ((h.wf_and_read_other hwf).2 j hne)

/-- Slot `j` is the one that the role of operation `i` works on. -/
def OwnSlot (s : State) (i : Instr) (j : Nat) : Prop :=
  (agentOf i = .reader ∧ j = slotIndex s.par s.fillSeq) ∨ (agentOf i = .compute ∧ j = slotIndex s.par s.procSeq) ∨
    (agentOf i = .writer ∧ j = slotIndex s.par s.emitSeq)

/-- Each operation writes one slot at most, the one its role's sequence counter names. -/
theorem Effect.ownSlot_of_read_ne (he : Effect s i t) (hwf : s.slots.wf = true) (hi : i ≠ .reset) (hfail : i ≠ .popFail)
    (habort : i ≠ .abort) {j : Nat} (hj : t.slots.read j ≠ s.slots.read j) : OwnSlot s i j := by
  cases he with
  | reset => exact absurd rfl hi
  | popFailed _ => exact absurd rfl hfail
  | aborted _ => exact absurd rfl habort
  | framePushed _ =>
    rw [framePushed_slots] at hj
    exact .inl ⟨rfl, eq_of_read_ne (read_write_eq hwf _ j _) hj⟩
  | sanitized _ => exact absurd (by rw [noteSample_slots]) hj
  | batchClosed _ => exact .inl ⟨rfl, eq_of_read_ne (batchClosed_read hwf j) hj⟩
  | datapath _ _ _ hcompute _ hgroups => exact .inr (.inl ⟨hcompute, hgroups.eq_of_read_ne hwf hj⟩)
  | frameProcessed _ _ _ _ hgroups => exact .inr (.inl ⟨rfl, hgroups.eq_of_read_ne hwf hj⟩)
  | batchProcessed _ => exact .inr (.inl ⟨rfl, eq_of_read_ne (batchProcessed_read hwf j) hj⟩)
  | batchEmitted _ => exact .inr (.inr ⟨rfl, eq_of_read_ne (batchEmitted_read hwf j) hj⟩)
  | slotReleased _ => exact .inr (.inr ⟨rfl, eq_of_read_ne (slotReleased_read hwf j) hj⟩)
  | _ => exact absurd rfl hj

end Roles

/-- Settles O50, role by role. -/
theorem rolesWriteTheirOwn : Obligations.RolesWriteTheirOwn := by
  intro s t i hwf hx hi hfail habort
  have he := exec_effect hx
  exact ⟨he.reader_owns hi, he.compute_owns hi hfail habort, he.writer_owns hi, he.host_owns,
    fun _ hj => he.ownSlot_of_read_ne hwf hi hfail habort hj⟩

/-! ### The transfers of one cycle, one after the other (30_encoding.md R96) -/

theorem performAll_cons_of_next {b : Beat} {s t : State} (h : perform b s = .next t) (rest : List Beat) :
    performAll (b :: rest) s = performAll rest t := by
  rw [performAll, h]

theorem perform_of_decode_exec {b : Beat} {i : Instr} {s t : State} (hdecode : decode s.par.accFmt b = .ok i)
    (hexec : exec i s = .next t) : perform b s = .next t := (perform_of_decode_ok hdecode).trans hexec

/-- A CFG beat of the port's own width with `wr` = 0 is a read of the register it names (30_encoding.md R95). -/
theorem decodeCfg_of_read {f : AccFmt} {b : BitVec 69} (hwidth : b.toNat < 2 ^ (f.width + 5)) (hwr : wrBit f b = false) :
    decodeCfg f b = .ok (.readCsr (idxField f b)) := by
  cases f with
  | binary32 =>
    have hclear : b.extractLsb' 37 32 = 0 := by
      have hsmall : b.toNat < 2 ^ 37 := hwidth
      refine BitVec.eq_of_toNat_eq ?_
      rw [BitVec.extractLsb'_toNat, Nat.shiftRight_eq_div_pow, Nat.div_eq_of_lt hsmall]
      rfl
    have hread : b.getLsbD 36 = false := hwr
    rw [decodeCfg, hclear, hread]
    rfl
  | binary64 =>
    have hread : b.getLsbD 68 = false := hwr
    rw [decodeCfg, hread]
    rfl

/-- Outside IDLE the configuration port takes reads only (10_state.md R47), and a read changes nothing but the result wire. -/
theorem performAll_cfgTransfer_append {p : PinsIn} {s : State} (hphase : s.phase ≠ .idle)
    (hwidth : p.cfgBeat.toNat < 2 ^ (s.par.accFmt.width + 5)) (rest : List Beat) :
    ∃ r, performAll (cfgTransfer p s ++ rest) s = performAll rest { s with ret := r } := by
  rw [cfgTransfer]
  split
  · next htransfer =>
    have hclosed : canLoad s = false := Bool.eq_false_iff.2 (mt (canLoad_iff s).1 hphase)
    obtain ⟨-, -, hwr⟩ : p.cfgValid = true ∧ p.rst = false ∧ wrBit s.par.accFmt p.cfgBeat = false := by
      simpa [cfgReady, hclosed] using htransfer
    have hdecode : decode s.par.accFmt (.cfg p.cfgBeat) = .ok (.readCsr (idxField s.par.accFmt p.cfgBeat)) :=
      decodeCfg_of_read hwidth hwr
    exact ⟨_, performAll_cons_of_next (perform_of_decode_exec hdecode rfl) rest⟩
  · exact ⟨s.ret, rfl⟩

theorem decodeIn_of_eos {b : BitVec 65} (h : b.getLsbD 64 = true) : decodeIn b = .endStream := if_pos h

/-- `out_err` overrides `out_ready` (30_encoding.md R99). -/
theorem decode_out_err (f : AccFmt) (ready : Bool) : decode f (.out ready true) = .ok .popFail := rfl

/-! ### END_STREAM and POP_FAIL in one cycle (R261) -/

theorem transfers_of_in_of_err {p : PinsIn} {s : State} (hrst : p.rst = false) (hin : p.inValid = true)
    (herr : p.outErr = true) (htake : canTake s = true) (hoffer : canOffer s = true) :
    transfers p s = cfgTransfer p s ++ [.inp p.inBeat, .out p.outReady true] := by
  simp [transfers, inTransfer, outTransfer, inReady, outValid, hrst, hin, herr, htake, hoffer]

/-- In DRAIN, as in RUN, the Writer offers what it offered before the stream ended. -/
theorem canOffer_streamEnded {s : State} (h : canOffer s = true) :
    canOffer (raiseEvent .endOfStream { s with eosSeen := true, phase := .drain }) = true := by
  obtain ⟨-, hstate, hidx⟩ := (canOffer_iff s).1 h
  exact (canOffer_iff _).2 ⟨live_of_drain rfl, hstate, hidx⟩

/-- The end of the stream first, and then the failed word: the order in which a cycle takes them (log 23). -/
theorem performAll_eos_err {s : State} {b : BitVec 65} (heos : b.getLsbD 64 = true) (htake : canTake s = true)
    (hoffer : canOffer s = true) (ready : Bool) :
    ∃ t, performAll [.inp b, .out ready true] s = .next t ∧ t.phase = .aborted ∧ t.eosSeen = true ∧ t.outFailed = true := by
  have hend : perform (.inp b) s = .next (raiseEvent .endOfStream { s with eosSeen := true, phase := .drain }) :=
    perform_of_decode_exec (congrArg Except.ok (decodeIn_of_eos heos)) (exec_endStream_enabled htake)
  rw [performAll_cons_of_next hend, performAll_cons_of_next
    (perform_of_decode_exec (decode_out_err _ ready) (exec_popFail_enabled (canOffer_streamEnded hoffer)))]
  exact ⟨_, rfl, rfl, rfl, rfl⟩

/-- Settles O53: a word on offer rules out IDLE, so that the configuration port changes nothing before the two beats run. -/
theorem abortWinsTheCycle : Obligations.AbortWinsTheCycle := by
  intro s p hrst hin heos herr hwidth htake hoffer
  have hlive : live s = true := ((canOffer_iff s).1 hoffer).1
  obtain ⟨r, hcfg⟩ := performAll_cfgTransfer_append (live_phase hlive).1 hwidth [.inp p.inBeat, .out p.outReady true]
  rw [cycle, transfers_of_in_of_err hrst hin herr htake hoffer, hcfg]
  exact performAll_eos_err (s := { s with ret := r }) heos htake hoffer p.outReady

end Sys2Proof.Machine
